-- ==== Sys2Proof/Word.lean ====
section
/-! DEFINITION. The word types of FFCV: a byte, a 16-bit register, an offset into the MMIO window. -/

namespace Sys2Proof

/-- A byte: 8 bits, bit 0 the least significant (00_scope.md R11). -/
abbrev Byte := BitVec 8

/-- The contents of one of the seven 16-bit registers (10_state.md R30). -/
abbrev Half := BitVec 16

/-- An offset into the MMIO window: 13 address bits, 0x0000 to 0x1FFF (20_memory.md R101). -/
abbrev Offset := BitVec 13

end Sys2Proof
end

