-- ==== Sys2Proof/Config.lean ====
section
/-! DEFINITION. The implementation parameters of 00_scope.md R9, and the two values no rule fixes. -/

namespace Sys2Proof.Config

/-- MAX_PAYLOAD of R9: the largest wire length of a field, in bytes. -/
def maxPayload : Nat := 63

/-- BLOCK of R9: the alignment unit of area offsets and sizes, in bytes. -/
def block : Nat := 8

/-- IN_CAP of R9: the size of IN_BUF. -/
def inCap : Nat := 256

/-- FIELD_CAP of R9: the size of FIELD_BUF. -/
def fieldCap : Nat := 64

/-- OUT_CAP_MAX of R9: the size of OUT_BUF. -/
def outCapMax : Nat := 128

/-- FRAME_CAP of R9: the size of FRAME, and the largest legal FRAME_LEN (10_state.md R48). -/
def frameCap : Nat := 4096

/-- The size of the MMIO window of R9. -/
def windowSize : Nat := 8192

/-- BCD_PLACEHOLDER: what BCD+ nibbles 0xD to 0xF decode to. The spec gives this hardware
0x3F (R9, 40_field_codec.md R206); that the model does not take up R10's leave to range over other bytes is a
DESIGN CHOICE, log entry 7. -/
def bcdPlaceholder : Byte := 0x3F

/-- The EOF sentinel of a field stream (30_encoding.md R155). -/
def eofSentinel : Byte := 0xC1

/-- FFCV_BASE: where the platform places the window. The spec names the parameter and gives no value
(20_memory.md R101), so this constant has no body. DESIGN CHOICE, log entry 8. -/
opaque ffcvBase : Nat

/-- The value `nib` would have outside its 13 bytes, where the spec leaves it undefined (40_field_codec.md R205).
A free value: no body. No command ever uses it. DESIGN CHOICE, log entry 9. -/
opaque nibOutside : Byte → Nat

end Sys2Proof.Config
end

