-- ==== Sys2Proof/Syntax.lean ====
section
/-! DEFINITION. What the encodings name: commands, typelen tags, registers, buffers, host accesses, and the lines
of a host program (30_encoding.md, 10_state.md R30 and R31). -/

namespace Sys2Proof

/-- The twelve commands of FFCV, one per row of the opcode map (30_encoding.md R151). A command has no operand in its
byte: each reads fixed registers and buffers (R156). -/
inductive Instr where
  | nop
  | classify
  | encode
  | decode
  | tagparse
  | tlstep
  | ckgen
  | ckchk
  | bounds
  | hdrchk
  | arealookup
  | mrchk
deriving DecidableEq, Repr

/-- The two fields of a command byte (30_encoding.md R150): RSV = CMD[7:4], OPC = CMD[3:0]. -/
structure CmdFields where
  rsv : BitVec 4
  opc : BitVec 4
deriving DecidableEq, Repr

/-- The four field representations (00_scope.md R16). -/
inductive FieldType where
  | binary
  | bcdplus
  | sixbit
  | text
deriving DecidableEq, Repr

/-- A typelen tag taken apart: a representation and a payload byte count (30_encoding.md R153). -/
structure Typelen where
  type : FieldType
  len : Nat
deriving DecidableEq, Repr

/-- The 8-bit registers (10_state.md R30). -/
inductive Reg8 where
  | cmd
  | status
  | ctrl
  | inLen
  | outCap
  | outLen
  | fieldTl
  | tagTl
  | tagType
  | tagLen
  | tagFlags
  | tagDlen
  | ckResult
  | mrType
  | mrFlags
deriving DecidableEq, Repr

/-- The 16-bit registers (10_state.md R30). -/
inductive Reg16 where
  | frameLen
  | rangeOff
  | rangeLen
  | cursor
  | limit
  | areaPtr
  | areaSize
deriving DecidableEq, Repr

/-- The byte buffers (10_state.md R30). -/
inductive Buffer where
  | fieldBuf
  | outBuf
  | inBuf
  | frame
deriving DecidableEq, Repr

/-- What can reach FFCV from outside: a one-byte read or write of the window (20_memory.md R103), or the reset input
(70_reset_and_hazards.md R450). There is nothing else (60_exceptions.md R413). -/
inductive HostEvent where
  /-- `MemRead(off, 1)` -/
  | read (off : Offset)
  /-- `MemWrite(off, 1, b)` -/
  | write (off : Offset) (b : Byte)
  /-- the reset input is asserted -/
  | reset
deriving DecidableEq, Repr

/-- The lines of a host program that stand for accesses: the two base forms of 30_encoding.md R158 and the
pseudo-instructions of R159. Labels, jumps and host variables belong to the host and have no encoding (R158). -/
inductive HostLine where
  /-- `W off, b` -/
  | w (off b : Nat)
  /-- `R off -> x` -/
  | r (off : Nat)
  /-- `CMD m` -/
  | cmd (m : Instr)
  /-- `W16 NAME, v` -/
  | w16 (name : Reg16) (v : Nat)
  /-- `R16 NAME -> x` -/
  | r16 (name : Reg16)
  /-- `WB off, b0 b1 ... bk` -/
  | wb (off : Nat) (bytes : List Nat)
  /-- `WS off, "text"` -/
  | ws (off : Nat) (text : List Char)
  /-- `SETCTRL mode, policy, slot` -/
  | setctrl (mode policy slot : Nat)
  /-- `LOADIN "text"` -/
  | loadin (text : List Char)
deriving DecidableEq, Repr

end Sys2Proof
end

