-- ==== Sys2Proof/WellFormed.lean ====
section
/-! DEFINITION. Which terms of the syntax the spec allows. -/

namespace Sys2Proof

/-- A command byte's fields are defined when RSV is 0 and OPC is not one of the reserved opcodes 0xC to 0xF
(30_encoding.md R150 to R152). -/
def CmdFields.wf (c : CmdFields) : Bool :=
  c.rsv == 0 && decide (c.opc.toNat < 0xC)

/-- A command carries no operand that could be out of range (30_encoding.md R150, R156). -/
def Instr.wf : Instr → Bool
  | .nop => true
  | .classify => true
  | .encode => true
  | .decode => true
  | .tagparse => true
  | .tlstep => true
  | .ckgen => true
  | .ckchk => true
  | .bounds => true
  | .hdrchk => true
  | .arealookup => true
  | .mrchk => true

/-- A typelen tag has a wire length of 0 to 63 (30_encoding.md R153). -/
def Typelen.wf (t : Typelen) : Bool :=
  decide (t.len ≤ Config.maxPayload)

/-- A string of a host program is ASCII (30_encoding.md R159). -/
def asciiText (text : List Char) : Bool :=
  text.all fun c => decide (c.toNat < 128)

/-- The operands of a host program's line fit their places: offsets inside the window, bytes below 256, 16-bit values
below 65536, fields of CTRL within their widths, LOADIN's length within IN_LEN (30_encoding.md R158, R159;
10_state.md R35, R36). -/
def HostLine.wf : HostLine → Bool
  | .w off b => decide (off < Config.windowSize) && decide (b < 256)
  | .r off => decide (off < Config.windowSize)
  | .cmd m => m.wf
  | .w16 _ v => decide (v < 65536)
  | .r16 _ => true
  | .wb off bytes => decide (off + bytes.length ≤ Config.windowSize) && bytes.all fun b => decide (b < 256)
  | .ws off text => decide (off + text.length ≤ Config.windowSize) && asciiText text
  | .setctrl mode policy slot => decide (mode < 8) && decide (policy < 2) && decide (slot < 8)
  | .loadin text => decide (text.length < 256) && asciiText text

end Sys2Proof
end

