-- ==== Sys2Proof/Decode.lean ====
section
/-! DEFINITION. The two encodings of FFCV, read and written: the command byte (30_encoding.md sections 1 and 2's
R150 to R152) and the typelen byte (R153 to R155). -/

namespace Sys2Proof

/-- Why a string of bytes is no command. -/
inductive DecodeError where
  /-- there is no byte: a command is one byte long (30_encoding.md R150) -/
  | noBytes
  /-- CMD[7:4] is not 0: bytes 0x10 to 0xFF (30_encoding.md R152) -/
  | reservedBits
  /-- CMD[7:4] is 0 and the opcode is 0xC to 0xF (30_encoding.md R152) -/
  | reservedOpcode
deriving DecidableEq, Repr

/-- The fields of a command byte (30_encoding.md R150). -/
def CmdFields.ofByte (b : Byte) : CmdFields :=
  ⟨b.extractLsb' 4 4, b.extractLsb' 0 4⟩

/-- The command byte with the given fields (30_encoding.md R150). -/
def CmdFields.toByte (c : CmdFields) : Byte :=
  c.rsv ++ c.opc

/-- The opcode map read from OPC (30_encoding.md R151): none for the reserved opcodes. -/
def Instr.ofOpcode (opc : BitVec 4) : Option Instr :=
  match opc.toNat with
  | 0x0 => some .nop
  | 0x1 => some .classify
  | 0x2 => some .encode
  | 0x3 => some .decode
  | 0x4 => some .tagparse
  | 0x5 => some .tlstep
  | 0x6 => some .ckgen
  | 0x7 => some .ckchk
  | 0x8 => some .bounds
  | 0x9 => some .hdrchk
  | 0xA => some .arealookup
  | 0xB => some .mrchk
  | _ => none

/-- The command selected by a byte written to CMD (30_encoding.md R151, R152). -/
def decodeByte (b : Byte) : Except DecodeError Instr :=
  let c := CmdFields.ofByte b
  if c.rsv ≠ 0 then .error .reservedBits
  else
    match Instr.ofOpcode c.opc with
    | some i => .ok i
    | none => .error .reservedOpcode

/-- Decoding of a byte string: every command is one byte, and the rest is handed back (30_encoding.md R150). -/
def decode : List Byte → Except DecodeError (Instr × List Byte)
  | [] => .error .noBytes
  | b :: rest =>
    match decodeByte b with
    | .ok i => .ok (i, rest)
    | .error e => .error e

/-- The opcode of a command (30_encoding.md R151). -/
def Instr.opcode : Instr → BitVec 4
  | .nop => 0x0
  | .classify => 0x1
  | .encode => 0x2
  | .decode => 0x3
  | .tagparse => 0x4
  | .tlstep => 0x5
  | .ckgen => 0x6
  | .ckchk => 0x7
  | .bounds => 0x8
  | .hdrchk => 0x9
  | .arealookup => 0xA
  | .mrchk => 0xB

/-- The command byte of a command (30_encoding.md R150, R151). -/
def encodeByte (i : Instr) : Byte :=
  CmdFields.toByte ⟨0, i.opcode⟩

/-- The encoding of a command: one byte (30_encoding.md R150). -/
def encode (i : Instr) : List Byte :=
  [encodeByte i]

/-- The bytes of a row of the opcode table whose bits are `w`, the least significant byte first, `n` of them. -/
def littleEndianBytes : Nat → Nat → List Byte
  | 0, _ => []
  | n + 1, w => BitVec.ofNat 8 w :: littleEndianBytes n (w / 256)

/-- The bytes of an instruction given as `nbits` bits `w`, numbered as the opcode table numbers them: whole bytes,
at least the one byte a command has, every bit above `nbits` 0. -/
def tableBytes (nbits w : Nat) : List Byte :=
  littleEndianBytes (max 1 ((nbits + 7) / 8)) (w % 2 ^ nbits)

/-- The instruction the decoder reads from a row of the opcode table. -/
def decodeTableWord (nbits w : Nat) : Option Instr :=
  match decode (tableBytes nbits w) with
  | .ok (i, []) => some i
  | _ => none

/-- The numeric code of a representation (00_scope.md R16, 30_encoding.md R153). -/
def FieldType.code : FieldType → Nat
  | .binary => 0
  | .bcdplus => 1
  | .sixbit => 2
  | .text => 3

/-- The representation with a given 2-bit code (30_encoding.md R153). -/
def FieldType.ofCode (c : BitVec 2) : FieldType :=
  match c.toNat with
  | 0 => .binary
  | 1 => .bcdplus
  | 2 => .sixbit
  | _ => .text

/-- `t[7:6]` of a typelen byte (30_encoding.md R153, 41_tag_parser.md R260; PRESUMED by the spec itself, log entry
12). -/
def typelenTypeBits (t : Byte) : BitVec 2 :=
  t.extractLsb' 6 2

/-- `t[5:0]` of a typelen byte (30_encoding.md R153, 41_tag_parser.md R260). -/
def typelenLenBits (t : Byte) : BitVec 6 :=
  t.extractLsb' 0 6

/-- The typelen tag a byte stands for: total, since every byte is a well-formed tag (30_encoding.md R153, R154). -/
def decodeTypelen (t : Byte) : Typelen :=
  ⟨FieldType.ofCode (typelenTypeBits t), (typelenLenBits t).toNat⟩

/-- The typelen byte `64 * T + n` (30_encoding.md R153). -/
def encodeTypelen (t : Typelen) : Byte :=
  BitVec.ofNat 8 (64 * t.type.code + t.len)

/-- `eof(t)` of 41_tag_parser.md R260: the byte is the EOF sentinel (30_encoding.md R155). -/
def isEof (t : Byte) : Bool :=
  t == Config.eofSentinel

end Sys2Proof
end

