-- ==== Sys2Proof/Machine/State.lean ====
section
/-! DEFINITION. Everything the spec gives the machine to hold (10_state.md R30), the two lists by which the model
takes the host's accesses in and hands its reads back, and the outcomes of a step. -/

namespace Sys2Proof.Machine

/-- A byte buffer: (offset in the buffer, byte) pairs, addresses strictly rising, no byte that equals what an unlisted
address reads as (`Memory.wf`). -/
abbrev Memory := List Host.Cell

/-- The status codes of 60_exceptions.md R400. Class 2, allocation failure, has no code: it is never produced
(00_scope.md R8). -/
inductive StatusCode where
  | ok
  | absent
  | eof
  | errLengthExceeded
  | errBadCmd
  | errBadMode
  | errBadChar
  | errBadSlot
  | errBadFrameLen
  | errVersion
  | errReserved
  | errPad
  | errChecksum
  | errBounds
  | errSize
  | errCapacity
deriving DecidableEq, Repr

/-- The state of FFCV. The registers and buffers are those of 10_state.md R30; `pending` and `hostReads` are the
model's own (DESIGN CHOICE, log entries 1 and 2). -/
structure State where
  /-- CMD, R33 -/
  cmd : Byte
  /-- STATUS, R34 -/
  status : Byte
  /-- CTRL, R35 -/
  ctrl : Byte
  /-- IN_LEN, R36 -/
  inLen : Byte
  /-- OUT_CAP, R40 -/
  outCap : Byte
  /-- OUT_LEN, R41 -/
  outLen : Byte
  /-- FIELD_TL, R38 -/
  fieldTl : Byte
  /-- TAG_TL, R43 -/
  tagTl : Byte
  /-- TAG_TYPE, R44 -/
  tagType : Byte
  /-- TAG_LEN, R45 -/
  tagLen : Byte
  /-- TAG_FLAGS, R46 -/
  tagFlags : Byte
  /-- TAG_DLEN, R47 -/
  tagDlen : Byte
  /-- CK_RESULT, R53 -/
  ckResult : Byte
  /-- MR_TYPE, R54 -/
  mrType : Byte
  /-- MR_FLAGS, R54 -/
  mrFlags : Byte
  /-- FRAME_LEN, R48 -/
  frameLen : Half
  /-- RANGE_OFF, R49 -/
  rangeOff : Half
  /-- RANGE_LEN, R49 -/
  rangeLen : Half
  /-- CURSOR, R50 -/
  cursor : Half
  /-- LIMIT, R51 -/
  limit : Half
  /-- AREA_PTR, R52 -/
  areaPtr : Half
  /-- AREA_SIZE, R52 -/
  areaSize : Half
  /-- FIELD_BUF, R39 -/
  fieldBuf : Memory
  /-- OUT_BUF, R42 -/
  outBuf : Memory
  /-- IN_BUF, R37 -/
  inBuf : Memory
  /-- FRAME, R55 -/
  frame : Memory
  /-- The host's accesses, in its program order, that FFCV has not yet performed (log entry 1). -/
  pending : List HostEvent
  /-- The bytes FFCV has returned to the host's reads, oldest first (log entry 2). -/
  hostReads : List Byte
deriving DecidableEq, Repr

/-- The reasons FFCV can stop: none. "FFCV has no stuck state" (43_sequencer.md R365) and no traps (60_exceptions.md);
a failing command is a next state with its code in STATUS. A type with no constructor is the safe choice: nothing can
raise it (log entry 5). -/
inductive Fault : Type where
deriving DecidableEq, Repr

/-- The reasons the model can have no meaning for a command. -/
inductive Refusal : Type where
  /-- A command that has no meaning yet, by its mnemonic; raised by `exec` only. Safe: the model says nothing about such
  a command. No arm of `exec` raises it: all twelve commands have their meaning. -/
  | notModelled (mnemonic : String)
deriving DecidableEq, Repr

/-- FFCV right after reset (70_reset_and_hazards.md R450): every register and every buffer byte 0, no access pending. -/
def State.reset : State where
  cmd := 0x00
  status := 0x00
  ctrl := 0x00
  inLen := 0x00
  outCap := 0x00
  outLen := 0x00
  fieldTl := 0x00
  tagTl := 0x00
  tagType := 0x00
  tagLen := 0x00
  tagFlags := 0x00
  tagDlen := 0x00
  ckResult := 0x00
  mrType := 0x00
  mrFlags := 0x00
  frameLen := 0x0000
  rangeOff := 0x0000
  rangeLen := 0x0000
  cursor := 0x0000
  limit := 0x0000
  areaPtr := 0x0000
  areaSize := 0x0000
  fieldBuf := []
  outBuf := []
  inBuf := []
  frame := []
  pending := []
  hostReads := []

end Sys2Proof.Machine
end

