-- ==== Sys2Proof/Machine/Ops.lean ====
section
/-! DEFINITION. The shared operations over buffers and registers, and how a command ends: `raise` with a failure
(what FFCV has in place of taking an exception, 60_exceptions.md R411) and `finish` with a success. -/

namespace Sys2Proof.Machine

/-! ## Buffers -/

/-- What a buffer byte that is not listed reads as: 0x00, the reset value of every buffer byte
(70_reset_and_hazards.md R450). Log entry 6. -/
def Memory.unlisted : Byte := 0x00

/-- `BUF[a]` (00_scope.md R13). -/
def Memory.read : Memory → Nat → Byte
  | [], _ => Memory.unlisted
  | c :: m, a => if c.1 = a then c.2 else Memory.read m a

/-- The buffer with no entry for address `a`. -/
def Memory.erase (m : Memory) (a : Nat) : Memory :=
  m.filter fun c => c.1 != a

/-- The buffer with an entry for `a` put in its place by address. -/
def Memory.place : Memory → Nat → Byte → Memory
  | [], a, b => [(a, b)]
  | c :: m, a, b => if a < c.1 then (a, b) :: c :: m else c :: Memory.place m a b

/-- `BUF[a] <- b` (00_scope.md R13), in canonical form: a byte equal to what an unlisted address reads as has no
entry. -/
def Memory.write (m : Memory) (a : Nat) (b : Byte) : Memory :=
  if b = Memory.unlisted then m.erase a else (m.erase a).place a b

/-- `BUF[a .. a+n-1]`, the byte string of n bytes starting at a (00_scope.md R13). -/
def Memory.readBytes (m : Memory) (a : Nat) : Nat → List Byte
  | 0 => []
  | n + 1 => m.read a :: Memory.readBytes m (a + 1) n

/-- `BUF[a .. a+k-1] <- bs`, the k bytes of `bs` stored from address a on. -/
def Memory.writeBytes (m : Memory) (a : Nat) : List Byte → Memory
  | [] => m
  | b :: bs => Memory.writeBytes (m.write a b) (a + 1) bs

/-- `BUF[0 .. k-1] <- bs; BUF[k .. cap-1] <- 0x00`: how ENCODE and TLSTEP fill FIELD_BUF (10_state.md R39) and DECODE
fills OUT_BUF (R42). -/
def Memory.fill (m : Memory) (cap : Nat) (bs : List Byte) : Memory :=
  m.writeBytes 0 (bs ++ List.replicate (cap - bs.length) 0x00)

/-- The addresses of a cell list rise strictly. -/
def Memory.rising : Memory → Bool
  | [] => true
  | [_] => true
  | c :: d :: m => decide (c.1 < d.1) && Memory.rising (d :: m)

/-- The canonical form of a buffer: addresses strictly rising, no entry equal to what an unlisted address reads as. -/
def Memory.wf (m : Memory) : Bool :=
  m.rising && m.all fun c => c.2 != Memory.unlisted

/-- Every listed address lies inside a buffer of `cap` bytes. -/
def Memory.within (m : Memory) (cap : Nat) : Bool :=
  m.all fun c => decide (c.1 < cap)

/-! ## Sums and ranges -/

/-- The sum of the bytes of a string, as an unbounded number (00_scope.md R12). -/
def byteSum : List Byte → Nat
  | [] => 0
  | b :: bs => b.toNat + byteSum bs

/-- `FRAME[i]`, by the byte offset commands use (20_memory.md R100). -/
def State.frameByte (s : State) (i : Nat) : Byte :=
  s.frame.read i

/-- `FRAME[a .. a+n-1]` (00_scope.md R13). -/
def State.frameBytes (s : State) (a n : Nat) : List Byte :=
  s.frame.readBytes a n

/-- `sum8(a, n)` (00_scope.md R15). -/
def sum8 (s : State) (a n : Nat) : Nat :=
  byteSum (s.frameBytes a n) % 256

/-- `ck8(a, n)`, the two's complement of the byte sum (00_scope.md R15). -/
def ck8 (s : State) (a n : Nat) : Nat :=
  (256 - sum8 s a n) % 256

/-- A range of n bytes at offset a lies inside a bound when `a + n <= lim`, on unbounded integers
(42_validator.md R303). -/
def inBound (a n lim : Nat) : Bool :=
  decide (a + n ≤ lim)

/-- `ceil(a / b)` (00_scope.md R12). -/
def ceilDiv (a b : Nat) : Nat :=
  (a + (b - 1)) / b

/-! ## Digits

A number as its little-endian digits in a base, and back: the bit strings of 40_field_codec.md R211 and R212, where a
slice `W[8k+7 : 8k]` is digit k in base 256 and `W[6i+5 : 6i]` digit i in base 64. -/

/-- `sum over i of ds[i] * base^i`. -/
def valueOf (base : Nat) : List Nat → Nat
  | [] => 0
  | d :: ds => d + base * valueOf base ds

/-- The first n little-endian digits of `w`. -/
def digitsOf (base : Nat) : Nat → Nat → List Nat
  | 0, _ => []
  | n + 1, w => w % base :: digitsOf base n (w / base)

/-! ## Registers -/

/-- An 8-bit register's contents. -/
def State.get8 (s : State) : Reg8 → Byte
  | .cmd => s.cmd
  | .status => s.status
  | .ctrl => s.ctrl
  | .inLen => s.inLen
  | .outCap => s.outCap
  | .outLen => s.outLen
  | .fieldTl => s.fieldTl
  | .tagTl => s.tagTl
  | .tagType => s.tagType
  | .tagLen => s.tagLen
  | .tagFlags => s.tagFlags
  | .tagDlen => s.tagDlen
  | .ckResult => s.ckResult
  | .mrType => s.mrType
  | .mrFlags => s.mrFlags

/-- The state with an 8-bit register replaced. -/
def State.set8 (s : State) (r : Reg8) (b : Byte) : State :=
  match r with
  | .cmd => { s with cmd := b }
  | .status => { s with status := b }
  | .ctrl => { s with ctrl := b }
  | .inLen => { s with inLen := b }
  | .outCap => { s with outCap := b }
  | .outLen => { s with outLen := b }
  | .fieldTl => { s with fieldTl := b }
  | .tagTl => { s with tagTl := b }
  | .tagType => { s with tagType := b }
  | .tagLen => { s with tagLen := b }
  | .tagFlags => { s with tagFlags := b }
  | .tagDlen => { s with tagDlen := b }
  | .ckResult => { s with ckResult := b }
  | .mrType => { s with mrType := b }
  | .mrFlags => { s with mrFlags := b }

/-- A 16-bit register's contents. -/
def State.get16 (s : State) : Reg16 → Half
  | .frameLen => s.frameLen
  | .rangeOff => s.rangeOff
  | .rangeLen => s.rangeLen
  | .cursor => s.cursor
  | .limit => s.limit
  | .areaPtr => s.areaPtr
  | .areaSize => s.areaSize

/-- The state with a 16-bit register replaced. -/
def State.set16 (s : State) (r : Reg16) (v : Half) : State :=
  match r with
  | .frameLen => { s with frameLen := v }
  | .rangeOff => { s with rangeOff := v }
  | .rangeLen => { s with rangeLen := v }
  | .cursor => { s with cursor := v }
  | .limit => { s with limit := v }
  | .areaPtr => { s with areaPtr := v }
  | .areaSize => { s with areaSize := v }

/-- A buffer's contents. -/
def State.getBuf (s : State) : Buffer → Memory
  | .fieldBuf => s.fieldBuf
  | .outBuf => s.outBuf
  | .inBuf => s.inBuf
  | .frame => s.frame

/-- The state with a buffer replaced. -/
def State.setBuf (s : State) (b : Buffer) (m : Memory) : State :=
  match b with
  | .fieldBuf => { s with fieldBuf := m }
  | .outBuf => { s with outBuf := m }
  | .inBuf => { s with inBuf := m }
  | .frame => { s with frame := m }

/-! ## What commands write -/

/-- `R.STATUS <- b`. -/
def State.setStatus (s : State) (b : Byte) : State :=
  { s with status := b }

/-- `R.FIELD_TL <- t; FIELD[0 .. n-1] <- P; FIELD[n .. 63] <- 0x00` (40_field_codec.md R216, 41_tag_parser.md R263). -/
def State.setField (s : State) (t : Byte) (payload : List Byte) : State :=
  { s with fieldTl := t, fieldBuf := s.fieldBuf.fill Config.fieldCap payload }

/-- `OUT[0 .. k-1] <- s; OUT[k .. 127] <- 0x00; R.OUT_LEN <- k` (40_field_codec.md R217). -/
def State.setOut (s : State) (str : List Byte) : State :=
  { s with outBuf := s.outBuf.fill Config.outCapMax str, outLen := BitVec.ofNat 8 str.length }

/-- `R.CK_RESULT <- v` (42_validator.md R305, R306). -/
def State.setCk (s : State) (v : Nat) : State :=
  { s with ckResult := BitVec.ofNat 8 v }

/-- `R.AREA_PTR <- b; R.AREA_SIZE <- size` (42_validator.md R310, R312). -/
def State.setArea (s : State) (b size : Nat) : State :=
  { s with areaPtr := BitVec.ofNat 16 b, areaSize := BitVec.ofNat 16 size }

/-- `R.MR_TYPE <- FRAME[b]; R.MR_FLAGS <- FRAME[b+1]` (42_validator.md R310, R312). -/
def State.setMr (s : State) (b : Nat) : State :=
  { s with mrType := s.frameByte b, mrFlags := s.frameByte (b + 1) }

/-- `R.CURSOR <- c` (41_tag_parser.md R263, 42_validator.md R312). -/
def State.setCursor (s : State) (c : Nat) : State :=
  { s with cursor := BitVec.ofNat 16 c }

/-! ## How a command ends -/

/-- The outcome of a command or a step of FFCV. -/
abbrev Result := Host.Outcome State Fault Refusal

/-- The byte of a status code: CLASS in [7:4], COND in [3:0] (60_exceptions.md R400). -/
def StatusCode.toByte : StatusCode → Byte
  | .ok => 0x00
  | .absent => 0x01
  | .eof => 0x02
  | .errLengthExceeded => 0x10
  | .errBadCmd => 0x11
  | .errBadMode => 0x12
  | .errBadChar => 0x13
  | .errBadSlot => 0x14
  | .errBadFrameLen => 0x15
  | .errVersion => 0x30
  | .errReserved => 0x31
  | .errPad => 0x32
  | .errChecksum => 0x33
  | .errBounds => 0x34
  | .errSize => 0x35
  | .errCapacity => 0x40

/-- `raise S`: the command ends with STATUS <- S and no other write at all (00_scope.md R14). This is what FFCV does
in place of trap entry: no mode, mask, stack or other register changes and control goes nowhere; `s` is the state
before the command (60_exceptions.md R411). There is no return operation to model beside it (R412). -/
def raise (code : StatusCode) (s : State) : Result :=
  .next (s.setStatus code.toByte)

/-- `finish S`: the command ends with STATUS <- S after the writes listed before it, which `s` holds
(00_scope.md R14). -/
def finish (code : StatusCode) (s : State) : Result :=
  .next (s.setStatus code.toByte)

end Sys2Proof.Machine
end

