-- ==== Sys2Proof/Machine/Operands.lean ====
section
/-! DEFINITION. The operands commands read: fixed registers, register fields and buffers, taken as unsigned numbers
and byte strings (30_encoding.md R156, R157). -/

namespace Sys2Proof.Machine

/-- CTRL.ENC_MODE = CTRL[2:0] (10_state.md R35). -/
def State.encMode (s : State) : Nat :=
  (s.ctrl.extractLsb' 0 3).toNat

/-- CTRL.POLICY = CTRL[3]: true selects force-ASCII (10_state.md R35). -/
def State.policy (s : State) : Bool :=
  s.ctrl.getLsbD 3

/-- CTRL.SLOT = CTRL[6:4] (10_state.md R35). -/
def State.slot (s : State) : Nat :=
  (s.ctrl.extractLsb' 4 3).toNat

/-- The value to classify or encode, IN_BUF[0 .. IN_LEN-1] (10_state.md R36, R37). -/
def State.value (s : State) : List Byte :=
  s.inBuf.readBytes 0 s.inLen.toNat

/-- The tag of the field in FIELD_BUF (10_state.md R38). -/
def State.fieldTag (s : State) : Typelen :=
  decodeTypelen s.fieldTl

/-- The payload FIELD_BUF[0 .. n-1] with n = FIELD_TL[5:0] (10_state.md R39). -/
def State.fieldPayload (s : State) : List Byte :=
  s.fieldBuf.readBytes 0 s.fieldTag.len

end Sys2Proof.Machine
end

