-- ==== Sys2Proof/Machine/Codec.lean ====
section
/-! DEFINITION. The pure functions of the field codec (40_field_codec.md section 1). -/

namespace Sys2Proof.Machine

/-! ## Classification -/

/-- The widening order of the classifier, which is not the order of the codes (00_scope.md R16). -/
def rank : FieldType → Nat
  | .bcdplus => 0
  | .sixbit => 1
  | .text => 2
  | .binary => 3

/-- The one of two types with the larger rank (00_scope.md R16). -/
def widest (a b : FieldType) : FieldType :=
  if rank a < rank b then b else a

/-- A byte is a digit, 0x30 to 0x39. -/
def isDigit (b : Byte) : Bool :=
  decide (0x30 ≤ b.toNat) && decide (b.toNat ≤ 0x39)

/-- A byte is one of the 13 BCD+ characters: digit, space, dash, dot (40_field_codec.md R200, R205). -/
def isBcdChar (b : Byte) : Bool :=
  isDigit b || b == 0x20 || b == 0x2D || b == 0x2E

/-- A byte is in the printable 6-bit range 0x20 to 0x5F (40_field_codec.md R200). -/
def isSixChar (b : Byte) : Bool :=
  decide (0x20 ≤ b.toNat) && decide (b.toNat ≤ 0x5F)

/-- A byte is an ASCII control byte other than tab, CR and LF (40_field_codec.md R200; PRESUMED by the spec itself,
log entry 12). -/
def isControl (b : Byte) : Bool :=
  (decide (b.toNat ≤ 0x1F) && !(b == 0x09 || b == 0x0A || b == 0x0D)) || b == 0x7F

/-- The character class of a byte (40_field_codec.md R200). -/
def cls (b : Byte) : FieldType :=
  if isBcdChar b then .bcdplus
  else if isSixChar b then .sixbit
  else if isControl b then .binary
  else .text

/-- Auto classification: start at BCDPLUS and widen once per byte (40_field_codec.md R201). -/
def autoType (d : List Byte) : FieldType :=
  d.foldl (fun t b => widest t (cls b)) .bcdplus

/-- The effective type of a CLASSIFY or ENCODE (40_field_codec.md R202). -/
def effType (mode : Nat) (policy : Bool) (d : List Byte) : Except StatusCode FieldType :=
  match mode with
  | 0 => if policy then .ok .text else .ok (autoType d)
  | 1 => .ok .binary
  | 2 => if d.all isBcdChar then .ok .bcdplus else .error .errBadChar
  | 3 => if d.all isSixChar then .ok .sixbit else .error .errBadChar
  | 4 => .ok .text
  | _ => .error .errBadMode

/-! ## Lengths -/

/-- Wire length of a value of `l` characters encoded as a type (40_field_codec.md R203). -/
def plen (t : FieldType) (l : Nat) : Nat :=
  match t with
  | .binary => l
  | .text => l
  | .bcdplus => ceilDiv l 2
  | .sixbit => ceilDiv (6 * l) 8

/-- Decoded length of a field of a type and wire length, before stripping (40_field_codec.md R204). -/
def dlen (t : FieldType) (n : Nat) : Nat :=
  match t with
  | .binary => n
  | .text => n
  | .bcdplus => 2 * n
  | .sixbit => 8 * n / 6

/-! ## BCD+ -/

/-- BCD+ character to nibble (40_field_codec.md R205); a free value outside the 13 bytes nib is defined for. -/
def nib (b : Byte) : Nat :=
  if isDigit b then b.toNat - 0x30
  else if b = 0x20 then 0xA
  else if b = 0x2D then 0xB
  else if b = 0x2E then 0xC
  else Config.nibOutside b

/-- BCD+ nibble to character under a given placeholder for 0xD to 0xF (40_field_codec.md R206, 00_scope.md R10). -/
def unnibWith (placeholder : Byte) (v : Nat) : Byte :=
  if v ≤ 9 then BitVec.ofNat 8 (0x30 + v)
  else if v = 0xA then 0x20
  else if v = 0xB then 0x2D
  else if v = 0xC then 0x2E
  else placeholder

/-- BCD+ pack: the earlier character in the high nibble, a space in the spare nibble (40_field_codec.md R209). -/
def bcdPack : List Byte → List Byte
  | [] => []
  | [a] => [BitVec.ofNat 8 (16 * nib a + 0xA)]
  | a :: b :: d => BitVec.ofNat 8 (16 * nib a + nib b) :: bcdPack d

/-- BCD+ unpack, high nibble first (40_field_codec.md R210). -/
def bcdUnpackWith (placeholder : Byte) : List Byte → List Byte
  | [] => []
  | p :: ps =>
    unnibWith placeholder (p.extractLsb' 4 4).toNat ::
      unnibWith placeholder (p.extractLsb' 0 4).toNat :: bcdUnpackWith placeholder ps

/-- BCD+ unpack with this hardware's placeholder (40_field_codec.md R206, R210). -/
def bcdUnpack (p : List Byte) : List Byte :=
  bcdUnpackWith Config.bcdPlaceholder p

/-! ## 6-bit ASCII -/

/-- The 6-bit code of a character in 0x20 to 0x5F (40_field_codec.md R211); no command asks for another character's
(DEDUCED, log entry 10). -/
def sixCode (b : Byte) : Nat :=
  b.toNat - 0x20

/-- 6-bit ASCII pack, low bits first (40_field_codec.md R211). -/
def sixPack (d : List Byte) : List Byte :=
  (digitsOf 256 (plen .sixbit d.length) (valueOf 64 (d.map sixCode))).map (BitVec.ofNat 8)

/-- 6-bit ASCII unpack (40_field_codec.md R212). -/
def sixUnpack (p : List Byte) : List Byte :=
  (digitsOf 64 (dlen .sixbit p.length) (valueOf 256 (p.map BitVec.toNat))).map fun c => BitVec.ofNat 8 (0x20 + c)

/-! ## Strip, pack, unpack -/

/-- Removes every byte 0x20 at the end of a string (40_field_codec.md R207). -/
def strip (d : List Byte) : List Byte :=
  (d.reverse.dropWhile fun b => b == 0x20).reverse

/-- The payload of a value encoded as a type (40_field_codec.md R209, R211, R213). -/
def pack (t : FieldType) (d : List Byte) : List Byte :=
  match t with
  | .binary => d
  | .text => d
  | .bcdplus => bcdPack d
  | .sixbit => sixPack d

/-- The string a decoder makes of a payload: stripped for BCD+ and 6-bit, verbatim for Binary and Text
(40_field_codec.md R207, R210, R212, R213). -/
def unpack (t : FieldType) (p : List Byte) : List Byte :=
  match t with
  | .binary => p
  | .text => p
  | .bcdplus => strip (bcdUnpack p)
  | .sixbit => strip (sixUnpack p)

/-- The type and wire length CLASSIFY and ENCODE compute, or the failure they raise, in the order mode, characters,
length (40_field_codec.md R202, R203; 60_exceptions.md R410). -/
def State.plan (s : State) : Except StatusCode Typelen :=
  match effType s.encMode s.policy s.value with
  | .error code => .error code
  | .ok t =>
    if plen t s.inLen.toNat > Config.maxPayload then .error .errLengthExceeded
    else .ok ⟨t, plen t s.inLen.toNat⟩

end Sys2Proof.Machine
end

