-- ==== Sys2Proof/Machine/Flags.lean ====
section
/-! DEFINITION. The tag registers, FFCV's flags among them, and the fields of STATUS. -/

namespace Sys2Proof.Machine

/-- TAG_TYPE for a typelen byte: the type code in [1:0], 0 above (10_state.md R44). -/
def tagTypeOf (t : Byte) : Byte :=
  (typelenTypeBits t).setWidth 8

/-- TAG_LEN for a typelen byte: the wire length in [5:0], 0 above (10_state.md R45). -/
def tagLenOf (t : Byte) : Byte :=
  (typelenLenBits t).setWidth 8

/-- TAG_FLAGS for a typelen byte: bit 0 is EOF, 1 exactly for the sentinel, 0 above (10_state.md R46). -/
def tagFlagsOf (t : Byte) : Byte :=
  if isEof t then 1 else 0

/-- TAG_DLEN for a typelen byte: the decoded length of its field (10_state.md R47). -/
def tagDlenOf (t : Byte) : Byte :=
  BitVec.ofNat 8 (dlen (decodeTypelen t).type (decodeTypelen t).len)

/-- `settag(t)` (40_field_codec.md R214). -/
def State.setTag (s : State) (t : Byte) : State :=
  { s with tagType := tagTypeOf t, tagLen := tagLenOf t, tagFlags := tagFlagsOf t, tagDlen := tagDlenOf t }

/-- `R.TAG_TL <- t; settag(t)`: what CLASSIFY, ENCODE and TLSTEP do with a typelen byte (40_field_codec.md R215,
R216; 41_tag_parser.md R263). -/
def State.setTagTl (s : State) (t : Byte) : State :=
  { s with tagTl := t }.setTag t

/-- CLASS = STATUS[7:4], the error kind (10_state.md R34, 60_exceptions.md R400). -/
def statusClass (b : Byte) : BitVec 4 :=
  b.extractLsb' 4 4

/-- COND = STATUS[3:0] (10_state.md R34, 60_exceptions.md R400). -/
def statusCond (b : Byte) : BitVec 4 :=
  b.extractLsb' 0 4

end Sys2Proof.Machine
end

