-- ==== Sys2Proof/Machine/FieldCodec.lean ====
section
/-! DEFINITION. CLASSIFY, ENCODE and DECODE (40_field_codec.md section 2). -/

namespace Sys2Proof.Machine

/-- CLASSIFY: the typelen byte ENCODE would produce, without packing (40_field_codec.md R215). -/
def execClassify (s : State) : Result :=
  match s.plan with
  | .error code => raise code s
  | .ok tag => finish .ok (s.setTagTl (encodeTypelen tag))

/-- ENCODE: classifies as CLASSIFY does and packs the value into FIELD_TL and FIELD_BUF (40_field_codec.md R216). -/
def execEncode (s : State) : Result :=
  match s.plan with
  | .error code => raise code s
  | .ok tag => finish .ok ((s.setTagTl (encodeTypelen tag)).setField (encodeTypelen tag) (pack tag.type s.value))

/-- DECODE: the field in FIELD_TL and FIELD_BUF to OUT_BUF and OUT_LEN; the capacity is compared with the decoded
length before stripping (40_field_codec.md R217). -/
def execDecode (s : State) : Result :=
  let tag := s.fieldTag
  if dlen tag.type tag.len > s.outCap.toNat then raise .errCapacity s
  else finish .ok (s.setOut (unpack tag.type s.fieldPayload))

end Sys2Proof.Machine
end

