-- ==== Sys2Proof/Machine/Sequencer.lean ====
section
/-! DEFINITION. NOP and the illegal command (43_sequencer.md). -/

namespace Sys2Proof.Machine

/-- NOP: does nothing and reports success (43_sequencer.md R364). -/
def execNop (s : State) : Result :=
  finish .ok s

/-- A command byte with RSV not 0 or a reserved opcode: no operand is read and only STATUS is written
(43_sequencer.md R363). -/
def illegalCommand (s : State) : Result :=
  raise .errBadCmd s

end Sys2Proof.Machine
end

