-- ==== Sys2Proof/Machine/TagParser.lean ====
section
/-! DEFINITION. TAGPARSE and TLSTEP (41_tag_parser.md section 2). -/

namespace Sys2Proof.Machine

/-- TAGPARSE: the typelen byte in TAG_TL taken apart; always OK (41_tag_parser.md R262). -/
def execTagparse (s : State) : Result :=
  finish .ok (s.setTag s.tagTl)

/-- TLSTEP: one field off the stream at CURSOR, under the bound LIMIT; EOF at the sentinel (41_tag_parser.md R263).
All arithmetic is on unbounded integers. -/
def execTlstep (s : State) : Result :=
  let fl := s.frameLen.toNat
  let lim := s.limit.toNat
  let c := s.cursor.toNat
  if fl > Config.frameCap then raise .errBadFrameLen s
  else if lim > fl then raise .errBounds s
  else if !inBound c 1 lim then raise .errBounds s
  else
    let t := s.frameByte c
    if isEof t then finish .eof (s.setTagTl t)
    else
      let n := (decodeTypelen t).len
      if !inBound (c + 1) n lim then raise .errBounds s
      else finish .ok (((s.setTagTl t).setField t (s.frameBytes (c + 1) n)).setCursor (c + 1 + n))

end Sys2Proof.Machine
end

