-- ==== Sys2Proof/Machine/Validator.lean ====
section
/-! DEFINITION. CKGEN, CKCHK, BOUNDS, HDRCHK, AREALOOKUP and MRCHK (42_validator.md). -/

namespace Sys2Proof.Machine

/-! ## Checksum and bounds commands -/

/-- CKGEN: the checksum byte of a range (42_validator.md R305). -/
def execCkgen (s : State) : Result :=
  let fl := s.frameLen.toNat
  let a := s.rangeOff.toNat
  let n := s.rangeLen.toNat
  if fl > Config.frameCap then raise .errBadFrameLen s
  else if !inBound a n fl then raise .errBounds s
  else finish .ok (s.setCk (ck8 s a n))

/-- CKCHK: checks that a range sums to 0 mod 256 (42_validator.md R306). -/
def execCkchk (s : State) : Result :=
  let fl := s.frameLen.toNat
  let a := s.rangeOff.toNat
  let n := s.rangeLen.toNat
  if fl > Config.frameCap then raise .errBadFrameLen s
  else if !inBound a n fl then raise .errBounds s
  else if sum8 s a n ≠ 0 then raise .errChecksum s
  else finish .ok (s.setCk 0x00)

/-- BOUNDS: checks that a byte range lies inside the frame; reads no FRAME byte (42_validator.md R307). -/
def execBounds (s : State) : Result :=
  let fl := s.frameLen.toNat
  let a := s.rangeOff.toNat
  let n := s.rangeLen.toNat
  if fl > Config.frameCap then raise .errBadFrameLen s
  else if !inBound a n fl then raise .errBounds s
  else finish .ok s

/-! ## Structure checks -/

/-- A version nibble or a reserved nibble: bits [3:0] and [7:4] of a header byte (20_memory.md R108). -/
def lowNibble (b : Byte) : BitVec 4 :=
  b.extractLsb' 0 4

/-- Bits [7:4] of a byte. -/
def highNibble (b : Byte) : BitVec 4 :=
  b.extractLsb' 4 4

/-- `hdrcheck(fl)`: the container header FRAME[0 .. 7] (42_validator.md R308). -/
def hdrCheck (s : State) (fl : Nat) : Except StatusCode Unit :=
  if fl < 8 then .error .errBounds
  else if lowNibble (s.frameByte 0) ≠ 1 then .error .errVersion
  else if highNibble (s.frameByte 0) ≠ 0 then .error .errReserved
  else if s.frameByte 6 ≠ 0 then .error .errPad
  else if sum8 s 0 8 ≠ 0 then .error .errChecksum
  else .ok ()

/-- A block offset or block size in bytes (42_validator.md R301). -/
def blocks (b : Byte) : Nat :=
  Config.block * b.toNat

/-- `iucheck(b, fl)`: an internal-use area, whose size no header declares (42_validator.md R309). -/
def iuCheck (s : State) (b fl : Nat) : Except StatusCode Nat :=
  if !inBound b 1 fl then .error .errBounds
  else if lowNibble (s.frameByte b) ≠ 1 then .error .errVersion
  else .ok 0

/-- `infocheck(b, fl)`: a chassis, board or product area; bits [7:4] of its version byte are not checked
(42_validator.md R309). -/
def infoCheck (s : State) (b fl : Nat) : Except StatusCode Nat :=
  if !inBound b 2 fl then .error .errBounds
  else if lowNibble (s.frameByte b) ≠ 1 then .error .errVersion
  else
    let size := blocks (s.frameByte (b + 1))
    if size = 0 then .error .errSize
    else if !inBound b size fl then .error .errBounds
    else if sum8 s b size ≠ 0 then .error .errChecksum
    else .ok size

/-- `mrcheck(c, lim)`: a multirecord record; its header checksum is checked before its length byte is used
(42_validator.md R311). -/
def mrCheck (s : State) (c lim : Nat) : Except StatusCode Nat :=
  if !inBound c 5 lim then .error .errBounds
  else if (s.frameByte (c + 1)).extractLsb' 0 3 ≠ (2 : BitVec 3) then .error .errVersion
  else if sum8 s c 5 ≠ 0 then .error .errChecksum
  else
    let pl := (s.frameByte (c + 2)).toNat
    if !inBound (c + 5) pl lim then .error .errBounds
    else if ((s.frameByte (c + 3)).toNat + sum8 s (c + 5) pl) % 256 ≠ 0 then .error .errChecksum
    else .ok (5 + pl)

/-- The check of the area in a slot: internal-use, chassis, board and product, multirecord (42_validator.md R310). -/
def areaCheck (s : State) (slot b fl : Nat) : Except StatusCode Nat :=
  match slot with
  | 0 => iuCheck s b fl
  | 1 => infoCheck s b fl
  | 2 => infoCheck s b fl
  | 3 => infoCheck s b fl
  | _ => mrCheck s b fl

/-- HDRCHK: validates the container header (42_validator.md R308). -/
def execHdrchk (s : State) : Result :=
  let fl := s.frameLen.toNat
  if fl > Config.frameCap then raise .errBadFrameLen s
  else
    match hdrCheck s fl with
    | .error code => raise code s
    | .ok () => finish .ok s

/-- AREALOOKUP: validates the container header, then the area in CTRL.SLOT, and returns its offset and size
(42_validator.md R310). -/
def execArealookup (s : State) : Result :=
  let fl := s.frameLen.toNat
  let slot := s.slot
  if fl > Config.frameCap then raise .errBadFrameLen s
  else if slot > 4 then raise .errBadSlot s
  else
    match hdrCheck s fl with
    | .error code => raise code s
    | .ok () =>
      let o := s.frameByte (1 + slot)
      if o = 0 then finish .absent (s.setArea 0 0)
      else
        match areaCheck s slot (blocks o) fl with
        | .error code => raise code s
        | .ok size =>
          if slot = 4 then finish .ok ((s.setMr (blocks o)).setArea (blocks o) size)
          else finish .ok (s.setArea (blocks o) size)

/-- MRCHK: validates the multirecord record at CURSOR and advances CURSOR to the next (42_validator.md R312). -/
def execMrchk (s : State) : Result :=
  let fl := s.frameLen.toNat
  let lim := s.limit.toNat
  let c := s.cursor.toNat
  if fl > Config.frameCap then raise .errBadFrameLen s
  else if lim > fl then raise .errBounds s
  else
    match mrCheck s c lim with
    | .error code => raise code s
    | .ok size => finish .ok (((s.setMr c).setArea c size).setCursor (c + size))

end Sys2Proof.Machine
end

