-- ==== Sys2Proof/Machine/Dispatch.lean ====
section
/-! DEFINITION. One arm per command: the meaning of each row of the opcode map (30_encoding.md R151). -/

namespace Sys2Proof.Machine

def exec (i : Instr) (s : State) : Host.Outcome State Fault Refusal :=
  match i with
  -- 43_sequencer.md
  | .nop => Sys2Proof.Machine.execNop s
  -- 40_field_codec.md
  | .classify => Sys2Proof.Machine.execClassify s
  | .encode => Sys2Proof.Machine.execEncode s
  | .decode => Sys2Proof.Machine.execDecode s
  -- 41_tag_parser.md
  | .tagparse => Sys2Proof.Machine.execTagparse s
  | .tlstep => Sys2Proof.Machine.execTlstep s
  -- 42_validator.md
  | .ckgen => Sys2Proof.Machine.execCkgen s
  | .ckchk => Sys2Proof.Machine.execCkchk s
  | .bounds => Sys2Proof.Machine.execBounds s
  | .hdrchk => Sys2Proof.Machine.execHdrchk s
  | .arealookup => Sys2Proof.Machine.execArealookup s
  | .mrchk => Sys2Proof.Machine.execMrchk s

end Sys2Proof.Machine
end

