-- ==== Sys2Proof/Machine/Mmio.lean ====
section
/-! DEFINITION. The MMIO window: where each register and buffer byte stands, and the host's one-byte reads and writes
of it, without the command a write to CMD starts (10_state.md R31; 20_memory.md R101 to R106). -/

namespace Sys2Proof.Machine

/-! ## The register map (10_state.md R31) -/

/-- The offset of an 8-bit register. -/
def Reg8.offset : Reg8 → Nat
  | .cmd => 0x000
  | .status => 0x001
  | .ctrl => 0x002
  | .inLen => 0x003
  | .outCap => 0x004
  | .outLen => 0x005
  | .fieldTl => 0x006
  | .tagTl => 0x007
  | .tagType => 0x008
  | .tagLen => 0x009
  | .tagFlags => 0x00A
  | .tagDlen => 0x00B
  | .ckResult => 0x00C
  | .mrType => 0x00D
  | .mrFlags => 0x00E

/-- The offset of a 16-bit register's low byte; its high byte stands at the next offset. -/
def Reg16.offset : Reg16 → Nat
  | .frameLen => 0x010
  | .rangeOff => 0x012
  | .rangeLen => 0x014
  | .cursor => 0x016
  | .limit => 0x018
  | .areaPtr => 0x01A
  | .areaSize => 0x01C

/-- The offset of a buffer's byte 0. -/
def Buffer.base : Buffer → Nat
  | .fieldBuf => 0x040
  | .outBuf => 0x080
  | .inBuf => 0x100
  | .frame => 0x1000

/-- The size of a buffer in bytes. -/
def Buffer.capacity : Buffer → Nat
  | .fieldBuf => Config.fieldCap
  | .outBuf => Config.outCapMax
  | .inBuf => Config.inCap
  | .frame => Config.frameCap

/-- Whether the host may write an 8-bit register (RW) or not (RO). -/
def Reg8.hostWritable : Reg8 → Bool
  | .cmd => true
  | .status => false
  | .ctrl => true
  | .inLen => true
  | .outCap => true
  | .outLen => false
  | .fieldTl => true
  | .tagTl => true
  | .tagType => false
  | .tagLen => false
  | .tagFlags => false
  | .tagDlen => false
  | .ckResult => false
  | .mrType => false
  | .mrFlags => false

/-- Whether the host may write a 16-bit register. -/
def Reg16.hostWritable : Reg16 → Bool
  | .frameLen => true
  | .rangeOff => true
  | .rangeLen => true
  | .cursor => true
  | .limit => true
  | .areaPtr => false
  | .areaSize => false

/-- Whether the host may write a buffer's bytes. -/
def Buffer.hostWritable : Buffer → Bool
  | .fieldBuf => true
  | .outBuf => false
  | .inBuf => true
  | .frame => true

/-- The bits of an 8-bit register that are not hardwired to 0: CTRL[7] (10_state.md R35), TAG_TYPE[7:2] (R44),
TAG_LEN[7:6] (R45) and TAG_FLAGS[7:1] (R46) read 0. Log entry 11. -/
def Reg8.mask : Reg8 → Byte
  | .cmd => 0xFF
  | .status => 0xFF
  | .ctrl => 0x7F
  | .inLen => 0xFF
  | .outCap => 0xFF
  | .outLen => 0xFF
  | .fieldTl => 0xFF
  | .tagTl => 0xFF
  | .tagType => 0x03
  | .tagLen => 0x3F
  | .tagFlags => 0x01
  | .tagDlen => 0xFF
  | .ckResult => 0xFF
  | .mrType => 0xFF
  | .mrFlags => 0xFF

/-- The registers and buffers, in the order of the map. -/
def allReg8 : List Reg8 :=
  [.cmd, .status, .ctrl, .inLen, .outCap, .outLen, .fieldTl, .tagTl, .tagType, .tagLen, .tagFlags, .tagDlen,
    .ckResult, .mrType, .mrFlags]

/-- The 16-bit registers, in the order of the map. -/
def allReg16 : List Reg16 :=
  [.frameLen, .rangeOff, .rangeLen, .cursor, .limit, .areaPtr, .areaSize]

/-- The buffers, in the order of the map. -/
def allBuffers : List Buffer :=
  [.fieldBuf, .outBuf, .inBuf, .frame]

/-- What stands at an offset of the window. -/
inductive Place where
  /-- an 8-bit register -/
  | reg8 (r : Reg8)
  /-- the low byte of a 16-bit register (20_memory.md R106) -/
  | low (r : Reg16)
  /-- the high byte of a 16-bit register (20_memory.md R106) -/
  | high (r : Reg16)
  /-- byte `i` of a buffer -/
  | buf (b : Buffer) (i : Nat)
  /-- nothing (20_memory.md R102) -/
  | reserved
deriving DecidableEq, Repr

/-- A buffer holds the byte at window offset `a`. -/
def Buffer.covers (b : Buffer) (a : Nat) : Bool :=
  decide (Buffer.base b ≤ a) && decide (a < Buffer.base b + Buffer.capacity b)

/-- What stands at an offset (10_state.md R31); every offset the map does not assign is reserved
(20_memory.md R102). -/
def placeAt (a : Nat) : Place :=
  match allReg8.find? fun r => Reg8.offset r == a with
  | some r => .reg8 r
  | none =>
    match allReg16.find? fun r => Reg16.offset r == a with
    | some r => .low r
    | none =>
      match allReg16.find? fun r => Reg16.offset r + 1 == a with
      | some r => .high r
      | none =>
        match allBuffers.find? fun b => Buffer.covers b a with
        | some b => .buf b (a - Buffer.base b)
        | none => .reserved

/-! ## Bytes of a 16-bit register (20_memory.md R104, R106) -/

/-- The low byte of a 16-bit register. -/
def lowByte (v : Half) : Byte :=
  v.extractLsb' 0 8

/-- The high byte of a 16-bit register. -/
def highByte (v : Half) : Byte :=
  v.extractLsb' 8 8

/-- A 16-bit register made of its two bytes, little-endian. -/
def halfOf (hi lo : Byte) : Half :=
  hi ++ lo

/-! ## Reads and writes -/

/-- `MemRead(off, 1)`: no side effect; hardwired and reserved bits read 0 (20_memory.md R102, R103, R105). -/
def mmioRead (s : State) (off : Offset) : Byte :=
  match placeAt off.toNat with
  | .reg8 r => s.get8 r &&& Reg8.mask r
  | .low r => lowByte (s.get16 r)
  | .high r => highByte (s.get16 r)
  | .buf b i => (s.getBuf b).read i
  | .reserved => 0x00

/-- The byte store of `MemWrite(off, 1, b)`: a write to an RO register, an RO buffer or a reserved offset is ignored,
and so is a write to a hardwired bit (20_memory.md R102, R103; 10_state.md R35). -/
def mmioStore (s : State) (off : Offset) (b : Byte) : State :=
  match placeAt off.toNat with
  | .reg8 r => if Reg8.hostWritable r then s.set8 r (b &&& Reg8.mask r) else s
  | .low r => if Reg16.hostWritable r then s.set16 r (halfOf (highByte (s.get16 r)) b) else s
  | .high r => if Reg16.hostWritable r then s.set16 r (halfOf b (lowByte (s.get16 r))) else s
  | .buf k i => if Buffer.hostWritable k then s.setBuf k ((s.getBuf k).write i b) else s
  | .reserved => s

/-! ## The window on the platform -/

/-- The window offset a platform address reaches: `FFCV_BASE + a` reaches offset a for 0 <= a <= 0x1FFF, and no other
address reaches FFCV (20_memory.md R101). -/
def windowOffset (addr : Nat) : Option Offset :=
  if Config.ffcvBase ≤ addr ∧ addr < Config.ffcvBase + Config.windowSize then
    some (BitVec.ofNat 13 (addr - Config.ffcvBase))
  else none

end Sys2Proof.Machine
end

