-- ==== Sys2Proof/Machine/HostPort.lean ====
section
/-! DEFINITION. What each host event does: a read, a write (which starts a command when it is to CMD), the reset input
(20_memory.md R103 to R105; 43_sequencer.md R360; 70_reset_and_hazards.md R450). -/

namespace Sys2Proof.Machine

/-- The offset of CMD (10_state.md R33). -/
def cmdOffset : Offset :=
  0x000

/-- The command a byte selects, or the illegal command (43_sequencer.md R360, R363). -/
def runCommand (b : Byte) (s : State) : Result :=
  match decodeByte b with
  | .ok i => exec i s
  | .error _ => illegalCommand s

/-- `R.CMD <- b` (10_state.md R33). -/
def State.setCmd (s : State) (b : Byte) : State :=
  { s with cmd := b }

/-- A host read: the byte at the offset goes to the host, and nothing else changes (20_memory.md R103, R105). -/
def hostRead (off : Offset) (s : State) : Result :=
  .next { s with hostReads := s.hostReads ++ [mmioRead s off] }

/-- A host write: a write to CMD stores the byte and starts one command; every other write only stores
(20_memory.md R105, 43_sequencer.md R360). -/
def hostWrite (off : Offset) (b : Byte) (s : State) : Result :=
  if off = cmdOffset then runCommand b (s.setCmd b)
  else .next (mmioStore s off b)

/-- The reset input: every register and buffer to its reset value (70_reset_and_hazards.md R450). What the host has
still to do and has already read is the host's own and stays (DESIGN CHOICE, log entry 16). -/
def resetInput (s : State) : Result :=
  .next { State.reset with pending := s.pending, hostReads := s.hostReads }

/-- One host event, performed between two commands (20_memory.md R113, 43_sequencer.md R361). -/
def hostEvent (e : HostEvent) (s : State) : Result :=
  match e with
  | .read off => hostRead off s
  | .write off b => hostWrite off b s
  | .reset => resetInput s

/-- The next host event is taken off the list. -/
def State.setPending (s : State) (es : List HostEvent) : State :=
  { s with pending := es }

/-- The CMD write that starts the command whose opcode-table bits are `w`. -/
def commandWrite (nbits w : Nat) : HostEvent :=
  .write cmdOffset ((tableBytes nbits w).headD 0x00)

end Sys2Proof.Machine
end

