-- ==== Sys2Proof/Machine/HostProgram.lean ====
section
/-! DEFINITION. The accesses a line of a host program stands for (30_encoding.md R158, R159). The host's
control flow and variables stay with the host (DESIGN CHOICE, log entry 15). -/

namespace Sys2Proof.Machine

/-- `W off, b`: one write (30_encoding.md R158). -/
def writeAt (off b : Nat) : HostEvent :=
  .write (BitVec.ofNat 13 off) (BitVec.ofNat 8 b)

/-- `R off -> x`: one read (30_encoding.md R158). -/
def readAt (off : Nat) : HostEvent :=
  .read (BitVec.ofNat 13 off)

/-- `WB off, b0 b1 ... bk`: byte writes in increasing offset order (30_encoding.md R159), which is also how a platform
splits a wider write (20_memory.md R103). -/
def writeSeq (off : Nat) : List Nat → List HostEvent
  | [] => []
  | b :: bs => writeAt off b :: writeSeq (off + 1) bs

/-- Byte reads in increasing offset order: how a platform splits a wider read (20_memory.md R103). -/
def readSeq (off : Nat) : Nat → List HostEvent
  | 0 => []
  | n + 1 => readAt off :: readSeq (off + 1) n

/-- The expansion of a line (30_encoding.md R158, R159). -/
def expandLine : HostLine → List HostEvent
  | .w off b => [writeAt off b]
  | .r off => [readAt off]
  | .cmd m => [writeAt (Reg8.offset .cmd) (encodeByte m).toNat]
  | .w16 name v => writeSeq (Reg16.offset name) [v % 256, v / 256]
  | .r16 name => readSeq (Reg16.offset name) 2
  | .wb off bytes => writeSeq off bytes
  | .ws off text => writeSeq off (text.map Char.toNat)
  | .setctrl mode policy slot => [writeAt (Reg8.offset .ctrl) (mode + 8 * policy + 16 * slot)]
  | .loadin text => writeSeq (Buffer.base .inBuf) (text.map Char.toNat) ++ [writeAt (Reg8.offset .inLen) text.length]

/-- The encoding of a host program without jumps: its lines' accesses in order (30_encoding.md R158). -/
def expandProgram (lines : List HostLine) : List HostEvent :=
  lines.flatMap expandLine

end Sys2Proof.Machine
end

