-- ==== Sys2Proof/Machine/Step.lean ====
section
/-! DEFINITION. One step of FFCV: the next host access, with the whole command it starts (43_sequencer.md R361). -/

namespace Sys2Proof.Machine

/-- One step: the host's next event. With none pending FFCV holds its state (60_exceptions.md R423; DEDUCED,
log entry 3). -/
def step (s : State) : Host.Outcome State Fault Refusal :=
  match s.pending with
  | [] => .next s
  | e :: es => hostEvent e (s.setPending es)

/-- The state whose next step starts the command with opcode-table bits `w`: the host's next access is the write of
that byte to CMD (43_sequencer.md R360). DESIGN CHOICE, log entry 4. -/
def State.withFetchWord (s : State) (nbits w : Nat) : State :=
  s.setPending (commandWrite nbits w :: s.pending)

end Sys2Proof.Machine
end

