-- ==== Sys2Proof/Laws/State.lean ====
section
/-! SUPPORT. What each named update of the state does to each field: one lemma per field, true by rfl. -/

namespace Sys2Proof.Machine

variable (s : State)

/-! ## setStatus -/

@[simp] theorem State.setStatus_cmd (b : Byte) : (s.setStatus b).cmd = s.cmd := rfl
@[simp] theorem State.setStatus_status (b : Byte) : (s.setStatus b).status = b := rfl
@[simp] theorem State.setStatus_ctrl (b : Byte) : (s.setStatus b).ctrl = s.ctrl := rfl
@[simp] theorem State.setStatus_inLen (b : Byte) : (s.setStatus b).inLen = s.inLen := rfl
@[simp] theorem State.setStatus_outCap (b : Byte) : (s.setStatus b).outCap = s.outCap := rfl
@[simp] theorem State.setStatus_outLen (b : Byte) : (s.setStatus b).outLen = s.outLen := rfl
@[simp] theorem State.setStatus_fieldTl (b : Byte) : (s.setStatus b).fieldTl = s.fieldTl := rfl
@[simp] theorem State.setStatus_tagTl (b : Byte) : (s.setStatus b).tagTl = s.tagTl := rfl
@[simp] theorem State.setStatus_tagType (b : Byte) : (s.setStatus b).tagType = s.tagType := rfl
@[simp] theorem State.setStatus_tagLen (b : Byte) : (s.setStatus b).tagLen = s.tagLen := rfl
@[simp] theorem State.setStatus_tagFlags (b : Byte) : (s.setStatus b).tagFlags = s.tagFlags := rfl
@[simp] theorem State.setStatus_tagDlen (b : Byte) : (s.setStatus b).tagDlen = s.tagDlen := rfl
@[simp] theorem State.setStatus_ckResult (b : Byte) : (s.setStatus b).ckResult = s.ckResult := rfl
@[simp] theorem State.setStatus_mrType (b : Byte) : (s.setStatus b).mrType = s.mrType := rfl
@[simp] theorem State.setStatus_mrFlags (b : Byte) : (s.setStatus b).mrFlags = s.mrFlags := rfl
@[simp] theorem State.setStatus_frameLen (b : Byte) : (s.setStatus b).frameLen = s.frameLen := rfl
@[simp] theorem State.setStatus_rangeOff (b : Byte) : (s.setStatus b).rangeOff = s.rangeOff := rfl
@[simp] theorem State.setStatus_rangeLen (b : Byte) : (s.setStatus b).rangeLen = s.rangeLen := rfl
@[simp] theorem State.setStatus_cursor (b : Byte) : (s.setStatus b).cursor = s.cursor := rfl
@[simp] theorem State.setStatus_limit (b : Byte) : (s.setStatus b).limit = s.limit := rfl
@[simp] theorem State.setStatus_areaPtr (b : Byte) : (s.setStatus b).areaPtr = s.areaPtr := rfl
@[simp] theorem State.setStatus_areaSize (b : Byte) : (s.setStatus b).areaSize = s.areaSize := rfl
@[simp] theorem State.setStatus_fieldBuf (b : Byte) : (s.setStatus b).fieldBuf = s.fieldBuf := rfl
@[simp] theorem State.setStatus_outBuf (b : Byte) : (s.setStatus b).outBuf = s.outBuf := rfl
@[simp] theorem State.setStatus_inBuf (b : Byte) : (s.setStatus b).inBuf = s.inBuf := rfl
@[simp] theorem State.setStatus_frame (b : Byte) : (s.setStatus b).frame = s.frame := rfl
@[simp] theorem State.setStatus_pending (b : Byte) : (s.setStatus b).pending = s.pending := rfl
@[simp] theorem State.setStatus_hostReads (b : Byte) : (s.setStatus b).hostReads = s.hostReads := rfl

/-! ## setCmd -/

@[simp] theorem State.setCmd_cmd (b : Byte) : (s.setCmd b).cmd = b := rfl
@[simp] theorem State.setCmd_status (b : Byte) : (s.setCmd b).status = s.status := rfl
@[simp] theorem State.setCmd_ctrl (b : Byte) : (s.setCmd b).ctrl = s.ctrl := rfl
@[simp] theorem State.setCmd_inLen (b : Byte) : (s.setCmd b).inLen = s.inLen := rfl
@[simp] theorem State.setCmd_outCap (b : Byte) : (s.setCmd b).outCap = s.outCap := rfl
@[simp] theorem State.setCmd_outLen (b : Byte) : (s.setCmd b).outLen = s.outLen := rfl
@[simp] theorem State.setCmd_fieldTl (b : Byte) : (s.setCmd b).fieldTl = s.fieldTl := rfl
@[simp] theorem State.setCmd_tagTl (b : Byte) : (s.setCmd b).tagTl = s.tagTl := rfl
@[simp] theorem State.setCmd_tagType (b : Byte) : (s.setCmd b).tagType = s.tagType := rfl
@[simp] theorem State.setCmd_tagLen (b : Byte) : (s.setCmd b).tagLen = s.tagLen := rfl
@[simp] theorem State.setCmd_tagFlags (b : Byte) : (s.setCmd b).tagFlags = s.tagFlags := rfl
@[simp] theorem State.setCmd_tagDlen (b : Byte) : (s.setCmd b).tagDlen = s.tagDlen := rfl
@[simp] theorem State.setCmd_ckResult (b : Byte) : (s.setCmd b).ckResult = s.ckResult := rfl
@[simp] theorem State.setCmd_mrType (b : Byte) : (s.setCmd b).mrType = s.mrType := rfl
@[simp] theorem State.setCmd_mrFlags (b : Byte) : (s.setCmd b).mrFlags = s.mrFlags := rfl
@[simp] theorem State.setCmd_frameLen (b : Byte) : (s.setCmd b).frameLen = s.frameLen := rfl
@[simp] theorem State.setCmd_rangeOff (b : Byte) : (s.setCmd b).rangeOff = s.rangeOff := rfl
@[simp] theorem State.setCmd_rangeLen (b : Byte) : (s.setCmd b).rangeLen = s.rangeLen := rfl
@[simp] theorem State.setCmd_cursor (b : Byte) : (s.setCmd b).cursor = s.cursor := rfl
@[simp] theorem State.setCmd_limit (b : Byte) : (s.setCmd b).limit = s.limit := rfl
@[simp] theorem State.setCmd_areaPtr (b : Byte) : (s.setCmd b).areaPtr = s.areaPtr := rfl
@[simp] theorem State.setCmd_areaSize (b : Byte) : (s.setCmd b).areaSize = s.areaSize := rfl
@[simp] theorem State.setCmd_fieldBuf (b : Byte) : (s.setCmd b).fieldBuf = s.fieldBuf := rfl
@[simp] theorem State.setCmd_outBuf (b : Byte) : (s.setCmd b).outBuf = s.outBuf := rfl
@[simp] theorem State.setCmd_inBuf (b : Byte) : (s.setCmd b).inBuf = s.inBuf := rfl
@[simp] theorem State.setCmd_frame (b : Byte) : (s.setCmd b).frame = s.frame := rfl
@[simp] theorem State.setCmd_pending (b : Byte) : (s.setCmd b).pending = s.pending := rfl
@[simp] theorem State.setCmd_hostReads (b : Byte) : (s.setCmd b).hostReads = s.hostReads := rfl

/-! ## setPending -/

@[simp] theorem State.setPending_cmd (es : List HostEvent) : (s.setPending es).cmd = s.cmd := rfl
@[simp] theorem State.setPending_status (es : List HostEvent) : (s.setPending es).status = s.status := rfl
@[simp] theorem State.setPending_ctrl (es : List HostEvent) : (s.setPending es).ctrl = s.ctrl := rfl
@[simp] theorem State.setPending_inLen (es : List HostEvent) : (s.setPending es).inLen = s.inLen := rfl
@[simp] theorem State.setPending_outCap (es : List HostEvent) : (s.setPending es).outCap = s.outCap := rfl
@[simp] theorem State.setPending_outLen (es : List HostEvent) : (s.setPending es).outLen = s.outLen := rfl
@[simp] theorem State.setPending_fieldTl (es : List HostEvent) : (s.setPending es).fieldTl = s.fieldTl := rfl
@[simp] theorem State.setPending_tagTl (es : List HostEvent) : (s.setPending es).tagTl = s.tagTl := rfl
@[simp] theorem State.setPending_tagType (es : List HostEvent) : (s.setPending es).tagType = s.tagType := rfl
@[simp] theorem State.setPending_tagLen (es : List HostEvent) : (s.setPending es).tagLen = s.tagLen := rfl
@[simp] theorem State.setPending_tagFlags (es : List HostEvent) : (s.setPending es).tagFlags = s.tagFlags := rfl
@[simp] theorem State.setPending_tagDlen (es : List HostEvent) : (s.setPending es).tagDlen = s.tagDlen := rfl
@[simp] theorem State.setPending_ckResult (es : List HostEvent) : (s.setPending es).ckResult = s.ckResult := rfl
@[simp] theorem State.setPending_mrType (es : List HostEvent) : (s.setPending es).mrType = s.mrType := rfl
@[simp] theorem State.setPending_mrFlags (es : List HostEvent) : (s.setPending es).mrFlags = s.mrFlags := rfl
@[simp] theorem State.setPending_frameLen (es : List HostEvent) : (s.setPending es).frameLen = s.frameLen := rfl
@[simp] theorem State.setPending_rangeOff (es : List HostEvent) : (s.setPending es).rangeOff = s.rangeOff := rfl
@[simp] theorem State.setPending_rangeLen (es : List HostEvent) : (s.setPending es).rangeLen = s.rangeLen := rfl
@[simp] theorem State.setPending_cursor (es : List HostEvent) : (s.setPending es).cursor = s.cursor := rfl
@[simp] theorem State.setPending_limit (es : List HostEvent) : (s.setPending es).limit = s.limit := rfl
@[simp] theorem State.setPending_areaPtr (es : List HostEvent) : (s.setPending es).areaPtr = s.areaPtr := rfl
@[simp] theorem State.setPending_areaSize (es : List HostEvent) : (s.setPending es).areaSize = s.areaSize := rfl
@[simp] theorem State.setPending_fieldBuf (es : List HostEvent) : (s.setPending es).fieldBuf = s.fieldBuf := rfl
@[simp] theorem State.setPending_outBuf (es : List HostEvent) : (s.setPending es).outBuf = s.outBuf := rfl
@[simp] theorem State.setPending_inBuf (es : List HostEvent) : (s.setPending es).inBuf = s.inBuf := rfl
@[simp] theorem State.setPending_frame (es : List HostEvent) : (s.setPending es).frame = s.frame := rfl
@[simp] theorem State.setPending_pending (es : List HostEvent) : (s.setPending es).pending = es := rfl
@[simp] theorem State.setPending_hostReads (es : List HostEvent) : (s.setPending es).hostReads = s.hostReads := rfl

/-! ## setTag -/

@[simp] theorem State.setTag_cmd (t : Byte) : (s.setTag t).cmd = s.cmd := rfl
@[simp] theorem State.setTag_status (t : Byte) : (s.setTag t).status = s.status := rfl
@[simp] theorem State.setTag_ctrl (t : Byte) : (s.setTag t).ctrl = s.ctrl := rfl
@[simp] theorem State.setTag_inLen (t : Byte) : (s.setTag t).inLen = s.inLen := rfl
@[simp] theorem State.setTag_outCap (t : Byte) : (s.setTag t).outCap = s.outCap := rfl
@[simp] theorem State.setTag_outLen (t : Byte) : (s.setTag t).outLen = s.outLen := rfl
@[simp] theorem State.setTag_fieldTl (t : Byte) : (s.setTag t).fieldTl = s.fieldTl := rfl
@[simp] theorem State.setTag_tagTl (t : Byte) : (s.setTag t).tagTl = s.tagTl := rfl
@[simp] theorem State.setTag_tagType (t : Byte) : (s.setTag t).tagType = tagTypeOf t := rfl
@[simp] theorem State.setTag_tagLen (t : Byte) : (s.setTag t).tagLen = tagLenOf t := rfl
@[simp] theorem State.setTag_tagFlags (t : Byte) : (s.setTag t).tagFlags = tagFlagsOf t := rfl
@[simp] theorem State.setTag_tagDlen (t : Byte) : (s.setTag t).tagDlen = tagDlenOf t := rfl
@[simp] theorem State.setTag_ckResult (t : Byte) : (s.setTag t).ckResult = s.ckResult := rfl
@[simp] theorem State.setTag_mrType (t : Byte) : (s.setTag t).mrType = s.mrType := rfl
@[simp] theorem State.setTag_mrFlags (t : Byte) : (s.setTag t).mrFlags = s.mrFlags := rfl
@[simp] theorem State.setTag_frameLen (t : Byte) : (s.setTag t).frameLen = s.frameLen := rfl
@[simp] theorem State.setTag_rangeOff (t : Byte) : (s.setTag t).rangeOff = s.rangeOff := rfl
@[simp] theorem State.setTag_rangeLen (t : Byte) : (s.setTag t).rangeLen = s.rangeLen := rfl
@[simp] theorem State.setTag_cursor (t : Byte) : (s.setTag t).cursor = s.cursor := rfl
@[simp] theorem State.setTag_limit (t : Byte) : (s.setTag t).limit = s.limit := rfl
@[simp] theorem State.setTag_areaPtr (t : Byte) : (s.setTag t).areaPtr = s.areaPtr := rfl
@[simp] theorem State.setTag_areaSize (t : Byte) : (s.setTag t).areaSize = s.areaSize := rfl
@[simp] theorem State.setTag_fieldBuf (t : Byte) : (s.setTag t).fieldBuf = s.fieldBuf := rfl
@[simp] theorem State.setTag_outBuf (t : Byte) : (s.setTag t).outBuf = s.outBuf := rfl
@[simp] theorem State.setTag_inBuf (t : Byte) : (s.setTag t).inBuf = s.inBuf := rfl
@[simp] theorem State.setTag_frame (t : Byte) : (s.setTag t).frame = s.frame := rfl
@[simp] theorem State.setTag_pending (t : Byte) : (s.setTag t).pending = s.pending := rfl
@[simp] theorem State.setTag_hostReads (t : Byte) : (s.setTag t).hostReads = s.hostReads := rfl

/-! ## setTagTl -/

@[simp] theorem State.setTagTl_cmd (t : Byte) : (s.setTagTl t).cmd = s.cmd := rfl
@[simp] theorem State.setTagTl_status (t : Byte) : (s.setTagTl t).status = s.status := rfl
@[simp] theorem State.setTagTl_ctrl (t : Byte) : (s.setTagTl t).ctrl = s.ctrl := rfl
@[simp] theorem State.setTagTl_inLen (t : Byte) : (s.setTagTl t).inLen = s.inLen := rfl
@[simp] theorem State.setTagTl_outCap (t : Byte) : (s.setTagTl t).outCap = s.outCap := rfl
@[simp] theorem State.setTagTl_outLen (t : Byte) : (s.setTagTl t).outLen = s.outLen := rfl
@[simp] theorem State.setTagTl_fieldTl (t : Byte) : (s.setTagTl t).fieldTl = s.fieldTl := rfl
@[simp] theorem State.setTagTl_tagTl (t : Byte) : (s.setTagTl t).tagTl = t := rfl
@[simp] theorem State.setTagTl_tagType (t : Byte) : (s.setTagTl t).tagType = tagTypeOf t := rfl
@[simp] theorem State.setTagTl_tagLen (t : Byte) : (s.setTagTl t).tagLen = tagLenOf t := rfl
@[simp] theorem State.setTagTl_tagFlags (t : Byte) : (s.setTagTl t).tagFlags = tagFlagsOf t := rfl
@[simp] theorem State.setTagTl_tagDlen (t : Byte) : (s.setTagTl t).tagDlen = tagDlenOf t := rfl
@[simp] theorem State.setTagTl_ckResult (t : Byte) : (s.setTagTl t).ckResult = s.ckResult := rfl
@[simp] theorem State.setTagTl_mrType (t : Byte) : (s.setTagTl t).mrType = s.mrType := rfl
@[simp] theorem State.setTagTl_mrFlags (t : Byte) : (s.setTagTl t).mrFlags = s.mrFlags := rfl
@[simp] theorem State.setTagTl_frameLen (t : Byte) : (s.setTagTl t).frameLen = s.frameLen := rfl
@[simp] theorem State.setTagTl_rangeOff (t : Byte) : (s.setTagTl t).rangeOff = s.rangeOff := rfl
@[simp] theorem State.setTagTl_rangeLen (t : Byte) : (s.setTagTl t).rangeLen = s.rangeLen := rfl
@[simp] theorem State.setTagTl_cursor (t : Byte) : (s.setTagTl t).cursor = s.cursor := rfl
@[simp] theorem State.setTagTl_limit (t : Byte) : (s.setTagTl t).limit = s.limit := rfl
@[simp] theorem State.setTagTl_areaPtr (t : Byte) : (s.setTagTl t).areaPtr = s.areaPtr := rfl
@[simp] theorem State.setTagTl_areaSize (t : Byte) : (s.setTagTl t).areaSize = s.areaSize := rfl
@[simp] theorem State.setTagTl_fieldBuf (t : Byte) : (s.setTagTl t).fieldBuf = s.fieldBuf := rfl
@[simp] theorem State.setTagTl_outBuf (t : Byte) : (s.setTagTl t).outBuf = s.outBuf := rfl
@[simp] theorem State.setTagTl_inBuf (t : Byte) : (s.setTagTl t).inBuf = s.inBuf := rfl
@[simp] theorem State.setTagTl_frame (t : Byte) : (s.setTagTl t).frame = s.frame := rfl
@[simp] theorem State.setTagTl_pending (t : Byte) : (s.setTagTl t).pending = s.pending := rfl
@[simp] theorem State.setTagTl_hostReads (t : Byte) : (s.setTagTl t).hostReads = s.hostReads := rfl

/-! ## setField -/

@[simp] theorem State.setField_cmd (t : Byte) (p : List Byte) : (s.setField t p).cmd = s.cmd := rfl
@[simp] theorem State.setField_status (t : Byte) (p : List Byte) : (s.setField t p).status = s.status := rfl
@[simp] theorem State.setField_ctrl (t : Byte) (p : List Byte) : (s.setField t p).ctrl = s.ctrl := rfl
@[simp] theorem State.setField_inLen (t : Byte) (p : List Byte) : (s.setField t p).inLen = s.inLen := rfl
@[simp] theorem State.setField_outCap (t : Byte) (p : List Byte) : (s.setField t p).outCap = s.outCap := rfl
@[simp] theorem State.setField_outLen (t : Byte) (p : List Byte) : (s.setField t p).outLen = s.outLen := rfl
@[simp] theorem State.setField_fieldTl (t : Byte) (p : List Byte) : (s.setField t p).fieldTl = t := rfl
@[simp] theorem State.setField_tagTl (t : Byte) (p : List Byte) : (s.setField t p).tagTl = s.tagTl := rfl
@[simp] theorem State.setField_tagType (t : Byte) (p : List Byte) : (s.setField t p).tagType = s.tagType := rfl
@[simp] theorem State.setField_tagLen (t : Byte) (p : List Byte) : (s.setField t p).tagLen = s.tagLen := rfl
@[simp] theorem State.setField_tagFlags (t : Byte) (p : List Byte) : (s.setField t p).tagFlags = s.tagFlags := rfl
@[simp] theorem State.setField_tagDlen (t : Byte) (p : List Byte) : (s.setField t p).tagDlen = s.tagDlen := rfl
@[simp] theorem State.setField_ckResult (t : Byte) (p : List Byte) : (s.setField t p).ckResult = s.ckResult := rfl
@[simp] theorem State.setField_mrType (t : Byte) (p : List Byte) : (s.setField t p).mrType = s.mrType := rfl
@[simp] theorem State.setField_mrFlags (t : Byte) (p : List Byte) : (s.setField t p).mrFlags = s.mrFlags := rfl
@[simp] theorem State.setField_frameLen (t : Byte) (p : List Byte) : (s.setField t p).frameLen = s.frameLen := rfl
@[simp] theorem State.setField_rangeOff (t : Byte) (p : List Byte) : (s.setField t p).rangeOff = s.rangeOff := rfl
@[simp] theorem State.setField_rangeLen (t : Byte) (p : List Byte) : (s.setField t p).rangeLen = s.rangeLen := rfl
@[simp] theorem State.setField_cursor (t : Byte) (p : List Byte) : (s.setField t p).cursor = s.cursor := rfl
@[simp] theorem State.setField_limit (t : Byte) (p : List Byte) : (s.setField t p).limit = s.limit := rfl
@[simp] theorem State.setField_areaPtr (t : Byte) (p : List Byte) : (s.setField t p).areaPtr = s.areaPtr := rfl
@[simp] theorem State.setField_areaSize (t : Byte) (p : List Byte) : (s.setField t p).areaSize = s.areaSize := rfl
@[simp] theorem State.setField_fieldBuf (t : Byte) (p : List Byte) : (s.setField t p).fieldBuf = s.fieldBuf.fill Config.fieldCap p := rfl
@[simp] theorem State.setField_outBuf (t : Byte) (p : List Byte) : (s.setField t p).outBuf = s.outBuf := rfl
@[simp] theorem State.setField_inBuf (t : Byte) (p : List Byte) : (s.setField t p).inBuf = s.inBuf := rfl
@[simp] theorem State.setField_frame (t : Byte) (p : List Byte) : (s.setField t p).frame = s.frame := rfl
@[simp] theorem State.setField_pending (t : Byte) (p : List Byte) : (s.setField t p).pending = s.pending := rfl
@[simp] theorem State.setField_hostReads (t : Byte) (p : List Byte) : (s.setField t p).hostReads = s.hostReads := rfl

/-! ## setOut -/

@[simp] theorem State.setOut_cmd (d : List Byte) : (s.setOut d).cmd = s.cmd := rfl
@[simp] theorem State.setOut_status (d : List Byte) : (s.setOut d).status = s.status := rfl
@[simp] theorem State.setOut_ctrl (d : List Byte) : (s.setOut d).ctrl = s.ctrl := rfl
@[simp] theorem State.setOut_inLen (d : List Byte) : (s.setOut d).inLen = s.inLen := rfl
@[simp] theorem State.setOut_outCap (d : List Byte) : (s.setOut d).outCap = s.outCap := rfl
@[simp] theorem State.setOut_outLen (d : List Byte) : (s.setOut d).outLen = BitVec.ofNat 8 d.length := rfl
@[simp] theorem State.setOut_fieldTl (d : List Byte) : (s.setOut d).fieldTl = s.fieldTl := rfl
@[simp] theorem State.setOut_tagTl (d : List Byte) : (s.setOut d).tagTl = s.tagTl := rfl
@[simp] theorem State.setOut_tagType (d : List Byte) : (s.setOut d).tagType = s.tagType := rfl
@[simp] theorem State.setOut_tagLen (d : List Byte) : (s.setOut d).tagLen = s.tagLen := rfl
@[simp] theorem State.setOut_tagFlags (d : List Byte) : (s.setOut d).tagFlags = s.tagFlags := rfl
@[simp] theorem State.setOut_tagDlen (d : List Byte) : (s.setOut d).tagDlen = s.tagDlen := rfl
@[simp] theorem State.setOut_ckResult (d : List Byte) : (s.setOut d).ckResult = s.ckResult := rfl
@[simp] theorem State.setOut_mrType (d : List Byte) : (s.setOut d).mrType = s.mrType := rfl
@[simp] theorem State.setOut_mrFlags (d : List Byte) : (s.setOut d).mrFlags = s.mrFlags := rfl
@[simp] theorem State.setOut_frameLen (d : List Byte) : (s.setOut d).frameLen = s.frameLen := rfl
@[simp] theorem State.setOut_rangeOff (d : List Byte) : (s.setOut d).rangeOff = s.rangeOff := rfl
@[simp] theorem State.setOut_rangeLen (d : List Byte) : (s.setOut d).rangeLen = s.rangeLen := rfl
@[simp] theorem State.setOut_cursor (d : List Byte) : (s.setOut d).cursor = s.cursor := rfl
@[simp] theorem State.setOut_limit (d : List Byte) : (s.setOut d).limit = s.limit := rfl
@[simp] theorem State.setOut_areaPtr (d : List Byte) : (s.setOut d).areaPtr = s.areaPtr := rfl
@[simp] theorem State.setOut_areaSize (d : List Byte) : (s.setOut d).areaSize = s.areaSize := rfl
@[simp] theorem State.setOut_fieldBuf (d : List Byte) : (s.setOut d).fieldBuf = s.fieldBuf := rfl
@[simp] theorem State.setOut_outBuf (d : List Byte) : (s.setOut d).outBuf = s.outBuf.fill Config.outCapMax d := rfl
@[simp] theorem State.setOut_inBuf (d : List Byte) : (s.setOut d).inBuf = s.inBuf := rfl
@[simp] theorem State.setOut_frame (d : List Byte) : (s.setOut d).frame = s.frame := rfl
@[simp] theorem State.setOut_pending (d : List Byte) : (s.setOut d).pending = s.pending := rfl
@[simp] theorem State.setOut_hostReads (d : List Byte) : (s.setOut d).hostReads = s.hostReads := rfl

/-! ## setCk -/

@[simp] theorem State.setCk_cmd (v : Nat) : (s.setCk v).cmd = s.cmd := rfl
@[simp] theorem State.setCk_status (v : Nat) : (s.setCk v).status = s.status := rfl
@[simp] theorem State.setCk_ctrl (v : Nat) : (s.setCk v).ctrl = s.ctrl := rfl
@[simp] theorem State.setCk_inLen (v : Nat) : (s.setCk v).inLen = s.inLen := rfl
@[simp] theorem State.setCk_outCap (v : Nat) : (s.setCk v).outCap = s.outCap := rfl
@[simp] theorem State.setCk_outLen (v : Nat) : (s.setCk v).outLen = s.outLen := rfl
@[simp] theorem State.setCk_fieldTl (v : Nat) : (s.setCk v).fieldTl = s.fieldTl := rfl
@[simp] theorem State.setCk_tagTl (v : Nat) : (s.setCk v).tagTl = s.tagTl := rfl
@[simp] theorem State.setCk_tagType (v : Nat) : (s.setCk v).tagType = s.tagType := rfl
@[simp] theorem State.setCk_tagLen (v : Nat) : (s.setCk v).tagLen = s.tagLen := rfl
@[simp] theorem State.setCk_tagFlags (v : Nat) : (s.setCk v).tagFlags = s.tagFlags := rfl
@[simp] theorem State.setCk_tagDlen (v : Nat) : (s.setCk v).tagDlen = s.tagDlen := rfl
@[simp] theorem State.setCk_ckResult (v : Nat) : (s.setCk v).ckResult = BitVec.ofNat 8 v := rfl
@[simp] theorem State.setCk_mrType (v : Nat) : (s.setCk v).mrType = s.mrType := rfl
@[simp] theorem State.setCk_mrFlags (v : Nat) : (s.setCk v).mrFlags = s.mrFlags := rfl
@[simp] theorem State.setCk_frameLen (v : Nat) : (s.setCk v).frameLen = s.frameLen := rfl
@[simp] theorem State.setCk_rangeOff (v : Nat) : (s.setCk v).rangeOff = s.rangeOff := rfl
@[simp] theorem State.setCk_rangeLen (v : Nat) : (s.setCk v).rangeLen = s.rangeLen := rfl
@[simp] theorem State.setCk_cursor (v : Nat) : (s.setCk v).cursor = s.cursor := rfl
@[simp] theorem State.setCk_limit (v : Nat) : (s.setCk v).limit = s.limit := rfl
@[simp] theorem State.setCk_areaPtr (v : Nat) : (s.setCk v).areaPtr = s.areaPtr := rfl
@[simp] theorem State.setCk_areaSize (v : Nat) : (s.setCk v).areaSize = s.areaSize := rfl
@[simp] theorem State.setCk_fieldBuf (v : Nat) : (s.setCk v).fieldBuf = s.fieldBuf := rfl
@[simp] theorem State.setCk_outBuf (v : Nat) : (s.setCk v).outBuf = s.outBuf := rfl
@[simp] theorem State.setCk_inBuf (v : Nat) : (s.setCk v).inBuf = s.inBuf := rfl
@[simp] theorem State.setCk_frame (v : Nat) : (s.setCk v).frame = s.frame := rfl
@[simp] theorem State.setCk_pending (v : Nat) : (s.setCk v).pending = s.pending := rfl
@[simp] theorem State.setCk_hostReads (v : Nat) : (s.setCk v).hostReads = s.hostReads := rfl

/-! ## setArea -/

@[simp] theorem State.setArea_cmd (b n : Nat) : (s.setArea b n).cmd = s.cmd := rfl
@[simp] theorem State.setArea_status (b n : Nat) : (s.setArea b n).status = s.status := rfl
@[simp] theorem State.setArea_ctrl (b n : Nat) : (s.setArea b n).ctrl = s.ctrl := rfl
@[simp] theorem State.setArea_inLen (b n : Nat) : (s.setArea b n).inLen = s.inLen := rfl
@[simp] theorem State.setArea_outCap (b n : Nat) : (s.setArea b n).outCap = s.outCap := rfl
@[simp] theorem State.setArea_outLen (b n : Nat) : (s.setArea b n).outLen = s.outLen := rfl
@[simp] theorem State.setArea_fieldTl (b n : Nat) : (s.setArea b n).fieldTl = s.fieldTl := rfl
@[simp] theorem State.setArea_tagTl (b n : Nat) : (s.setArea b n).tagTl = s.tagTl := rfl
@[simp] theorem State.setArea_tagType (b n : Nat) : (s.setArea b n).tagType = s.tagType := rfl
@[simp] theorem State.setArea_tagLen (b n : Nat) : (s.setArea b n).tagLen = s.tagLen := rfl
@[simp] theorem State.setArea_tagFlags (b n : Nat) : (s.setArea b n).tagFlags = s.tagFlags := rfl
@[simp] theorem State.setArea_tagDlen (b n : Nat) : (s.setArea b n).tagDlen = s.tagDlen := rfl
@[simp] theorem State.setArea_ckResult (b n : Nat) : (s.setArea b n).ckResult = s.ckResult := rfl
@[simp] theorem State.setArea_mrType (b n : Nat) : (s.setArea b n).mrType = s.mrType := rfl
@[simp] theorem State.setArea_mrFlags (b n : Nat) : (s.setArea b n).mrFlags = s.mrFlags := rfl
@[simp] theorem State.setArea_frameLen (b n : Nat) : (s.setArea b n).frameLen = s.frameLen := rfl
@[simp] theorem State.setArea_rangeOff (b n : Nat) : (s.setArea b n).rangeOff = s.rangeOff := rfl
@[simp] theorem State.setArea_rangeLen (b n : Nat) : (s.setArea b n).rangeLen = s.rangeLen := rfl
@[simp] theorem State.setArea_cursor (b n : Nat) : (s.setArea b n).cursor = s.cursor := rfl
@[simp] theorem State.setArea_limit (b n : Nat) : (s.setArea b n).limit = s.limit := rfl
@[simp] theorem State.setArea_areaPtr (b n : Nat) : (s.setArea b n).areaPtr = BitVec.ofNat 16 b := rfl
@[simp] theorem State.setArea_areaSize (b n : Nat) : (s.setArea b n).areaSize = BitVec.ofNat 16 n := rfl
@[simp] theorem State.setArea_fieldBuf (b n : Nat) : (s.setArea b n).fieldBuf = s.fieldBuf := rfl
@[simp] theorem State.setArea_outBuf (b n : Nat) : (s.setArea b n).outBuf = s.outBuf := rfl
@[simp] theorem State.setArea_inBuf (b n : Nat) : (s.setArea b n).inBuf = s.inBuf := rfl
@[simp] theorem State.setArea_frame (b n : Nat) : (s.setArea b n).frame = s.frame := rfl
@[simp] theorem State.setArea_pending (b n : Nat) : (s.setArea b n).pending = s.pending := rfl
@[simp] theorem State.setArea_hostReads (b n : Nat) : (s.setArea b n).hostReads = s.hostReads := rfl

/-! ## setMr -/

@[simp] theorem State.setMr_cmd (b : Nat) : (s.setMr b).cmd = s.cmd := rfl
@[simp] theorem State.setMr_status (b : Nat) : (s.setMr b).status = s.status := rfl
@[simp] theorem State.setMr_ctrl (b : Nat) : (s.setMr b).ctrl = s.ctrl := rfl
@[simp] theorem State.setMr_inLen (b : Nat) : (s.setMr b).inLen = s.inLen := rfl
@[simp] theorem State.setMr_outCap (b : Nat) : (s.setMr b).outCap = s.outCap := rfl
@[simp] theorem State.setMr_outLen (b : Nat) : (s.setMr b).outLen = s.outLen := rfl
@[simp] theorem State.setMr_fieldTl (b : Nat) : (s.setMr b).fieldTl = s.fieldTl := rfl
@[simp] theorem State.setMr_tagTl (b : Nat) : (s.setMr b).tagTl = s.tagTl := rfl
@[simp] theorem State.setMr_tagType (b : Nat) : (s.setMr b).tagType = s.tagType := rfl
@[simp] theorem State.setMr_tagLen (b : Nat) : (s.setMr b).tagLen = s.tagLen := rfl
@[simp] theorem State.setMr_tagFlags (b : Nat) : (s.setMr b).tagFlags = s.tagFlags := rfl
@[simp] theorem State.setMr_tagDlen (b : Nat) : (s.setMr b).tagDlen = s.tagDlen := rfl
@[simp] theorem State.setMr_ckResult (b : Nat) : (s.setMr b).ckResult = s.ckResult := rfl
@[simp] theorem State.setMr_mrType (b : Nat) : (s.setMr b).mrType = s.frameByte b := rfl
@[simp] theorem State.setMr_mrFlags (b : Nat) : (s.setMr b).mrFlags = s.frameByte (b + 1) := rfl
@[simp] theorem State.setMr_frameLen (b : Nat) : (s.setMr b).frameLen = s.frameLen := rfl
@[simp] theorem State.setMr_rangeOff (b : Nat) : (s.setMr b).rangeOff = s.rangeOff := rfl
@[simp] theorem State.setMr_rangeLen (b : Nat) : (s.setMr b).rangeLen = s.rangeLen := rfl
@[simp] theorem State.setMr_cursor (b : Nat) : (s.setMr b).cursor = s.cursor := rfl
@[simp] theorem State.setMr_limit (b : Nat) : (s.setMr b).limit = s.limit := rfl
@[simp] theorem State.setMr_areaPtr (b : Nat) : (s.setMr b).areaPtr = s.areaPtr := rfl
@[simp] theorem State.setMr_areaSize (b : Nat) : (s.setMr b).areaSize = s.areaSize := rfl
@[simp] theorem State.setMr_fieldBuf (b : Nat) : (s.setMr b).fieldBuf = s.fieldBuf := rfl
@[simp] theorem State.setMr_outBuf (b : Nat) : (s.setMr b).outBuf = s.outBuf := rfl
@[simp] theorem State.setMr_inBuf (b : Nat) : (s.setMr b).inBuf = s.inBuf := rfl
@[simp] theorem State.setMr_frame (b : Nat) : (s.setMr b).frame = s.frame := rfl
@[simp] theorem State.setMr_pending (b : Nat) : (s.setMr b).pending = s.pending := rfl
@[simp] theorem State.setMr_hostReads (b : Nat) : (s.setMr b).hostReads = s.hostReads := rfl

/-! ## setCursor -/

@[simp] theorem State.setCursor_cmd (c : Nat) : (s.setCursor c).cmd = s.cmd := rfl
@[simp] theorem State.setCursor_status (c : Nat) : (s.setCursor c).status = s.status := rfl
@[simp] theorem State.setCursor_ctrl (c : Nat) : (s.setCursor c).ctrl = s.ctrl := rfl
@[simp] theorem State.setCursor_inLen (c : Nat) : (s.setCursor c).inLen = s.inLen := rfl
@[simp] theorem State.setCursor_outCap (c : Nat) : (s.setCursor c).outCap = s.outCap := rfl
@[simp] theorem State.setCursor_outLen (c : Nat) : (s.setCursor c).outLen = s.outLen := rfl
@[simp] theorem State.setCursor_fieldTl (c : Nat) : (s.setCursor c).fieldTl = s.fieldTl := rfl
@[simp] theorem State.setCursor_tagTl (c : Nat) : (s.setCursor c).tagTl = s.tagTl := rfl
@[simp] theorem State.setCursor_tagType (c : Nat) : (s.setCursor c).tagType = s.tagType := rfl
@[simp] theorem State.setCursor_tagLen (c : Nat) : (s.setCursor c).tagLen = s.tagLen := rfl
@[simp] theorem State.setCursor_tagFlags (c : Nat) : (s.setCursor c).tagFlags = s.tagFlags := rfl
@[simp] theorem State.setCursor_tagDlen (c : Nat) : (s.setCursor c).tagDlen = s.tagDlen := rfl
@[simp] theorem State.setCursor_ckResult (c : Nat) : (s.setCursor c).ckResult = s.ckResult := rfl
@[simp] theorem State.setCursor_mrType (c : Nat) : (s.setCursor c).mrType = s.mrType := rfl
@[simp] theorem State.setCursor_mrFlags (c : Nat) : (s.setCursor c).mrFlags = s.mrFlags := rfl
@[simp] theorem State.setCursor_frameLen (c : Nat) : (s.setCursor c).frameLen = s.frameLen := rfl
@[simp] theorem State.setCursor_rangeOff (c : Nat) : (s.setCursor c).rangeOff = s.rangeOff := rfl
@[simp] theorem State.setCursor_rangeLen (c : Nat) : (s.setCursor c).rangeLen = s.rangeLen := rfl
@[simp] theorem State.setCursor_cursor (c : Nat) : (s.setCursor c).cursor = BitVec.ofNat 16 c := rfl
@[simp] theorem State.setCursor_limit (c : Nat) : (s.setCursor c).limit = s.limit := rfl
@[simp] theorem State.setCursor_areaPtr (c : Nat) : (s.setCursor c).areaPtr = s.areaPtr := rfl
@[simp] theorem State.setCursor_areaSize (c : Nat) : (s.setCursor c).areaSize = s.areaSize := rfl
@[simp] theorem State.setCursor_fieldBuf (c : Nat) : (s.setCursor c).fieldBuf = s.fieldBuf := rfl
@[simp] theorem State.setCursor_outBuf (c : Nat) : (s.setCursor c).outBuf = s.outBuf := rfl
@[simp] theorem State.setCursor_inBuf (c : Nat) : (s.setCursor c).inBuf = s.inBuf := rfl
@[simp] theorem State.setCursor_frame (c : Nat) : (s.setCursor c).frame = s.frame := rfl
@[simp] theorem State.setCursor_pending (c : Nat) : (s.setCursor c).pending = s.pending := rfl
@[simp] theorem State.setCursor_hostReads (c : Nat) : (s.setCursor c).hostReads = s.hostReads := rfl

end Sys2Proof.Machine
end

