-- ==== Sys2Proof/Safety.lean ====
section
/-! DEFINITION. What counts as a safe state and a safe run of FFCV, and the words the statements use: the invariant of
every step, the status codes and the writes the spec allows each command, runs of commands and of host events, and
field streams laid out in FRAME. -/

namespace Sys2Proof.Machine

/-! ## Runs -/

/-- The next state of an outcome, if it is one. -/
def nextOf (r : Result) : Option State :=
  match r with
  | .next s => some s
  | .fault _ => none
  | .refused _ => none

/-- Host events performed one after another. -/
def eventsAll : List HostEvent → State → Option State
  | [], s => some s
  | e :: es, s => (nextOf (hostEvent e s)).bind (eventsAll es)

/-! ## Status codes (60_exceptions.md R400, column "raised by", and R410) -/

/-- The codes a command may end with. -/
def statusesOf : Instr → List StatusCode
  | .nop => [.ok]
  | .classify => [.ok, .errBadMode, .errBadChar, .errLengthExceeded]
  | .encode => [.ok, .errBadMode, .errBadChar, .errLengthExceeded]
  | .decode => [.ok, .errCapacity]
  | .tagparse => [.ok]
  | .tlstep => [.ok, .eof, .errBadFrameLen, .errBounds]
  | .ckgen => [.ok, .errBadFrameLen, .errBounds]
  | .ckchk => [.ok, .errBadFrameLen, .errBounds, .errChecksum]
  | .bounds => [.ok, .errBadFrameLen, .errBounds]
  | .hdrchk => [.ok, .errBadFrameLen, .errBounds, .errVersion, .errReserved, .errPad, .errChecksum]
  | .arealookup =>
    [.ok, .absent, .errBadFrameLen, .errBadSlot, .errBounds, .errVersion, .errReserved, .errPad, .errChecksum, .errSize]
  | .mrchk => [.ok, .errBadFrameLen, .errBounds, .errVersion, .errChecksum]

/-- The codes the command selected by a byte may end with; an illegal byte ends with ERR_BAD_CMD only. -/
def statusesOfByte (b : Byte) : List StatusCode :=
  match decodeByte b with
  | .ok i => statusesOf i
  | .error _ => [.errBadCmd]

/-! ## Writes (10_state.md R31, column "written by commands") -/

/-- The 8-bit registers a command may write. -/
def writes8 : Instr → List Reg8
  | .nop => [.status]
  | .classify => [.status, .tagTl, .tagType, .tagLen, .tagFlags, .tagDlen]
  | .encode => [.status, .tagTl, .tagType, .tagLen, .tagFlags, .tagDlen, .fieldTl]
  | .decode => [.status, .outLen]
  | .tagparse => [.status, .tagType, .tagLen, .tagFlags, .tagDlen]
  | .tlstep => [.status, .tagTl, .tagType, .tagLen, .tagFlags, .tagDlen, .fieldTl]
  | .ckgen => [.status, .ckResult]
  | .ckchk => [.status, .ckResult]
  | .bounds => [.status]
  | .hdrchk => [.status]
  | .arealookup => [.status, .mrType, .mrFlags]
  | .mrchk => [.status, .mrType, .mrFlags]

/-- The 16-bit registers a command may write. -/
def writes16 : Instr → List Reg16
  | .nop => []
  | .classify => []
  | .encode => []
  | .decode => []
  | .tagparse => []
  | .tlstep => [.cursor]
  | .ckgen => []
  | .ckchk => []
  | .bounds => []
  | .hdrchk => []
  | .arealookup => [.areaPtr, .areaSize]
  | .mrchk => [.areaPtr, .areaSize, .cursor]

/-- The buffers a command may write. -/
def writesBuf : Instr → List Buffer
  | .nop => []
  | .classify => []
  | .encode => [.fieldBuf]
  | .decode => [.outBuf]
  | .tagparse => []
  | .tlstep => [.fieldBuf]
  | .ckgen => []
  | .ckchk => []
  | .bounds => []
  | .hdrchk => []
  | .arealookup => []
  | .mrchk => []

/-! ## The bit string of a payload (40_field_codec.md R211) -/

/-- Bit m of a payload's little-endian bit string; past its end, false. -/
def payloadBit (p : List Byte) (m : Nat) : Bool :=
  (p.getD (m / 8) 0x00).getLsbD (m % 8)

/-! ## The window (10_state.md R31, 20_memory.md R102) -/

/-- The offsets other than CMD's where a host write is stored: CTRL, IN_LEN, OUT_CAP, FIELD_TL, TAG_TL, FRAME_LEN to
LIMIT, FIELD_BUF, IN_BUF and FRAME. -/
def storedOffset (a : Nat) : Bool :=
  a == 0x002 || a == 0x003 || a == 0x004 || a == 0x006 || a == 0x007 ||
    (decide (0x010 ≤ a) && decide (a ≤ 0x019)) || (decide (0x040 ≤ a) && decide (a ≤ 0x07F)) ||
    (decide (0x100 ≤ a) && decide (a ≤ 0x1FF)) || (decide (0x1000 ≤ a) && decide (a ≤ 0x1FFF))

/-- The offsets the map does not assign (20_memory.md R102). -/
def reservedOffset (a : Nat) : Bool :=
  a == 0x00F || (decide (0x01E ≤ a) && decide (a ≤ 0x03F)) || (decide (0x200 ≤ a) && decide (a ≤ 0xFFF))

/-! ## The invariant of every step -/

/-- What holds at reset and after every step. -/
structure State.Inv (s : State) : Prop where
  /-- FIELD_BUF is in canonical form and inside its 64 bytes. -/
  fieldBuf : s.fieldBuf.wf = true ∧ s.fieldBuf.within 64 = true
  /-- OUT_BUF is in canonical form and inside its 128 bytes. -/
  outBuf : s.outBuf.wf = true ∧ s.outBuf.within 128 = true
  /-- IN_BUF is in canonical form and inside its 256 bytes. -/
  inBuf : s.inBuf.wf = true ∧ s.inBuf.within 256 = true
  /-- FRAME is in canonical form and inside its 4096 bytes. -/
  frame : s.frame.wf = true ∧ s.frame.within 4096 = true
  /-- CTRL[7] is 0 (10_state.md R35). -/
  ctrl : s.ctrl.getLsbD 7 = false
  /-- TAG_TYPE[7:2] and TAG_LEN[7:6] are 0 (10_state.md R44, R45). -/
  tag : s.tagType.toNat < 4 ∧ s.tagLen.toNat < 64
  /-- TAG_FLAGS is 1 exactly for the sentinel's type and length, else 0 (10_state.md R46). -/
  tagFlags : s.tagFlags = if s.tagType = 3 ∧ s.tagLen = 1 then 1 else 0
  /-- TAG_DLEN is the decoded length of a field with the tag's type and length (10_state.md R47). -/
  tagDlen : s.tagDlen.toNat = dlen (FieldType.ofCode (s.tagType.setWidth 2)) s.tagLen.toNat
  /-- STATUS is a code that the command in CMD can end with (60_exceptions.md R400). -/
  status : s.status ∈ (statusesOfByte s.cmd).map StatusCode.toByte
  /-- OUT_LEN is at most 126 and OUT_BUF is zero from it on (10_state.md R41, R42). -/
  out : s.outLen.toNat ≤ 126 ∧ ∀ k, s.outLen.toNat ≤ k → s.outBuf.read k = 0x00
  /-- The area or record last validated lies inside FRAME (42_validator.md R315). -/
  area : s.areaPtr.toNat + s.areaSize.toNat ≤ 4096
  /-- MR_FLAGS is that of no record yet, or of a record of version 2 (42_validator.md R311). -/
  mrFlags : s.mrFlags = 0 ∨ s.mrFlags.extractLsb' 0 3 = (2 : BitVec 3)

/-! ## Sums, headers and records, in the spec's arithmetic -/

/-- `FRAME[a] + FRAME[a+1] + ... + FRAME[a+n-1]` (00_scope.md R15). -/
def frameSum (s : State) (a n : Nat) : Nat :=
  ((List.range n).map fun k => (s.frame.read (a + k)).toNat).sum

/-- A container header that passes every check, in a frame of legal length (20_memory.md R108, 42_validator.md R302,
R308). -/
def headerValid (s : State) : Prop :=
  s.frameLen.toNat ≤ 4096 ∧ 8 ≤ s.frameLen.toNat ∧ (s.frame.read 0).toNat % 16 = 1 ∧
    (s.frame.read 0).toNat / 16 = 0 ∧ s.frame.read 6 = 0x00 ∧ frameSum s 0 8 % 256 = 0

/-- An info area of size byte z at byte offset b that passes every check under the bound fl (20_memory.md R109,
42_validator.md R309). -/
def infoAreaValid (s : State) (b fl : Nat) : Prop :=
  b + 2 ≤ fl ∧ (s.frame.read b).toNat % 16 = 1 ∧ (s.frame.read (b + 1)).toNat ≠ 0 ∧
    b + 8 * (s.frame.read (b + 1)).toNat ≤ fl ∧ frameSum s b (8 * (s.frame.read (b + 1)).toNat) % 256 = 0

/-- A multirecord record at byte offset c that passes every check under the bound lim (20_memory.md R111,
42_validator.md R311). -/
def recordValid (s : State) (c lim : Nat) : Prop :=
  c + 5 ≤ lim ∧ (s.frame.read (c + 1)).toNat % 8 = 2 ∧ frameSum s c 5 % 256 = 0 ∧
    c + 5 + (s.frame.read (c + 2)).toNat ≤ lim ∧
    ((s.frame.read (c + 3)).toNat + frameSum s (c + 5) (s.frame.read (c + 2)).toNat) % 256 = 0

/-- The status of a multirecord check: the first condition that fails (42_validator.md R311, 60_exceptions.md R410). -/
def recordStatus (s : State) (c lim : Nat) : Byte :=
  if c + 5 > lim then 0x34
  else if (s.frame.read (c + 1)).toNat % 8 ≠ 2 then 0x30
  else if frameSum s c 5 % 256 ≠ 0 then 0x33
  else if c + 5 + (s.frame.read (c + 2)).toNat > lim then 0x34
  else if ((s.frame.read (c + 3)).toNat + frameSum s (c + 5) (s.frame.read (c + 2)).toNat) % 256 ≠ 0 then 0x33
  else 0x00

/-! ## Operands (30_encoding.md R156) -/

/-- Two states hold the same value to classify or encode, under the same mode and policy. -/
def sameValue (s s' : State) : Prop :=
  s.ctrl.toNat % 16 = s'.ctrl.toNat % 16 ∧ s.inLen = s'.inLen ∧ ∀ k < s.inLen.toNat, s.inBuf.read k = s'.inBuf.read k

/-- Two states hold the same bytes of FRAME from offset a up to, not including, offset b. -/
def sameFrame (s s' : State) (a b : Nat) : Prop :=
  ∀ k, a ≤ k → k < b → s.frame.read k = s'.frame.read k

/-- The offset past the operand FRAME[c .. c+n] of TLSTEP, n the length in the typelen byte at c. -/
def fieldEnd (s : State) (c : Nat) : Nat :=
  c + 1 + (s.frame.read c).toNat % 64

/-- The offset past the record at c: its 5-byte header and the payload its length byte declares (42_validator.md
R311). -/
def recordEnd (s : State) (c : Nat) : Nat :=
  c + 5 + (s.frame.read (c + 2)).toNat

/-- The offset past the area of a slot at b: the version byte of an internal-use area; an info area of its declared
size, of which the version and size bytes are read whatever it is; the first record (42_validator.md R309, R311). -/
def areaEnd (s : State) (slot b : Nat) : Nat :=
  match slot with
  | 0 => b + 1
  | 1 => b + max 2 (8 * (s.frame.read (b + 1)).toNat)
  | 2 => b + max 2 (8 * (s.frame.read (b + 1)).toNat)
  | 3 => b + max 2 (8 * (s.frame.read (b + 1)).toNat)
  | _ => recordEnd s b

/-- Two states agree on every operand a command reads, column "reads" of R156; an absent area has no bytes. -/
def sameOperands (i : Instr) (s s' : State) : Prop :=
  match i with
  | .nop => True
  | .classify => sameValue s s'
  | .encode => sameValue s s'
  | .decode => s.fieldTl = s'.fieldTl ∧ s.outCap = s'.outCap ∧
      ∀ k < s.fieldTl.toNat % 64, s.fieldBuf.read k = s'.fieldBuf.read k
  | .tagparse => s.tagTl = s'.tagTl
  | .tlstep => s.frameLen = s'.frameLen ∧ s.limit = s'.limit ∧ s.cursor = s'.cursor ∧
      sameFrame s s' s.cursor.toNat (fieldEnd s s.cursor.toNat)
  | .ckgen => s.frameLen = s'.frameLen ∧ s.rangeOff = s'.rangeOff ∧ s.rangeLen = s'.rangeLen ∧
      sameFrame s s' s.rangeOff.toNat (s.rangeOff.toNat + s.rangeLen.toNat)
  | .ckchk => s.frameLen = s'.frameLen ∧ s.rangeOff = s'.rangeOff ∧ s.rangeLen = s'.rangeLen ∧
      sameFrame s s' s.rangeOff.toNat (s.rangeOff.toNat + s.rangeLen.toNat)
  | .bounds => s.frameLen = s'.frameLen ∧ s.rangeOff = s'.rangeOff ∧ s.rangeLen = s'.rangeLen
  | .hdrchk => s.frameLen = s'.frameLen ∧ sameFrame s s' 0 8
  | .arealookup => s.frameLen = s'.frameLen ∧ s.ctrl.toNat / 16 % 8 = s'.ctrl.toNat / 16 % 8 ∧
      sameFrame s s' 0 8 ∧
      (s.slot ≤ 4 → s.frame.read (1 + s.slot) ≠ 0x00 →
        sameFrame s s' (8 * (s.frame.read (1 + s.slot)).toNat)
          (areaEnd s s.slot (8 * (s.frame.read (1 + s.slot)).toNat)))
  | .mrchk => s.frameLen = s'.frameLen ∧ s.limit = s'.limit ∧ s.cursor = s'.cursor ∧
      sameFrame s s' s.cursor.toNat (recordEnd s s.cursor.toNat)

/-- After a command on two states, every register and buffer byte either ends the same in both or was touched in
neither. -/
def sameOutcome (s s' t t' : State) : Prop :=
  t.status = t'.status ∧
    (∀ r, t.get8 r = t'.get8 r ∨ (t.get8 r = s.get8 r ∧ t'.get8 r = s'.get8 r)) ∧
    (∀ r, t.get16 r = t'.get16 r ∨ (t.get16 r = s.get16 r ∧ t'.get16 r = s'.get16 r)) ∧
    ∀ b k, (t.getBuf b).read k = (t'.getBuf b).read k ∨
      ((t.getBuf b).read k = (s.getBuf b).read k ∧ (t'.getBuf b).read k = (s'.getBuf b).read k)

/-! ## Field streams in FRAME (20_memory.md R110, 30_encoding.md R160) -/

/-- One field of a stream: its typelen byte and its payload. -/
structure StreamField where
  tl : Byte
  payload : List Byte
deriving DecidableEq, Repr

/-- A field whose payload is as long as its typelen byte says, and which is not the sentinel. -/
def StreamField.wf (f : StreamField) : Bool :=
  !isEof f.tl && f.payload.length == f.tl.toNat % 64

/-- The bytes of fields laid one after another (30_encoding.md R160). -/
def streamBytes : List StreamField → List Byte
  | [] => []
  | f :: fs => f.tl :: f.payload ++ streamBytes fs

/-- The field FIELD_TL and FIELD_BUF hold. -/
def State.currentField (s : State) : StreamField :=
  ⟨s.fieldTl, s.fieldPayload⟩

/-- The fields a host visits by repeating TLSTEP at most `n` times until a status other than OK, and the status that
ends the walk (41_tag_parser.md R264); no status when `n` steps do not end it. -/
def streamWalk : Nat → State → List StreamField × Option Byte
  | 0, _ => ([], none)
  | n + 1, s =>
    match nextOf (exec .tlstep s) with
    | none => ([], none)
    | some t =>
      if t.status = StatusCode.toByte .ok then
        (t.currentField :: (streamWalk n t).1, (streamWalk n t).2)
      else ([], some t.status)

end Sys2Proof.Machine
end

