-- ==== Sys2Proof/Certificates/Slice0/Obligations.lean ====
section
/-! DEFINITION. The statements about FFCV. Each says which rule of spec/ it formalises; the hypotheses are on the state
and the operands alone, and an equation for the next state says with it that everything else is unchanged. -/

open Sys2Proof Sys2Proof.Machine

/-! ## Encodings -/

/-- 30_encoding.md R151: the twelve command bytes, the reserved opcodes, the reserved bits. -/
def Obligations.OpcodeMapDecodes : Prop :=
  decodeByte 0x00 = .ok .nop ∧ decodeByte 0x01 = .ok .classify ∧ decodeByte 0x02 = .ok .encode ∧
  decodeByte 0x03 = .ok .decode ∧ decodeByte 0x04 = .ok .tagparse ∧ decodeByte 0x05 = .ok .tlstep ∧
  decodeByte 0x06 = .ok .ckgen ∧ decodeByte 0x07 = .ok .ckchk ∧ decodeByte 0x08 = .ok .bounds ∧
  decodeByte 0x09 = .ok .hdrchk ∧ decodeByte 0x0A = .ok .arealookup ∧ decodeByte 0x0B = .ok .mrchk ∧
  ∀ b : Byte, (0x0C ≤ b.toNat → b.toNat ≤ 0x0F → decodeByte b = .error .reservedOpcode) ∧
    (0x10 ≤ b.toNat → decodeByte b = .error .reservedBits)

/-- 30_encoding.md R150, R151: decoding an encoded command gives it back and leaves the bytes after it. -/
def Obligations.DecodeEncodeGivesBack : Prop :=
  ∀ (i : Instr) (rest : List Byte), i.wf = true → decode (encode i ++ rest) = .ok (i, rest)

/-- 30_encoding.md R153, R154, 00_scope.md R16: the four type codes; every byte is a well-formed tag, and tags and
bytes are the same thing. -/
def Obligations.TypelenRoundTrips : Prop :=
  (FieldType.binary.code = 0 ∧ FieldType.bcdplus.code = 1 ∧ FieldType.sixbit.code = 2 ∧ FieldType.text.code = 3) ∧
    (∀ t : Byte, (decodeTypelen t).wf = true ∧ (decodeTypelen t).len = t.toNat % 64 ∧
      (decodeTypelen t).type.code = t.toNat / 64 ∧ encodeTypelen (decodeTypelen t) = t) ∧
    ∀ g : Typelen, g.wf = true → decodeTypelen (encodeTypelen g) = g ∧ (encodeTypelen g).toNat = 64 * g.type.code + g.len

/-! ## The host port -/

/-- 43_sequencer.md R360: a host write to CMD stores the byte and runs the command it selects. -/
def Obligations.StepRunsDecodedCommand : Prop :=
  ∀ (s : State) (b : Byte) (es : List HostEvent) (i : Instr), s.pending = .write 0x000 b :: es → decodeByte b = .ok i →
    step s = exec i { s with pending := es, cmd := b }

/-- 43_sequencer.md R363: an illegal command byte writes ERR_BAD_CMD to STATUS, and CMD holds it. -/
def Obligations.IllegalByteSetsBadCmd : Prop :=
  ∀ (s : State) (v : Byte) (es : List HostEvent), s.pending = .write 0x000 v :: es →
    v.toNat / 16 ≠ 0 ∨ (v.toNat / 16 = 0 ∧ 0xC ≤ v.toNat % 16) →
    step s = .next { s with pending := es, cmd := v, status := 0x11 }

/-- 20_memory.md R103, R105, 60_exceptions.md R423: a host read returns the byte at its offset and changes nothing, and
with no access FFCV holds its state. -/
def Obligations.ReadsAndIdlingChangeNothing : Prop :=
  (∀ (s : State) (off : Offset) (es : List HostEvent), s.pending = .read off :: es →
      step s = .next { s with pending := es, hostReads := s.hostReads ++ [mmioRead s off] }) ∧
    ∀ s : State, s.pending = [] → step s = .next s

/-- 10_state.md R31, R35, R44 to R46, 20_memory.md R105, R113: what a host read gives at the offset of each 8-bit
register and of each buffer byte; and a host write other than to CMD is read back at its offset, CTRL[7] apart, and
changes no other byte of the window. That a read masks the hardwired bits in every state is log entry 11. -/
def Obligations.HostWriteIsReadBack : Prop :=
  (∀ s : State,
    mmioRead s 0x000 = s.cmd ∧ mmioRead s 0x001 = s.status ∧ mmioRead s 0x002 = s.ctrl &&& 0x7F ∧
    mmioRead s 0x003 = s.inLen ∧ mmioRead s 0x004 = s.outCap ∧ mmioRead s 0x005 = s.outLen ∧
    mmioRead s 0x006 = s.fieldTl ∧ mmioRead s 0x007 = s.tagTl ∧ mmioRead s 0x008 = s.tagType &&& 0x03 ∧
    mmioRead s 0x009 = s.tagLen &&& 0x3F ∧ mmioRead s 0x00A = s.tagFlags &&& 0x01 ∧ mmioRead s 0x00B = s.tagDlen ∧
    mmioRead s 0x00C = s.ckResult ∧ mmioRead s 0x00D = s.mrType ∧ mmioRead s 0x00E = s.mrFlags ∧
    (∀ k, k < 64 → mmioRead s (BitVec.ofNat 13 (0x040 + k)) = s.fieldBuf.read k) ∧
    (∀ k, k < 128 → mmioRead s (BitVec.ofNat 13 (0x080 + k)) = s.outBuf.read k) ∧
    (∀ k, k < 256 → mmioRead s (BitVec.ofNat 13 (0x100 + k)) = s.inBuf.read k) ∧
    ∀ k, k < 4096 → mmioRead s (BitVec.ofNat 13 (0x1000 + k)) = s.frame.read k) ∧
  ∀ (s : State) (off : Offset) (b : Byte) (es : List HostEvent), s.pending = .write off b :: es → off ≠ 0x000 →
    ∃ t, step s = .next t ∧ t.pending = es ∧ t.hostReads = s.hostReads ∧
      ∀ a : Offset, mmioRead t a =
        if a = off ∧ storedOffset off.toNat = true then (if off = 0x002 then b &&& 0x7F else b) else mmioRead s a

/-- 20_memory.md R102: reserved offsets read 0, and a write to one, to an RO register or to an RO buffer byte changes
nothing. -/
def Obligations.ReservedAndReadOnlyIgnoreWrites : Prop :=
  (∀ (s : State) (off : Offset), reservedOffset off.toNat = true → mmioRead s off = 0x00) ∧
    ∀ (s : State) (off : Offset) (b : Byte) (es : List HostEvent), s.pending = .write off b :: es → off ≠ 0x000 →
      storedOffset off.toNat = false → step s = .next { s with pending := es }

/-- 20_memory.md R106: the seven 16-bit registers are little-endian in the window. -/
def Obligations.SixteenBitRegistersAreLittleEndian : Prop :=
  ∀ s : State,
    s.frameLen.toNat = (mmioRead s 0x010).toNat + 256 * (mmioRead s 0x011).toNat ∧
    s.rangeOff.toNat = (mmioRead s 0x012).toNat + 256 * (mmioRead s 0x013).toNat ∧
    s.rangeLen.toNat = (mmioRead s 0x014).toNat + 256 * (mmioRead s 0x015).toNat ∧
    s.cursor.toNat = (mmioRead s 0x016).toNat + 256 * (mmioRead s 0x017).toNat ∧
    s.limit.toNat = (mmioRead s 0x018).toNat + 256 * (mmioRead s 0x019).toNat ∧
    s.areaPtr.toNat = (mmioRead s 0x01A).toNat + 256 * (mmioRead s 0x01B).toNat ∧
    s.areaSize.toNat = (mmioRead s 0x01C).toNat + 256 * (mmioRead s 0x01D).toNat

/-- 20_memory.md R113, 43_sequencer.md R361: the host's accesses take effect one at a time in their order. That they
stand in the list `pending`, and that a step is the first of them, is the model's choice (log entry 1). -/
def Obligations.PendingAccessesRunInOrder : Prop :=
  ∀ (es rest : List HostEvent) (s : State), ∃ t,
    eventsAll es s = some t ∧ t.pending = s.pending ∧
      Sys2Proof.core.run es.length { s with pending := es ++ rest } = .next { t with pending := rest }

/-- 70_reset_and_hazards.md R450: the reset input sets every register and every buffer byte to 0, so that every offset
of the window reads 0x00; what the host has still to do and has read stays (the model's choice, log entry 16). -/
def Obligations.ResetClearsEverything : Prop :=
  ∀ (s : State) (es : List HostEvent), s.pending = .reset :: es →
    ∃ t, step s = .next t ∧ t.pending = es ∧ t.hostReads = s.hostReads ∧
      (∀ r, t.get8 r = 0x00) ∧ (∀ r, t.get16 r = 0x0000) ∧ (∀ b k, (t.getBuf b).read k = 0x00) ∧
      ∀ off : Offset, mmioRead t off = 0x00

/-- 70_reset_and_hazards.md R452: what each command does with the reset values. -/
def Obligations.CommandsFromResetValues : Prop :=
  exec .classify State.reset = .next { State.reset with tagTl := 0x40, tagType := 1, status := 0x00 } ∧
  exec .encode State.reset = .next { State.reset with tagTl := 0x40, tagType := 1, fieldTl := 0x40, status := 0x00 } ∧
  exec .decode State.reset = .next { State.reset with outLen := 0x00, status := 0x00 } ∧
  exec .hdrchk State.reset = .next { State.reset with status := 0x34 } ∧
  exec .arealookup State.reset = .next { State.reset with status := 0x34 } ∧
  exec .tlstep State.reset = .next { State.reset with status := 0x34 } ∧
  exec .mrchk State.reset = .next { State.reset with status := 0x34 } ∧
  ∀ (i : Instr) (a n : Half), i = .ckgen ∨ i = .ckchk ∨ i = .bounds →
    exec i { State.reset with rangeOff := a, rangeLen := n } =
      .next { State.reset with rangeOff := a, rangeLen := n, status := if a = 0 ∧ n = 0 then 0x00 else 0x34 }

/-! ## Whole-machine rules -/

/-- The invariant holds right after reset (70_reset_and_hazards.md R450). -/
def Obligations.InvariantAtReset : Prop :=
  State.Inv State.reset

/-- Every step keeps the invariant: buffers in canonical form and in their bounds, hardwired bits 0, the tag registers
one typelen byte's, STATUS a code of the command in CMD, OUT_BUF zero past OUT_LEN, the area inside FRAME. -/
def Obligations.EveryStepKeepsInvariant : Prop :=
  ∀ s t : State, s.Inv → step s = .next t → t.Inv

/-- 43_sequencer.md R365: every command ends, on every operand value, with a status code, and no step stops. -/
def Obligations.EveryCommandEnds : Prop :=
  (∀ (i : Instr) (s : State), ∃ t, exec i s = .next t ∧ ∃ c : StatusCode, t.status = c.toByte) ∧
    ∀ s : State, ∃ t, step s = .next t

/-- 60_exceptions.md R411: the state after a failing command is the state before it with STATUS replaced. -/
def Obligations.FailuresArePrecise : Prop :=
  ∀ (i : Instr) (s t : State), exec i s = .next t → t.status.toNat / 16 ≠ 0 → t = { s with status := t.status }

/-- 60_exceptions.md R400, column "raised by": the codes each command can end with. -/
def Obligations.StatusCodesPerCommand : Prop :=
  ∀ (i : Instr) (s t : State), exec i s = .next t → t.status ∈ (statusesOf i).map StatusCode.toByte

/-- 10_state.md R31, column "written by commands": a command changes no register and no buffer but those it is listed
to write, and neither what the host has still to do nor what it has read. -/
def Obligations.CommandsWriteOnlyTheirRegisters : Prop :=
  ∀ (i : Instr) (s t : State), exec i s = .next t →
    (∀ r, r ∉ writes8 i → t.get8 r = s.get8 r) ∧ (∀ r, r ∉ writes16 i → t.get16 r = s.get16 r) ∧
      (∀ b, b ∉ writesBuf i → t.getBuf b = s.getBuf b) ∧ t.pending = s.pending ∧ t.hostReads = s.hostReads

/-- 42_validator.md R316: no command writes FRAME: a step changes it only by a host write to FRAME or by reset. -/
def Obligations.NoCommandWritesFrame : Prop :=
  (∀ (i : Instr) (s t : State), exec i s = .next t → ∀ a, t.frame.read a = s.frame.read a) ∧
    ∀ (s t : State), step s = .next t → (∀ a, t.frame.read a = s.frame.read a) ∨
      ∃ es, s.pending = .reset :: es ∨
        ∃ (off : Offset) (b : Byte), s.pending = .write off b :: es ∧ 0x1000 ≤ off.toNat

/-- 43_sequencer.md R361: a command's outcome depends on nothing but its operands, those 30_encoding.md R156 lists for
it. -/
def Obligations.OutcomeDependsOnOperandsOnly : Prop :=
  ∀ (i : Instr) (s s' : State), sameOperands i s s' →
    ∃ t t', exec i s = .next t ∧ exec i s' = .next t' ∧ sameOutcome s s' t t'

/-- 42_validator.md R300, 41_tag_parser.md R261, 10_state.md R51: no command reads FRAME at or past FRAME_LEN, and
TLSTEP and MRCHK none at or past LIMIT. -/
def Obligations.FrameIsReadBelowTheBoundOnly : Prop :=
  ∀ (i : Instr) (s : State) (m : Memory),
    (∀ a, a < s.frameLen.toNat → (i = .tlstep ∨ i = .mrchk → a < s.limit.toNat) → m.read a = s.frame.read a) →
    ∃ t, exec i s = .next t ∧ exec i { s with frame := m } = .next { t with frame := m }

/-! ## The field codec -/

/-- 43_sequencer.md R364: NOP sets STATUS to OK and disturbs nothing else; from reset it leaves the reset state. -/
def Obligations.NopOnlySetsStatus : Prop :=
  (∀ s : State, exec .nop s = .next { s with status := 0x00 }) ∧
    step { State.reset with pending := [.write 0x000 0x00] } = .next State.reset

/-- 40_field_codec.md R200: the character classes. -/
def Obligations.CharacterClasses : Prop :=
  ∀ b : Byte,
    (cls b = .bcdplus ↔ (0x30 ≤ b.toNat ∧ b.toNat ≤ 0x39) ∨ b = 0x20 ∨ b = 0x2D ∨ b = 0x2E) ∧
    (cls b = .sixbit ↔ cls b ≠ .bcdplus ∧ 0x20 ≤ b.toNat ∧ b.toNat ≤ 0x5F) ∧
    (cls b = .binary ↔ (b.toNat ≤ 0x1F ∧ b ≠ 0x09 ∧ b ≠ 0x0A ∧ b ≠ 0x0D) ∨ b = 0x7F) ∧
    (cls b = .text ↔ b = 0x09 ∨ b = 0x0A ∨ b = 0x0D ∨ (0x60 ≤ b.toNat ∧ b.toNat ≤ 0x7E) ∨ 0x80 ≤ b.toNat)

/-- 40_field_codec.md R201: the result of auto classification is the widest class of any byte in the order of
00_scope.md R16, whatever the bytes' order; the empty string is BCD+. -/
def Obligations.AutoTypeIsTheWidestClass : Prop :=
  (rank .bcdplus = 0 ∧ rank .sixbit = 1 ∧ rank .text = 2 ∧ rank .binary = 3) ∧
    (∀ a b : FieldType, (widest a b = a ∨ widest a b = b) ∧ rank (widest a b) = max (rank a) (rank b)) ∧
    autoType [] = .bcdplus ∧
    (∀ d : List Byte, d ≠ [] → (∀ b ∈ d, rank (cls b) ≤ rank (autoType d)) ∧ ∃ b ∈ d, cls b = autoType d) ∧
    ∀ d d' : List Byte, d.Perm d' → autoType d = autoType d'

/-- 40_field_codec.md R202, R208, 10_state.md R35: the mode is CTRL[2:0] and the policy CTRL[3]; the effective type
under each mode and policy. -/
def Obligations.EffectiveTypePerMode : Prop :=
  (∀ s : State, s.encMode = s.ctrl.toNat % 8 ∧ (s.policy = true ↔ s.ctrl.toNat / 8 % 2 = 1)) ∧
  ∀ (mode : Nat) (pol : Bool) (d : List Byte),
    (5 ≤ mode → effType mode pol d = .error .errBadMode) ∧
    (mode = 0 → pol = false → effType mode pol d = .ok (autoType d)) ∧
    (mode = 0 → pol = true → effType mode pol d = .ok .text) ∧
    (mode = 1 → effType mode pol d = .ok .binary) ∧
    (mode = 2 → (∀ b ∈ d, cls b = .bcdplus) → effType mode pol d = .ok .bcdplus) ∧
    (mode = 2 → (∃ b ∈ d, cls b ≠ .bcdplus) → effType mode pol d = .error .errBadChar) ∧
    (mode = 3 → (∀ b ∈ d, 0x20 ≤ b.toNat ∧ b.toNat ≤ 0x5F) → effType mode pol d = .ok .sixbit) ∧
    (mode = 3 → (∃ b ∈ d, ¬(0x20 ≤ b.toNat ∧ b.toNat ≤ 0x5F)) → effType mode pol d = .error .errBadChar) ∧
    (mode = 4 → effType mode pol d = .ok .text)

/-- 40_field_codec.md R215, R214, 30_encoding.md R153, 10_state.md R36: the value is IN_BUF[0 .. IN_LEN-1]; CLASSIFY
of a value whose payload fits writes the tag registers and STATUS, and nothing else. -/
def Obligations.ClassifyWritesTheTag : Prop :=
  (∀ s : State, s.value.length = s.inLen.toNat ∧ ∀ k, k < s.inLen.toNat → s.value.getD k 0x00 = s.inBuf.read k) ∧
  ∀ (s : State) (ty : FieldType), effType s.encMode s.policy s.value = .ok ty → plen ty s.inLen.toNat ≤ 63 →
    exec .classify s = .next { s with
      tagTl := BitVec.ofNat 8 (64 * ty.code + plen ty s.inLen.toNat)
      tagType := BitVec.ofNat 8 ty.code
      tagLen := BitVec.ofNat 8 (plen ty s.inLen.toNat)
      tagFlags := if ty = .text ∧ plen ty s.inLen.toNat = 1 then 1 else 0
      tagDlen := BitVec.ofNat 8 (dlen ty (plen ty s.inLen.toNat))
      status := 0x00 }

/-- 40_field_codec.md R216, 10_state.md R39: ENCODE of a value whose payload fits writes the tag registers, FIELD_TL,
the payload and zeros in FIELD_BUF, and STATUS, and nothing else. -/
def Obligations.EncodeWritesTheField : Prop :=
  ∀ (s : State) (ty : FieldType), effType s.encMode s.policy s.value = .ok ty → plen ty s.inLen.toNat ≤ 63 →
    ∃ t, exec .encode s = .next t ∧
      t = { s with
        tagTl := BitVec.ofNat 8 (64 * ty.code + plen ty s.inLen.toNat)
        tagType := BitVec.ofNat 8 ty.code
        tagLen := BitVec.ofNat 8 (plen ty s.inLen.toNat)
        tagFlags := if ty = .text ∧ plen ty s.inLen.toNat = 1 then 1 else 0
        tagDlen := BitVec.ofNat 8 (dlen ty (plen ty s.inLen.toNat))
        fieldTl := BitVec.ofNat 8 (64 * ty.code + plen ty s.inLen.toNat)
        fieldBuf := t.fieldBuf
        status := 0x00 } ∧
      t.fieldBuf.readBytes 0 (plen ty s.inLen.toNat) = pack ty s.value ∧
      (∀ k, plen ty s.inLen.toNat ≤ k → k < 64 → t.fieldBuf.read k = 0x00) ∧
      ∀ k, 64 ≤ k → t.fieldBuf.read k = s.fieldBuf.read k

/-- 40_field_codec.md R202, R203, R208, 60_exceptions.md R410: where CLASSIFY and ENCODE fail, in the order mode,
characters, length; nothing but STATUS changes. -/
def Obligations.ClassifyAndEncodeFailures : Prop :=
  ∀ (i : Instr) (s : State), i = .classify ∨ i = .encode →
    (5 ≤ s.encMode → exec i s = .next { s with status := 0x12 }) ∧
    (s.encMode = 2 → (∃ b ∈ s.value, cls b ≠ .bcdplus) → exec i s = .next { s with status := 0x13 }) ∧
    (s.encMode = 3 → (∃ b ∈ s.value, ¬(0x20 ≤ b.toNat ∧ b.toNat ≤ 0x5F)) →
      exec i s = .next { s with status := 0x13 }) ∧
    ∀ ty, effType s.encMode s.policy s.value = .ok ty → 63 < plen ty s.inLen.toNat →
      exec i s = .next { s with status := 0x10 }

/-- 40_field_codec.md R221: the largest accepted values are 63 bytes for Binary and Text, 84 characters for 6-bit and
126 for BCD+; a longer one gives ERR_LENGTH_EXCEEDED, not a truncation. -/
def Obligations.LengthBoundary : Prop :=
  ∀ (i : Instr) (s : State) (ty : FieldType), i = .classify ∨ i = .encode →
    effType s.encMode s.policy s.value = .ok ty →
    ∃ t, exec i s = .next t ∧
      (t.status = 0x00 ↔ plen ty s.inLen.toNat ≤ 63) ∧ (t.status = 0x10 ↔ 64 ≤ plen ty s.inLen.toNat) ∧
      (t.status = 0x00 ↔
        s.inLen.toNat ≤ (match ty with | .binary => 63 | .text => 63 | .sixbit => 84 | .bcdplus => 126))

/-- 40_field_codec.md R203, R204: the lengths, their largest values, and the one extra character of a 6-bit field. -/
def Obligations.DecodedLengths : Prop :=
  (∀ l, plen .binary l = l ∧ plen .text l = l ∧ plen .bcdplus l = (l + 1) / 2 ∧ plen .sixbit l = (3 * l + 3) / 4) ∧
    (∀ n, dlen .binary n = n ∧ dlen .text n = n ∧ dlen .bcdplus n = 2 * n ∧ dlen .sixbit n = 4 * n / 3) ∧
    (∀ ty n, n ≤ 63 → dlen ty n ≤ 126) ∧
    dlen .bcdplus 63 = 126 ∧ dlen .sixbit 63 = 84 ∧ dlen .binary 63 = 63 ∧ dlen .text 63 = 63 ∧
    ∀ l, dlen .sixbit (plen .sixbit l) = if l % 4 = 3 then l + 1 else l

/-- 40_field_codec.md R205, R206, R209, R210: nib of the 13 characters and unnib of all sixteen nibbles, 0xD to 0xF
giving this hardware's BCD_PLACEHOLDER 0x3F (00_scope.md R9; log entry 7 says why it is no parameter of the model); two
BCD+ characters to a byte, the first in the high nibble, a space in the spare nibble; the unpacker takes the nibbles in
the same order. -/
def Obligations.BcdPackingRule : Prop :=
  (∀ b : Byte, 0x30 ≤ b.toNat → b.toNat ≤ 0x39 → nib b = b.toNat - 0x30) ∧
    nib 0x20 = 0xA ∧ nib 0x2D = 0xB ∧ nib 0x2E = 0xC ∧
    (∀ v, v ≤ 9 → (unnibWith Config.bcdPlaceholder v).toNat = 0x30 + v) ∧
    unnibWith Config.bcdPlaceholder 0xA = 0x20 ∧ unnibWith Config.bcdPlaceholder 0xB = 0x2D ∧
    unnibWith Config.bcdPlaceholder 0xC = 0x2E ∧ unnibWith Config.bcdPlaceholder 0xD = 0x3F ∧
    unnibWith Config.bcdPlaceholder 0xE = 0x3F ∧ unnibWith Config.bcdPlaceholder 0xF = 0x3F ∧
    (∀ d : List Byte, (∀ b ∈ d, cls b = .bcdplus) →
      (pack .bcdplus d).length = (d.length + 1) / 2 ∧
      ∀ i, i < (d.length + 1) / 2 → ((pack .bcdplus d).getD i 0x00).toNat =
        16 * nib (d.getD (2 * i) 0x00) + if 2 * i + 1 < d.length then nib (d.getD (2 * i + 1) 0x00) else 0xA) ∧
    ∀ p : List Byte, (bcdUnpack p).length = 2 * p.length ∧ ∀ i, i < p.length →
      (bcdUnpack p).getD (2 * i) 0x00 = unnibWith Config.bcdPlaceholder ((p.getD i 0x00).toNat / 16) ∧
      (bcdUnpack p).getD (2 * i + 1) 0x00 = unnibWith Config.bcdPlaceholder ((p.getD i 0x00).toNat % 16)

/-- 40_field_codec.md R211, R212: code i of a 6-bit string is bits 6i+5 to 6i of its payload's little-endian bit
string, whose unused high bits are 0; the unpacker takes the codes from the same bits. -/
def Obligations.SixbitPackingRule : Prop :=
  (∀ d : List Byte, (∀ b ∈ d, 0x20 ≤ b.toNat ∧ b.toNat ≤ 0x5F) →
      (pack .sixbit d).length = (3 * d.length + 3) / 4 ∧
      ∀ m, payloadBit (pack .sixbit d) m =
        (decide (m < 6 * d.length) && ((d.getD (m / 6) 0x00).toNat - 0x20).testBit (m % 6))) ∧
    ∀ p : List Byte, (sixUnpack p).length = 4 * p.length / 3 ∧ ∀ i, i < 4 * p.length / 3 →
      0x20 ≤ ((sixUnpack p).getD i 0x00).toNat ∧ ((sixUnpack p).getD i 0x00).toNat ≤ 0x5F ∧
      ∀ j, j < 6 → (((sixUnpack p).getD i 0x00).toNat - 0x20).testBit j = payloadBit p (6 * i + j)

/-- 40_field_codec.md R217, 10_state.md R38, R39, R41, R42: the field is the tag in FIELD_TL and the bytes
FIELD_BUF[0 .. n-1], n its length; DECODE of a field whose decoded length, before stripping, fits OUT_CAP
writes OUT_LEN, the string and zeros in OUT_BUF, and STATUS, and nothing else; otherwise it fails with ERR_CAPACITY. -/
def Obligations.DecodeWritesTheString : Prop :=
  ∀ s : State,
    (s.fieldTag = decodeTypelen s.fieldTl ∧ s.fieldPayload.length = s.fieldTl.toNat % 64 ∧
      ∀ k, k < s.fieldTl.toNat % 64 → s.fieldPayload.getD k 0x00 = s.fieldBuf.read k) ∧
    (s.outCap.toNat < dlen s.fieldTag.type s.fieldTag.len → exec .decode s = .next { s with status := 0x40 }) ∧
    (dlen s.fieldTag.type s.fieldTag.len ≤ s.outCap.toNat →
      ∃ t, exec .decode s = .next t ∧ t = { s with outBuf := t.outBuf, outLen := t.outLen, status := 0x00 } ∧
        t.outLen.toNat = (unpack s.fieldTag.type s.fieldPayload).length ∧
        t.outBuf.readBytes 0 t.outLen.toNat = unpack s.fieldTag.type s.fieldPayload ∧
        (∀ k, t.outLen.toNat ≤ k → k < 128 → t.outBuf.read k = 0x00) ∧
        ∀ k, 128 ≤ k → t.outBuf.read k = s.outBuf.read k)

/-- 40_field_codec.md R207: strip removes the trailing spaces, all of them and nothing else; the BCD+ and 6-bit
decoders apply it and the Binary and Text decoders do not. -/
def Obligations.StripRemovesTrailingSpaces : Prop :=
  (∀ d : List Byte, (∃ k, d = strip d ++ List.replicate k 0x20) ∧ (strip d).getLast? ≠ some 0x20) ∧
    ∀ p : List Byte, unpack .bcdplus p = strip (bcdUnpack p) ∧ unpack .sixbit p = strip (sixUnpack p) ∧
      unpack .binary p = p ∧ unpack .text p = p

/-- 40_field_codec.md R218: BCD+ round trip. -/
def Obligations.BcdRoundTrip : Prop :=
  ∀ s : State, (s.encMode = 0 ∧ s.policy = false) ∨ s.encMode = 2 → s.inLen.toNat ≤ 126 →
    (∀ b ∈ s.value, (0x30 ≤ b.toNat ∧ b.toNat ≤ 0x39) ∨ b = 0x20 ∨ b = 0x2D ∨ b = 0x2E) →
    2 * ((s.inLen.toNat + 1) / 2) ≤ s.outCap.toNat →
    ∃ t u, exec .encode s = .next t ∧ exec .decode t = .next u ∧ t.status = 0x00 ∧ u.status = 0x00 ∧
      u.outBuf.readBytes 0 u.outLen.toNat = strip s.value ∧
      (s.value.getLast? ≠ some 0x20 → u.outBuf.readBytes 0 u.outLen.toNat = s.value)

/-- 40_field_codec.md R219: 6-bit round trip. -/
def Obligations.SixbitRoundTrip : Prop :=
  ∀ s : State, s.inLen.toNat ≤ 84 → (∀ b ∈ s.value, 0x20 ≤ b.toNat ∧ b.toNat ≤ 0x5F) →
    s.encMode = 3 ∨ (s.encMode = 0 ∧ s.policy = false ∧ ∃ b ∈ s.value, cls b ≠ .bcdplus) →
    dlen .sixbit (plen .sixbit s.inLen.toNat) ≤ s.outCap.toNat →
    ∃ t u, exec .encode s = .next t ∧ exec .decode t = .next u ∧ t.status = 0x00 ∧ u.status = 0x00 ∧
      u.outBuf.readBytes 0 u.outLen.toNat = strip s.value

/-- 40_field_codec.md R220, R202: Binary and Text round trip, byte for byte; under AUTO the policy forces Text. -/
def Obligations.VerbatimRoundTrip : Prop :=
  ∀ s : State, s.inLen.toNat ≤ 63 →
    (s.encMode = 0 ∧ (s.policy = true ∨ ∃ b ∈ s.value, cls b = .binary)) ∨ s.encMode = 1 ∨ s.encMode = 4 →
    s.inLen.toNat ≤ s.outCap.toNat →
    ∃ t u, exec .encode s = .next t ∧ exec .decode t = .next u ∧ t.status = 0x00 ∧ u.status = 0x00 ∧
      u.outLen.toNat = s.inLen.toNat ∧ u.outBuf.readBytes 0 u.outLen.toNat = s.value

/-- 70_reset_and_hazards.md R462: a one-byte Text value encodes to the EOF sentinel, and CLASSIFY and ENCODE say so in
TAG_FLAGS. -/
def Obligations.OneByteTextCollidesWithSentinel : Prop :=
  ∀ (i : Instr) (s : State), i = .classify ∨ i = .encode → s.inLen = 1 →
    s.encMode = 4 ∨ (s.encMode = 0 ∧ s.policy = true) ∨ (s.encMode = 0 ∧ s.policy = false ∧
      (s.inBuf.read 0 = 0x09 ∨ s.inBuf.read 0 = 0x0A ∨ s.inBuf.read 0 = 0x0D ∨
        (0x60 ≤ (s.inBuf.read 0).toNat ∧ (s.inBuf.read 0).toNat ≤ 0x7E) ∨ 0x80 ≤ (s.inBuf.read 0).toNat)) →
    ∃ t, exec i s = .next t ∧ t.status = 0x00 ∧ t.tagTl = 0xC1 ∧ t.tagFlags = 0x01 ∧
      (i = .encode → t.fieldTl = 0xC1 ∧ t.fieldBuf.read 0 = s.inBuf.read 0)

/-! ## The tag parser -/

/-- 41_tag_parser.md R262, R260: TAGPARSE of any byte writes the four tag registers and STATUS, not TAG_TL. -/
def Obligations.TagparseSplitsTheByte : Prop :=
  ∀ s : State, exec .tagparse s = .next { s with
    tagType := BitVec.ofNat 8 (s.tagTl.toNat / 64)
    tagLen := BitVec.ofNat 8 (s.tagTl.toNat % 64)
    tagFlags := if s.tagTl = 0xC1 then 1 else 0
    tagDlen := BitVec.ofNat 8 (dlen (decodeTypelen s.tagTl).type (s.tagTl.toNat % 64))
    status := 0x00 }

/-- 41_tag_parser.md R263: TLSTEP at a field takes it off the stream: the tag registers, FIELD_TL, FIELD_BUF, CURSOR
and STATUS are written, and nothing else. -/
def Obligations.TlstepTakesAField : Prop :=
  ∀ s : State, s.frameLen.toNat ≤ 4096 → s.limit.toNat ≤ s.frameLen.toNat →
    s.frame.read s.cursor.toNat ≠ 0xC1 →
    s.cursor.toNat + 1 + (s.frame.read s.cursor.toNat).toNat % 64 ≤ s.limit.toNat →
    ∃ t, exec .tlstep s = .next t ∧
      t = { s with
        tagTl := s.frame.read s.cursor.toNat
        tagType := BitVec.ofNat 8 ((s.frame.read s.cursor.toNat).toNat / 64)
        tagLen := BitVec.ofNat 8 ((s.frame.read s.cursor.toNat).toNat % 64)
        tagFlags := 0
        tagDlen := BitVec.ofNat 8 (dlen (decodeTypelen (s.frame.read s.cursor.toNat)).type
          ((s.frame.read s.cursor.toNat).toNat % 64))
        fieldTl := s.frame.read s.cursor.toNat
        fieldBuf := t.fieldBuf
        cursor := t.cursor
        status := 0x00 } ∧
      t.cursor.toNat = s.cursor.toNat + 1 + (s.frame.read s.cursor.toNat).toNat % 64 ∧
      (∀ k, k < (s.frame.read s.cursor.toNat).toNat % 64 →
        t.fieldBuf.read k = s.frame.read (s.cursor.toNat + 1 + k)) ∧
      (∀ k, (s.frame.read s.cursor.toNat).toNat % 64 ≤ k → k < 64 → t.fieldBuf.read k = 0x00) ∧
      ∀ k, 64 ≤ k → t.fieldBuf.read k = s.fieldBuf.read k

/-- 41_tag_parser.md R263: TLSTEP at the sentinel reports EOF, whatever follows it, and leaves CURSOR, FIELD_TL and
FIELD_BUF. -/
def Obligations.TlstepReportsEof : Prop :=
  ∀ s : State, s.frameLen.toNat ≤ 4096 → s.limit.toNat ≤ s.frameLen.toNat → s.cursor.toNat + 1 ≤ s.limit.toNat →
    s.frame.read s.cursor.toNat = 0xC1 →
    exec .tlstep s = .next { s with
      tagTl := 0xC1, tagType := 3, tagLen := 1, tagFlags := 1, tagDlen := 1, status := 0x02 }

/-- 41_tag_parser.md R263, R261, 60_exceptions.md R410: where TLSTEP fails; nothing but STATUS changes. -/
def Obligations.TlstepFailures : Prop :=
  ∀ s : State,
    (4096 < s.frameLen.toNat → exec .tlstep s = .next { s with status := 0x15 }) ∧
    (s.frameLen.toNat ≤ 4096 → s.frameLen.toNat < s.limit.toNat → exec .tlstep s = .next { s with status := 0x34 }) ∧
    (s.frameLen.toNat ≤ 4096 → s.limit.toNat ≤ s.frameLen.toNat → s.limit.toNat < s.cursor.toNat + 1 →
      exec .tlstep s = .next { s with status := 0x34 }) ∧
    (s.frameLen.toNat ≤ 4096 → s.limit.toNat ≤ s.frameLen.toNat → s.cursor.toNat + 1 ≤ s.limit.toNat →
      s.frame.read s.cursor.toNat ≠ 0xC1 →
      s.limit.toNat < s.cursor.toNat + 1 + (s.frame.read s.cursor.toNat).toNat % 64 →
      exec .tlstep s = .next { s with status := 0x34 })

/-- 41_tag_parser.md R265: a TLSTEP with OK moves CURSOR up by at least 1 and never past LIMIT; any other status ends
the walk, which takes at most LIMIT - CURSOR + 1 commands. -/
def Obligations.StreamWalkTerminates : Prop :=
  (∀ s t : State, exec .tlstep s = .next t → t.status = 0x00 →
      s.cursor.toNat + 1 ≤ t.cursor.toNat ∧ t.cursor.toNat ≤ s.limit.toNat ∧ t.limit = s.limit) ∧
    ∀ (s : State) (n : Nat), s.limit.toNat - s.cursor.toNat + 1 ≤ n →
      ∃ code, (streamWalk n s).2 = some code ∧ code ≠ 0x00 ∧ (code = 0x02 ∨ code = 0x34 ∨ code = 0x15)

/-- 41_tag_parser.md R264: a walk over a stream visits its fields in order, each once, and ends with EOF at the
sentinel. -/
def Obligations.StreamWalkVisitsEveryField : Prop :=
  ∀ (fs : List StreamField) (s : State) (n : Nat), s.frameLen.toNat ≤ 4096 → s.limit.toNat ≤ s.frameLen.toNat →
    (∀ f ∈ fs, f.wf = true) → s.cursor.toNat + (streamBytes fs).length + 1 ≤ s.limit.toNat →
    s.frame.readBytes s.cursor.toNat ((streamBytes fs).length + 1) = streamBytes fs ++ [0xC1] → fs.length < n →
    streamWalk n s = (fs, some 0x02)

/-- 41_tag_parser.md R264: a walk over fields that fit LIMIT, followed by no sentinel, or by a field that overruns
LIMIT, visits those fields and ends with ERR_BOUNDS. -/
def Obligations.StreamWalkWithoutSentinelEndsInBounds : Prop :=
  ∀ (fs : List StreamField) (s : State) (n e : Nat), s.frameLen.toNat ≤ 4096 → s.limit.toNat ≤ s.frameLen.toNat →
    (∀ f ∈ fs, f.wf = true) → e = s.cursor.toNat + (streamBytes fs).length → e ≤ s.limit.toNat →
    s.frame.readBytes s.cursor.toNat (streamBytes fs).length = streamBytes fs →
    e = s.limit.toNat ∨ (s.frame.read e ≠ 0xC1 ∧ s.limit.toNat < e + 1 + (s.frame.read e).toNat % 64) →
    fs.length < n → streamWalk n s = (fs, some 0x34)

/-! ## The validator -/

/-- 42_validator.md R305, R302, R303: CKGEN. -/
def Obligations.CkgenRule : Prop :=
  ∀ s : State,
    (4096 < s.frameLen.toNat → exec .ckgen s = .next { s with status := 0x15 }) ∧
    (s.frameLen.toNat ≤ 4096 → s.frameLen.toNat < s.rangeOff.toNat + s.rangeLen.toNat →
      exec .ckgen s = .next { s with status := 0x34 }) ∧
    (s.frameLen.toNat ≤ 4096 → s.rangeOff.toNat + s.rangeLen.toNat ≤ s.frameLen.toNat →
      exec .ckgen s = .next { s with
        ckResult := BitVec.ofNat 8 ((256 - frameSum s s.rangeOff.toNat s.rangeLen.toNat % 256) % 256)
        status := 0x00 })

/-- 42_validator.md R306, R302, R303: CKCHK. -/
def Obligations.CkchkRule : Prop :=
  ∀ s : State,
    (4096 < s.frameLen.toNat → exec .ckchk s = .next { s with status := 0x15 }) ∧
    (s.frameLen.toNat ≤ 4096 → s.frameLen.toNat < s.rangeOff.toNat + s.rangeLen.toNat →
      exec .ckchk s = .next { s with status := 0x34 }) ∧
    (s.frameLen.toNat ≤ 4096 → s.rangeOff.toNat + s.rangeLen.toNat ≤ s.frameLen.toNat →
      frameSum s s.rangeOff.toNat s.rangeLen.toNat % 256 ≠ 0 → exec .ckchk s = .next { s with status := 0x33 }) ∧
    (s.frameLen.toNat ≤ 4096 → s.rangeOff.toNat + s.rangeLen.toNat ≤ s.frameLen.toNat →
      frameSum s s.rangeOff.toNat s.rangeLen.toNat % 256 = 0 →
      exec .ckchk s = .next { s with ckResult := 0x00, status := 0x00 })

/-- 42_validator.md R307, R302, R303: BOUNDS. -/
def Obligations.BoundsRule : Prop :=
  ∀ s : State,
    (4096 < s.frameLen.toNat → exec .bounds s = .next { s with status := 0x15 }) ∧
    (s.frameLen.toNat ≤ 4096 → s.frameLen.toNat < s.rangeOff.toNat + s.rangeLen.toNat →
      exec .bounds s = .next { s with status := 0x34 }) ∧
    (s.frameLen.toNat ≤ 4096 → s.rangeOff.toNat + s.rangeLen.toNat ≤ s.frameLen.toNat →
      exec .bounds s = .next { s with status := 0x00 })

/-- 42_validator.md R304, 00_scope.md R15: a range followed by its checksum byte sums to 0, and a range sums to 0
exactly when its last byte is the checksum of the bytes before it. -/
def Obligations.ChecksumLaw : Prop :=
  ∀ (s : State) (a n : Nat),
    (frameSum s a n + ck8 s a n) % 256 = 0 ∧
    (sum8 s a (n + 1) = 0 ↔ (s.frame.read (a + n)).toNat = ck8 s a n)

/-- 42_validator.md R308, 60_exceptions.md R410: HDRCHK of a valid header ends with OK; in general it reports the first
condition that fails; it changes nothing but STATUS. -/
def Obligations.HdrchkReportsFirstFailure : Prop :=
  (∀ s : State, headerValid s → exec .hdrchk s = .next { s with status := 0x00 }) ∧
    ∀ s : State, exec .hdrchk s = .next { s with
      status :=
        if 4096 < s.frameLen.toNat then 0x15
        else if s.frameLen.toNat < 8 then 0x34
        else if (s.frame.read 0).toNat % 16 ≠ 1 then 0x30
        else if (s.frame.read 0).toNat / 16 ≠ 0 then 0x31
        else if s.frame.read 6 ≠ 0x00 then 0x32
        else if frameSum s 0 8 % 256 ≠ 0 then 0x33
        else 0x00 }

/-- 42_validator.md R310, 60_exceptions.md R410, 10_state.md R35: the slot is CTRL[6:4]; AREALOOKUP checks the frame
length, then the slot, then the header, which it refuses with the status HDRCHK gives; nothing but STATUS changes. -/
def Obligations.ArealookupRefusesBeforeTheArea : Prop :=
  ∀ s : State,
    s.slot = s.ctrl.toNat / 16 % 8 ∧
    (4096 < s.frameLen.toNat → exec .arealookup s = .next { s with status := 0x15 }) ∧
    (s.frameLen.toNat ≤ 4096 → 4 < s.slot → exec .arealookup s = .next { s with status := 0x14 }) ∧
    (s.frameLen.toNat ≤ 4096 → s.slot ≤ 4 → ¬headerValid s →
      ∃ h, exec .hdrchk s = .next h ∧ h.status ≠ 0x00 ∧ exec .arealookup s = .next { s with status := h.status })

/-- 42_validator.md R310: AREALOOKUP of an absent area sets AREA_PTR and AREA_SIZE to 0 and reports ABSENT. -/
def Obligations.ArealookupAbsentArea : Prop :=
  ∀ s : State, headerValid s → s.slot ≤ 4 → s.frame.read (1 + s.slot) = 0x00 →
    exec .arealookup s = .next { s with areaPtr := 0, areaSize := 0, status := 0x01 }

/-- 42_validator.md R310, R309: AREALOOKUP of the internal-use area. -/
def Obligations.ArealookupInternalUse : Prop :=
  ∀ (s : State) (b : Nat), headerValid s → s.slot = 0 → s.frame.read 1 ≠ 0x00 → b = 8 * (s.frame.read 1).toNat →
    (s.frameLen.toNat < b + 1 → exec .arealookup s = .next { s with status := 0x34 }) ∧
    (b + 1 ≤ s.frameLen.toNat → (s.frame.read b).toNat % 16 ≠ 1 →
      exec .arealookup s = .next { s with status := 0x30 }) ∧
    (b + 1 ≤ s.frameLen.toNat → (s.frame.read b).toNat % 16 = 1 →
      exec .arealookup s = .next { s with areaPtr := BitVec.ofNat 16 b, areaSize := 0, status := 0x00 })

/-- 42_validator.md R310, R309, R301: AREALOOKUP of a chassis, board or product area: the size and offset of a valid
area, or the first condition that fails. -/
def Obligations.ArealookupInfoArea : Prop :=
  ∀ (s : State) (b z : Nat), headerValid s → s.slot = 1 ∨ s.slot = 2 ∨ s.slot = 3 →
    s.frame.read (1 + s.slot) ≠ 0x00 → b = 8 * (s.frame.read (1 + s.slot)).toNat → z = 8 * (s.frame.read (b + 1)).toNat →
    (infoAreaValid s b s.frameLen.toNat →
      exec .arealookup s = .next { s with
        areaPtr := BitVec.ofNat 16 b, areaSize := BitVec.ofNat 16 z, status := 0x00 }) ∧
    (¬infoAreaValid s b s.frameLen.toNat →
      exec .arealookup s = .next { s with
        status :=
          if s.frameLen.toNat < b + 2 then 0x34
          else if (s.frame.read b).toNat % 16 ≠ 1 then 0x30
          else if z = 0 then 0x35
          else if s.frameLen.toNat < b + z then 0x34
          else 0x33 })

/-- 42_validator.md R310, R311: AREALOOKUP of the multirecord area validates its first record and copies its type and
flags. -/
def Obligations.ArealookupMultirecord : Prop :=
  ∀ (s : State) (b : Nat), headerValid s → s.slot = 4 → s.frame.read 5 ≠ 0x00 → b = 8 * (s.frame.read 5).toNat →
    (recordValid s b s.frameLen.toNat →
      exec .arealookup s = .next { s with
        mrType := s.frame.read b, mrFlags := s.frame.read (b + 1), areaPtr := BitVec.ofNat 16 b
        areaSize := BitVec.ofNat 16 (5 + (s.frame.read (b + 2)).toNat), status := 0x00 }) ∧
    (¬recordValid s b s.frameLen.toNat →
      exec .arealookup s = .next { s with status := recordStatus s b s.frameLen.toNat } ∧
        recordStatus s b s.frameLen.toNat ≠ 0x00)

/-- 42_validator.md R312, R311: MRCHK of a valid record copies its type and flags, returns its offset and size and
advances CURSOR past it. -/
def Obligations.MrchkAdvancesPastARecord : Prop :=
  ∀ s : State, s.frameLen.toNat ≤ 4096 → s.limit.toNat ≤ s.frameLen.toNat →
    recordValid s s.cursor.toNat s.limit.toNat →
    ∃ t, exec .mrchk s = .next t ∧
      t = { s with
        mrType := s.frame.read s.cursor.toNat, mrFlags := s.frame.read (s.cursor.toNat + 1), areaPtr := s.cursor
        areaSize := t.areaSize, cursor := t.cursor, status := 0x00 } ∧
      t.areaSize.toNat = 5 + (s.frame.read (s.cursor.toNat + 2)).toNat ∧
      t.cursor.toNat = s.cursor.toNat + 5 + (s.frame.read (s.cursor.toNat + 2)).toNat

/-- 42_validator.md R312, R311, 60_exceptions.md R410: where MRCHK fails; nothing but STATUS changes. -/
def Obligations.MrchkFailures : Prop :=
  ∀ s : State,
    (4096 < s.frameLen.toNat → exec .mrchk s = .next { s with status := 0x15 }) ∧
    (s.frameLen.toNat ≤ 4096 → s.frameLen.toNat < s.limit.toNat → exec .mrchk s = .next { s with status := 0x34 }) ∧
    (s.frameLen.toNat ≤ 4096 → s.limit.toNat ≤ s.frameLen.toNat → ¬recordValid s s.cursor.toNat s.limit.toNat →
      exec .mrchk s = .next { s with status := recordStatus s s.cursor.toNat s.limit.toNat } ∧
        recordStatus s s.cursor.toNat s.limit.toNat ≠ 0x00)

/-- 42_validator.md R315: no pointer on failure, and a pointer inside the frame on success. -/
def Obligations.AreaPointerStaysInsideTheFrame : Prop :=
  ∀ (i : Instr) (s t : State), i = .arealookup ∨ i = .mrchk → exec i s = .next t →
    (t.status.toNat / 16 ≠ 0 → t.areaPtr = s.areaPtr ∧ t.areaSize = s.areaSize) ∧
    (t.status = 0x00 → t.areaPtr.toNat + t.areaSize.toNat ≤ s.frameLen.toNat)

/-- 42_validator.md R313: an info area that is in bounds, of version 1, and sums to 0 passes CKCHK over it and
AREALOOKUP of its slot under a valid header. -/
def Obligations.BuiltAreaPasses : Prop :=
  ∀ (s : State) (b z : Nat), headerValid s → s.slot = 1 ∨ s.slot = 2 ∨ s.slot = 3 →
    s.frame.read (1 + s.slot) ≠ 0x00 → b = 8 * (s.frame.read (1 + s.slot)).toNat →
    (s.frame.read b).toNat % 16 = 1 → (s.frame.read (b + 1)).toNat = z → 0 < z → b + 8 * z ≤ s.frameLen.toNat →
    frameSum s b (8 * z) % 256 = 0 → s.rangeOff.toNat = b → s.rangeLen.toNat = 8 * z →
    exec .ckchk s = .next { s with ckResult := 0x00, status := 0x00 } ∧
      ∃ t, exec .arealookup s = .next t ∧ t.status = 0x00 ∧ t.areaPtr.toNat = b ∧ t.areaSize.toNat = 8 * z

/-- 42_validator.md R314: a single changed byte is detected: by the sum of any range that holds it, by CKCHK, by
HDRCHK, by MRCHK in any byte of its record, and by AREALOOKUP in any byte of the header, in any byte of an info area
but the size byte, whose change also changes the range, and in any byte of the first multirecord record. -/
def Obligations.SingleByteCorruptionIsDetected : Prop :=
  ∀ (s : State) (k : Nat) (v : Byte), v ≠ s.frame.read k →
    (∀ a n, a ≤ k → k < a + n → sum8 s a n = 0 → sum8 { s with frame := s.frame.write k v } a n ≠ 0) ∧
    (∀ t, exec .ckchk s = .next t → t.status = 0x00 → s.rangeOff.toNat ≤ k →
      k < s.rangeOff.toNat + s.rangeLen.toNat →
      exec .ckchk { s with frame := s.frame.write k v } =
        .next { s with frame := s.frame.write k v, status := 0x33 }) ∧
    (∀ t, exec .hdrchk s = .next t → t.status = 0x00 → k < 8 →
      ∃ u, exec .hdrchk { s with frame := s.frame.write k v } = .next u ∧ u.status.toNat / 16 = 3) ∧
    (∀ t, exec .mrchk s = .next t → t.status = 0x00 → s.cursor.toNat ≤ k → k < t.cursor.toNat →
      ∃ u, exec .mrchk { s with frame := s.frame.write k v } = .next u ∧ u.status.toNat / 16 = 3) ∧
    (∀ t, exec .arealookup s = .next t → t.status = 0x00 → s.slot = 1 ∨ s.slot = 2 ∨ s.slot = 3 →
      t.areaPtr.toNat ≤ k → k < t.areaPtr.toNat + t.areaSize.toNat → k ≠ t.areaPtr.toNat + 1 →
      ∃ u, exec .arealookup { s with frame := s.frame.write k v } = .next u ∧ u.status.toNat / 16 = 3) ∧
    (∀ t, exec .arealookup s = .next t → t.status = 0x00 → s.slot = 4 →
      t.areaPtr.toNat ≤ k → k < t.areaPtr.toNat + t.areaSize.toNat →
      ∃ u, exec .arealookup { s with frame := s.frame.write k v } = .next u ∧ u.status.toNat / 16 = 3) ∧
    (∀ t, exec .arealookup s = .next t → t.status = 0x00 ∨ t.status = 0x01 → k < 8 →
      ∃ u, exec .arealookup { s with frame := s.frame.write k v } = .next u ∧ u.status.toNat / 16 = 3)
end

