-- ==== Sys2Proof/Laws/Memory.lean ====
section
/-! SUPPORT. What the buffer operations do: a read after a write, strings of bytes, and the canonical form, which every
operation keeps. -/

namespace Sys2Proof.Machine

/-! ## One byte -/

@[simp] theorem Memory.read_nil (a : Nat) : Memory.read [] a = 0x00 := rfl

theorem Memory.read_cons (c : Host.Cell) (m : Memory) (a : Nat) :
    Memory.read (c :: m) a = if c.1 = a then c.2 else Memory.read m a := rfl

theorem Memory.read_erase_self (m : Memory) (a : Nat) : (m.erase a).read a = 0x00 := by
  induction m with
  | nil => rfl
  | cons c m ih =>
    by_cases h : c.1 = a
    · simpa [Memory.erase, h] using ih
    · simpa [Memory.erase, h, Memory.read_cons] using ih

theorem Memory.read_erase_ne (m : Memory) {a k : Nat} (h : k ≠ a) : (m.erase a).read k = m.read k := by
  induction m with
  | nil => rfl
  | cons c m ih =>
    by_cases hc : c.1 = a
    · have hk : c.1 ≠ k := fun e => h (e ▸ hc)
      simpa [Memory.erase, hc, Memory.read_cons, Ne.symm h] using ih
    · have ih' : Memory.read (List.filter (fun c => c.1 != a) m) k = Memory.read m k := ih
      simp [Memory.erase, hc, Memory.read_cons, ih']

theorem Memory.read_place_self (m : Memory) (a : Nat) (b : Byte) (h : ∀ c ∈ m, c.1 ≠ a) :
    (m.place a b).read a = b := by
  induction m with
  | nil => simp [Memory.place, Memory.read_cons]
  | cons c m ih =>
    have hc : c.1 ≠ a := h c (by simp)
    unfold Memory.place
    split
    · simp [Memory.read_cons]
    · simp [Memory.read_cons, hc, ih fun d hd => h d (by simp [hd])]

theorem Memory.read_place_ne (m : Memory) {a k : Nat} (b : Byte) (h : k ≠ a) : (m.place a b).read k = m.read k := by
  induction m with
  | nil => simp [Memory.place, Memory.read_cons, Ne.symm h]
  | cons c m ih =>
    unfold Memory.place
    split
    · simp [Memory.read_cons, Ne.symm h]
    · simp [Memory.read_cons, ih]

theorem Memory.mem_erase {m : Memory} {a : Nat} {c : Host.Cell} : c ∈ m.erase a ↔ c ∈ m ∧ c.1 ≠ a := by
  simp [Memory.erase]

/-- A read after a write gives the written byte at its address and leaves every other address alone, whether or not
the buffer is in canonical form. -/
@[simp] theorem Memory.read_write (m : Memory) (a k : Nat) (b : Byte) :
    (m.write a b).read k = if k = a then b else m.read k := by
  unfold Memory.write
  split <;> rename_i hb
  · split <;> rename_i hk
    · subst hk; rw [Memory.read_erase_self, hb]; rfl
    · exact Memory.read_erase_ne m hk
  · split <;> rename_i hk
    · subst hk; exact Memory.read_place_self _ _ _ fun c hc => (Memory.mem_erase.1 hc).2
    · rw [Memory.read_place_ne _ _ hk, Memory.read_erase_ne m hk]

/-! ## Strings of bytes -/

@[simp] theorem Memory.readBytes_length (m : Memory) (a n : Nat) : (m.readBytes a n).length = n := by
  induction n generalizing a with
  | zero => rfl
  | succ n ih => simp [Memory.readBytes, ih]

theorem Memory.readBytes_getElem (m : Memory) (a n k : Nat) (h : k < (m.readBytes a n).length) :
    (m.readBytes a n)[k] = m.read (a + k) := by
  induction n generalizing a k with
  | zero => simp at h
  | succ n ih =>
    cases k with
    | zero => simp [Memory.readBytes]
    | succ k => simp [Memory.readBytes, ih, Nat.add_assoc, Nat.add_comm 1 k]

/-- A string read is the list of its single reads. -/
theorem Memory.readBytes_eq_map (m : Memory) (a n : Nat) :
    m.readBytes a n = (List.range n).map fun k => m.read (a + k) := by
  apply List.ext_getElem
  · simp
  · intro k h1 h2
    simp [Memory.readBytes_getElem]

/-- Two buffers that agree on a range read the same string from it. -/
theorem Memory.readBytes_congr {m m' : Memory} {a n : Nat} (h : ∀ k, a ≤ k → k < a + n → m.read k = m'.read k) :
    m.readBytes a n = m'.readBytes a n := by
  rw [Memory.readBytes_eq_map, Memory.readBytes_eq_map]
  apply List.map_congr_left
  intro k hk
  exact h _ (Nat.le_add_right ..) (by simpa using hk)

/-- What a byte reads as after a string is stored: the string's byte inside the stored range, the old byte outside. -/
theorem Memory.read_writeBytes (m : Memory) (a k : Nat) (bs : List Byte) :
    (m.writeBytes a bs).read k = if a ≤ k ∧ k < a + bs.length then bs.getD (k - a) 0 else m.read k := by
  induction bs generalizing m a with
  | nil => simp [Memory.writeBytes]
  | cons b bs ih =>
    rw [Memory.writeBytes, ih, Memory.read_write]
    by_cases h : k = a
    · subst h; simp
    · by_cases h2 : a + 1 ≤ k ∧ k < a + 1 + bs.length
      · have hk : k - a = (k - (a + 1)) + 1 := by omega
        have h3 : a ≤ k ∧ k < a + (b :: bs).length := by simp; omega
        rw [if_pos h2, if_pos h3, hk, List.getD_cons_succ]
      · have h3 : ¬(a ≤ k ∧ k < a + (b :: bs).length) := by simp; omega
        rw [if_neg h2, if_neg h3, if_neg h]

/-- What a buffer byte reads as after a fill: the string, then zeros up to the capacity, and nothing else changed. -/
theorem Memory.read_fill (m : Memory) (cap k : Nat) (bs : List Byte) (h : bs.length ≤ cap) :
    (m.fill cap bs).read k = if k < cap then bs.getD k 0 else m.read k := by
  rw [Memory.fill, Memory.read_writeBytes]
  have hl : (bs ++ List.replicate (cap - bs.length) (0x00 : Byte)).length = cap := by simp; omega
  simp only [hl, Nat.zero_le, true_and, Nat.zero_add, Nat.sub_zero]
  split <;> rename_i hk
  · simp only [List.getD_eq_getElem?_getD]
    by_cases h2 : k < bs.length
    · rw [List.getElem?_append_left h2]
    · rw [List.getElem?_append_right (by omega), List.getElem?_replicate_of_lt (by omega), List.getElem?_eq_none (by omega)]
      rfl
  · rfl

/-- The string a fill stored is read back. -/
theorem Memory.readBytes_fill (m : Memory) (cap : Nat) (bs : List Byte) (h : bs.length ≤ cap) :
    (m.fill cap bs).readBytes 0 bs.length = bs := by
  apply List.ext_getElem
  · simp
  · intro k h1 h2
    rw [Memory.readBytes_getElem, Nat.zero_add, Memory.read_fill _ _ _ _ h, if_pos (by omega)]
    simp [List.getD_eq_getElem?_getD, List.getElem?_eq_getElem h2]

/-! ## The canonical form -/

theorem Memory.rising_cons (c : Host.Cell) (m : Memory) :
    Memory.rising (c :: m) = true ↔ (∀ d ∈ m, c.1 < d.1) ∧ Memory.rising m = true := by
  induction m generalizing c with
  | nil => simp [Memory.rising]
  | cons d m ih =>
    simp only [Memory.rising, Bool.and_eq_true, decide_eq_true_eq, List.mem_cons, forall_eq_or_imp]
    constructor
    · rintro ⟨h1, h2⟩
      exact ⟨⟨h1, fun e he => Nat.lt_trans h1 (((ih d).1 h2).1 e he)⟩, h2⟩
    · rintro ⟨⟨h1, _⟩, h2⟩
      exact ⟨h1, h2⟩

theorem Memory.rising_erase (m : Memory) (a : Nat) (h : m.rising = true) : (m.erase a).rising = true := by
  induction m with
  | nil => rfl
  | cons c m ih =>
    rw [Memory.rising_cons] at h
    have ih' := ih h.2
    by_cases hc : c.1 = a
    · simpa [Memory.erase, hc] using ih'
    · have e : Memory.erase (c :: m) a = c :: Memory.erase m a := by simp [Memory.erase, hc]
      rw [e, Memory.rising_cons]
      exact ⟨fun d hd => h.1 d (Memory.mem_erase.1 hd).1, ih'⟩

theorem Memory.mem_place {m : Memory} {a : Nat} {b : Byte} {d : Host.Cell} :
    d ∈ m.place a b ↔ d = (a, b) ∨ d ∈ m := by
  induction m with
  | nil => simp [Memory.place]
  | cons c m ih =>
    unfold Memory.place
    split
    · simp
    · simp only [List.mem_cons, ih]; tauto

theorem Memory.rising_place (m : Memory) (a : Nat) (b : Byte) (h : m.rising = true) (ha : ∀ c ∈ m, c.1 ≠ a) :
    (m.place a b).rising = true := by
  induction m with
  | nil => rfl
  | cons c m ih =>
    rw [Memory.rising_cons] at h
    unfold Memory.place
    split <;> rename_i hc
    · rw [Memory.rising_cons, Memory.rising_cons]
      refine ⟨fun d hd => ?_, h⟩
      rcases List.mem_cons.1 hd with rfl | hd
      · exact hc
      · exact Nat.lt_trans hc (h.1 d hd)
    · have hne : c.1 ≠ a := ha c (by simp)
      rw [Memory.rising_cons]
      refine ⟨fun d hd => ?_, ih h.2 fun d hd => ha d (by simp [hd])⟩
      rcases Memory.mem_place.1 hd with rfl | hd
      · exact Nat.lt_of_le_of_ne (Nat.le_of_not_lt hc) hne
      · exact h.1 d hd

theorem Memory.wf_iff (m : Memory) :
    m.wf = true ↔ m.rising = true ∧ ∀ c ∈ m, c.2 ≠ Memory.unlisted := by
  simp [Memory.wf]

@[simp] theorem Memory.wf_nil : Memory.wf [] = true := rfl

/-- A write keeps the canonical form. -/
theorem Memory.wf_write (m : Memory) (a : Nat) (b : Byte) (h : m.wf = true) : (m.write a b).wf = true := by
  rw [Memory.wf_iff] at h ⊢
  have he : ∀ c ∈ m.erase a, c.2 ≠ Memory.unlisted := fun c hc => h.2 c (Memory.mem_erase.1 hc).1
  have hr := Memory.rising_erase m a h.1
  unfold Memory.write
  split <;> rename_i hb
  · exact ⟨hr, he⟩
  · refine ⟨Memory.rising_place _ _ _ hr fun c hc => (Memory.mem_erase.1 hc).2, fun c hc => ?_⟩
    rcases Memory.mem_place.1 hc with rfl | hc
    · exact hb
    · exact he c hc

/-- Storing a string keeps the canonical form. -/
theorem Memory.wf_writeBytes (m : Memory) (a : Nat) (bs : List Byte) (h : m.wf = true) :
    (m.writeBytes a bs).wf = true := by
  induction bs generalizing m a with
  | nil => exact h
  | cons b bs ih => exact ih _ _ (Memory.wf_write m a b h)

/-- A fill keeps the canonical form. -/
theorem Memory.wf_fill (m : Memory) (cap : Nat) (bs : List Byte) (h : m.wf = true) : (m.fill cap bs).wf = true :=
  Memory.wf_writeBytes _ _ _ h

theorem Memory.within_iff (m : Memory) (cap : Nat) : m.within cap = true ↔ ∀ c ∈ m, c.1 < cap := by
  simp [Memory.within]

/-- A write inside a buffer keeps every listed address inside it. -/
theorem Memory.within_write (m : Memory) (a cap : Nat) (b : Byte) (h : m.within cap = true) (ha : a < cap) :
    (m.write a b).within cap = true := by
  rw [Memory.within_iff] at h ⊢
  intro c hc
  unfold Memory.write at hc
  split at hc
  · exact h c (Memory.mem_erase.1 hc).1
  · rcases Memory.mem_place.1 hc with rfl | hc
    · exact ha
    · exact h c (Memory.mem_erase.1 hc).1

theorem Memory.within_writeBytes (m : Memory) (a cap : Nat) (bs : List Byte) (h : m.within cap = true)
    (ha : a + bs.length ≤ cap) : (m.writeBytes a bs).within cap = true := by
  induction bs generalizing m a with
  | nil => exact h
  | cons b bs ih =>
    simp only [List.length_cons] at ha
    exact ih _ _ (Memory.within_write m a cap b h (by omega)) (by omega)

/-- A fill keeps every listed address inside the buffer. -/
theorem Memory.within_fill (m : Memory) (cap : Nat) (bs : List Byte) (h : m.within cap = true) (hl : bs.length ≤ cap) :
    (m.fill cap bs).within cap = true :=
  Memory.within_writeBytes _ _ _ _ h (by simp; omega)

/-- Two buffers in canonical form that read alike everywhere are the same data. -/
theorem Memory.ext_of_wf {m m' : Memory} (h : m.wf = true) (h' : m'.wf = true) (e : ∀ a, m.read a = m'.read a) :
    m = m' := by
  induction m generalizing m' with
  | nil =>
    cases m' with
    | nil => rfl
    | cons d m' =>
      have := e d.1
      rw [Memory.wf_iff] at h'
      simp [Memory.read_cons] at this
      exact absurd this.symm (h'.2 d (by simp))
  | cons c m ih =>
    have key : ∀ (x : Host.Cell) (n : Memory), Memory.wf (x :: n) = true → (∀ a, a < x.1 → Memory.read (x :: n) a = 0x00) ∧
        Memory.read (x :: n) x.1 ≠ 0x00 ∧ Memory.wf n = true ∧ (∀ a, a ≤ x.1 → Memory.read n a = 0x00) := by
      intro x n hx
      rw [Memory.wf_iff, Memory.rising_cons] at hx
      have low : ∀ a, a ≤ x.1 → Memory.read n a = 0x00 := by
        intro a ha
        have : ∀ d ∈ n, a < d.1 := fun d hd => Nat.lt_of_le_of_lt ha (hx.1.1 d hd)
        clear hx
        induction n with
        | nil => rfl
        | cons d n ihn =>
          have hd := this d (by simp)
          rw [Memory.read_cons, if_neg (by omega)]
          exact ihn fun e he => this e (by simp [he])
      refine ⟨fun a ha => ?_, ?_, ?_, low⟩
      · rw [Memory.read_cons, if_neg (by omega)]
        exact low a (by omega)
      · simpa [Memory.read_cons, Memory.unlisted] using hx.2 x (by simp)
      · rw [Memory.wf_iff]
        exact ⟨hx.1.2, fun d hd => hx.2 d (by simp [hd])⟩
    cases m' with
    | nil =>
      exact absurd (by simpa using e c.1) (key c m h).2.1
    | cons d m' =>
      obtain ⟨c1, c2, c3, c4⟩ := key c m h
      obtain ⟨d1, d2, d3, d4⟩ := key d m' h'
      have hcd : c.1 = d.1 := by
        rcases Nat.lt_trichotomy c.1 d.1 with hl | he | hg
        · exact absurd ((e c.1).trans (d1 _ hl)) c2
        · exact he
        · exact absurd ((e d.1).symm.trans (c1 _ hg)) d2
      have hb : c.2 = d.2 := by
        have := e c.1
        simpa [Memory.read_cons, hcd] using this
      have htail : m = m' := by
        refine ih c3 d3 fun a => ?_
        by_cases ha : a ≤ c.1
        · rw [c4 a ha, d4 a (by omega)]
        · have := e a
          rwa [Memory.read_cons, Memory.read_cons, if_neg (by omega), if_neg (by omega)] at this
      rw [htail, Prod.ext hcd hb]

end Sys2Proof.Machine
end

