-- ==== Sys2Proof/Laws/Ops.lean ====
section
/-! SUPPORT. What the shared operations of commands do: endings, sums, digits. -/

namespace Sys2Proof.Machine

/-! ## Endings -/

/-- A raise answers the state before the command with STATUS replaced, and nothing else. -/
theorem raise_next {code : StatusCode} {s t : State} :
    raise code s = .next t ↔ t = { s with status := code.toByte } := by
  simp only [raise, Host.Outcome.next.injEq, State.setStatus]
  exact eq_comm

/-- A finish answers the written state with STATUS replaced. -/
theorem finish_next {code : StatusCode} {s t : State} :
    finish code s = .next t ↔ t = { s with status := code.toByte } := by
  simp only [finish, Host.Outcome.next.injEq, State.setStatus]
  exact eq_comm

/-- Different codes have different bytes (60_exceptions.md R400). -/
theorem StatusCode.toByte_inj : ∀ c d : StatusCode, c.toByte = d.toByte → c = d := by
  intro c d; cases c <;> cases d <;> decide

/-! ## Sums -/

@[simp] theorem byteSum_nil : byteSum [] = 0 := rfl

@[simp] theorem byteSum_cons (b : Byte) (bs : List Byte) : byteSum (b :: bs) = b.toNat + byteSum bs := rfl

theorem byteSum_append (bs cs : List Byte) : byteSum (bs ++ cs) = byteSum bs + byteSum cs := by
  induction bs with
  | nil => simp
  | cons b bs ih => simp [ih, Nat.add_assoc]

theorem Memory.readBytes_add (m : Memory) (a n k : Nat) :
    m.readBytes a (n + k) = m.readBytes a n ++ m.readBytes (a + n) k := by
  induction n generalizing a with
  | zero => simp [Memory.readBytes]
  | succ n ih =>
    rw [Nat.succ_add, Memory.readBytes, ih, Memory.readBytes, List.cons_append, Nat.add_right_comm a 1 n]
    rfl

theorem sum8_lt (s : State) (a n : Nat) : sum8 s a n < 256 :=
  Nat.mod_lt _ (by decide)

/-- A sum over frames that agree on the range is the same. -/
theorem sum8_congr {s s' : State} {a n : Nat} (h : ∀ k, a ≤ k → k < a + n → s.frame.read k = s'.frame.read k) :
    sum8 s a n = sum8 s' a n := by
  rw [sum8, sum8, State.frameBytes, State.frameBytes, Memory.readBytes_congr h]

/-! ## Digits -/

@[simp] theorem digitsOf_length (base n w : Nat) : (digitsOf base n w).length = n := by
  induction n generalizing w with
  | zero => rfl
  | succ n ih => simp [digitsOf, ih]

/-- Digit k of a number: the slice the spec writes `W[8k+7 : 8k]` in base 256 and `W[6i+5 : 6i]` in base 64
(40_field_codec.md R211, R212). -/
theorem digitsOf_getElem (base n w k : Nat) (h : k < (digitsOf base n w).length) :
    (digitsOf base n w)[k] = w / base ^ k % base := by
  induction n generalizing w k with
  | zero => simp at h
  | succ n ih =>
    cases k with
    | zero => simp [digitsOf]
    | succ k => simp [digitsOf, ih, Nat.div_div_eq_div_mul, Nat.pow_succ, Nat.mul_comm]

/-- The value of the first n digits is the number modulo base^n. -/
theorem valueOf_digitsOf (base n w : Nat) : valueOf base (digitsOf base n w) = w % base ^ n := by
  induction n generalizing w with
  | zero => simp [digitsOf, valueOf, Nat.mod_one]
  | succ n ih => rw [digitsOf, valueOf, ih, Nat.pow_succ', ← Nat.mod_mul]

/-- The digits of a value are the digits it was made of, then zeros. -/
theorem digitsOf_valueOf (base : Nat) (ds : List Nat) (k : Nat) (h : ∀ d ∈ ds, d < base) :
    digitsOf base (ds.length + k) (valueOf base ds) = ds ++ List.replicate k 0 := by
  induction ds with
  | nil =>
    induction k with
    | zero => rfl
    | succ k ih =>
      simp only [List.length_nil, Nat.zero_add, valueOf, List.nil_append] at ih ⊢
      rw [digitsOf, Nat.zero_div, ih, Nat.zero_mod, List.replicate_succ]
  | cons d ds ih =>
    have hd : d < base := h d (by simp)
    have hb : 0 < base := by omega
    have e : (d :: ds).length + k = (ds.length + k) + 1 := by simp; omega
    rw [e, digitsOf, valueOf, Nat.add_mul_mod_self_left, Nat.mod_eq_of_lt hd, Nat.add_mul_div_left _ _ hb,
      Nat.div_eq_of_lt hd, Nat.zero_add, ih fun x hx => h x (by simp [hx])]
    rfl

theorem valueOf_lt (base : Nat) (ds : List Nat) (h : ∀ d ∈ ds, d < base) : valueOf base ds < base ^ ds.length := by
  induction ds with
  | nil => simp [valueOf]
  | cons d ds ih =>
    have hd : d < base := h d (by simp)
    have hi := ih fun x hx => h x (by simp [hx])
    rw [valueOf, List.length_cons, Nat.pow_succ']
    calc d + base * valueOf base ds < base + base * valueOf base ds := by omega
      _ = base * (valueOf base ds + 1) := by ring
      _ ≤ base * base ^ ds.length := Nat.mul_le_mul_left _ hi

end Sys2Proof.Machine
end

