-- ==== Sys2Proof/Laws/Codec.lean ====
section
/-! SUPPORT. What the pure functions of the codec do: tags, lengths, packing and unpacking. -/

namespace Sys2Proof.Machine

/-! ## Typelen tags -/

theorem FieldType.code_lt (ty : FieldType) : ty.code < 4 := by
  cases ty <;> decide

theorem decodeTypelen_len (t : Byte) : (decodeTypelen t).len = t.toNat % 64 := by
  simp [decodeTypelen, typelenLenBits]

theorem decodeTypelen_len_lt (t : Byte) : (decodeTypelen t).len < 64 := by
  rw [decodeTypelen_len]; omega

theorem encodeTypelen_toNat (g : Typelen) (h : g.len ≤ 63) : (encodeTypelen g).toNat = 64 * g.type.code + g.len := by
  have := FieldType.code_lt g.type
  simp only [encodeTypelen, BitVec.toNat_ofNat]
  omega

theorem typelenTypeBits_toNat (t : Byte) : (typelenTypeBits t).toNat = t.toNat / 64 := by
  have := t.isLt
  simp only [typelenTypeBits, BitVec.extractLsb'_toNat, Nat.shiftRight_eq_div_pow]
  omega

/-- The type and length a byte built from a tag splits back into. -/
theorem decodeTypelen_encodeTypelen (g : Typelen) (h : g.len ≤ 63) : decodeTypelen (encodeTypelen g) = g := by
  have hn := encodeTypelen_toNat g h
  have hlen : (decodeTypelen (encodeTypelen g)).len = g.len := by
    rw [decodeTypelen_len, hn]; omega
  have htype : (decodeTypelen (encodeTypelen g)).type = g.type := by
    have hb : (typelenTypeBits (encodeTypelen g)).toNat = g.type.code := by
      rw [typelenTypeBits_toNat, hn]; omega
    simp only [decodeTypelen, FieldType.ofCode, hb]
    cases g.type <;> rfl
  cases g; simp_all [decodeTypelen]

theorem tagTypeOf_eq (t : Byte) : tagTypeOf t = BitVec.ofNat 8 (t.toNat / 64) := by
  apply BitVec.eq_of_toNat_eq
  have := t.isLt
  simp [tagTypeOf, typelenTypeBits_toNat]

theorem tagLenOf_eq (t : Byte) : tagLenOf t = BitVec.ofNat 8 (t.toNat % 64) := by
  apply BitVec.eq_of_toNat_eq
  simp [tagLenOf, typelenLenBits]

theorem isEof_iff (t : Byte) : isEof t = true ↔ t = 0xC1 := by
  simp [isEof, Config.eofSentinel]

theorem tagFlagsOf_eq (t : Byte) : tagFlagsOf t = if t = 0xC1 then 1 else 0 := by
  simp [tagFlagsOf, isEof_iff]

/-- A built tag is the sentinel exactly when it is a one-byte Text tag (30_encoding.md R155). -/
theorem encodeTypelen_eq_eof (g : Typelen) (h : g.len ≤ 63) :
    encodeTypelen g = 0xC1 ↔ g.type = .text ∧ g.len = 1 := by
  rw [← BitVec.toNat_inj, encodeTypelen_toNat g h]
  constructor
  · intro e
    have e' : 64 * g.type.code + g.len = 193 := e
    cases hty : g.type <;> simp [hty, FieldType.code] at e' ⊢ <;> omega
  · rintro ⟨h1, h2⟩
    rw [h1, h2]; rfl

/-- The tag registers of a built tag (40_field_codec.md R214). -/
theorem setTagTl_encodeTypelen (s : State) (g : Typelen) (h : g.len ≤ 63) :
    s.setTagTl (encodeTypelen g) = { s with
      tagTl := encodeTypelen g
      tagType := BitVec.ofNat 8 g.type.code
      tagLen := BitVec.ofNat 8 g.len
      tagFlags := if g.type = .text ∧ g.len = 1 then 1 else 0
      tagDlen := BitVec.ofNat 8 (dlen g.type g.len) } := by
  have hn := encodeTypelen_toNat g h
  have := FieldType.code_lt g.type
  have h1 : (64 * g.type.code + g.len) / 64 = g.type.code := by omega
  have h2 : (64 * g.type.code + g.len) % 64 = g.len := by omega
  simp only [State.setTagTl, State.setTag, tagTypeOf_eq, tagLenOf_eq, tagFlagsOf_eq, tagDlenOf, hn, h1, h2,
    decodeTypelen_encodeTypelen g h, encodeTypelen_eq_eof g h]

/-! ## Lengths -/

theorem plen_sixbit (l : Nat) : plen .sixbit l = (3 * l + 3) / 4 := by
  simp only [plen, ceilDiv]; omega

theorem dlen_sixbit (n : Nat) : dlen .sixbit n = 4 * n / 3 := by
  simp only [dlen]; omega

theorem dlen_le (ty : FieldType) (n : Nat) (h : n ≤ 63) : dlen ty n ≤ 126 := by
  cases ty <;> simp only [dlen] <;> omega

theorem dlen_plen_sixbit (l : Nat) : dlen .sixbit (plen .sixbit l) = if l % 4 = 3 then l + 1 else l := by
  obtain ⟨q, r, hr, rfl⟩ : ∃ q r, r < 4 ∧ l = 4 * q + r := ⟨l / 4, l % 4, by omega, by omega⟩
  have e : (4 * q + r) % 4 = r := by omega
  have p : plen .sixbit (4 * q + r) = 3 * q + (3 * r + 3) / 4 := by rw [plen_sixbit]; omega
  rw [dlen_sixbit, p, e]
  interval_cases r <;> simp <;> omega

theorem plen_le (ty : FieldType) (l : Nat) :
    plen ty l ≤ 63 ↔ l ≤ (match ty with | .binary => 63 | .text => 63 | .sixbit => 84 | .bcdplus => 126) := by
  cases ty <;> simp only [plen, ceilDiv] <;> omega

/-! ## Packing -/

theorem bcdPack_length : ∀ d : List Byte, (bcdPack d).length = plen .bcdplus d.length
  | [] => rfl
  | [_] => by simp [bcdPack, plen, ceilDiv]
  | _ :: _ :: d => by
    have := bcdPack_length d
    simp only [bcdPack, List.length_cons, this, plen, ceilDiv]
    omega

theorem sixPack_length (d : List Byte) : (sixPack d).length = plen .sixbit d.length := by
  simp [sixPack]

/-- A packed value has the wire length of its type (40_field_codec.md R203). -/
@[simp] theorem pack_length (ty : FieldType) (d : List Byte) : (pack ty d).length = plen ty d.length := by
  cases ty
  · rfl
  · exact bcdPack_length d
  · exact sixPack_length d
  · rfl

theorem bcdUnpackWith_length (ph : Byte) (p : List Byte) : (bcdUnpackWith ph p).length = 2 * p.length := by
  induction p with
  | nil => rfl
  | cons b p ih => simp only [bcdUnpackWith, List.length_cons, ih]; omega

theorem sixUnpack_length (p : List Byte) : (sixUnpack p).length = dlen .sixbit p.length := by
  simp [sixUnpack]

theorem strip_length_le (d : List Byte) : (strip d).length ≤ d.length := by
  have := (List.dropWhile_sublist (fun b : Byte => b == 0x20) (l := d.reverse)).length_le
  simpa [strip] using this

/-- A decoded string is no longer than the decoded length of its type (40_field_codec.md R204). -/
theorem unpack_length_le (ty : FieldType) (p : List Byte) : (unpack ty p).length ≤ dlen ty p.length := by
  cases ty
  · exact Nat.le_refl _
  · refine (strip_length_le _).trans ?_
    rw [bcdUnpack, bcdUnpackWith_length]; exact Nat.le_refl _
  · refine (strip_length_le _).trans ?_
    rw [sixUnpack_length]
  · exact Nat.le_refl _

/-- Stripping drops a run of spaces at the end and nothing else. -/
theorem strip_append_spaces (d : List Byte) : ∃ k, d = strip d ++ List.replicate k 0x20 := by
  refine ⟨(d.reverse.takeWhile fun b => b == 0x20).length, ?_⟩
  have hrep : d.reverse.takeWhile (fun b => b == 0x20) =
      List.replicate (d.reverse.takeWhile fun b => b == 0x20).length 0x20 := by
    refine List.eq_replicate_of_mem fun b hb => ?_
    simpa using List.mem_takeWhile_imp hb
  have h := congrArg List.reverse (List.takeWhile_append_dropWhile (p := fun b : Byte => b == 0x20) (l := d.reverse))
  rw [List.reverse_append, List.reverse_reverse] at h
  rw [strip, ← List.reverse_replicate, ← hrep]
  exact h.symm

theorem strip_getLast (d : List Byte) : (strip d).getLast? ≠ some 0x20 := by
  rw [strip, List.getLast?_reverse]
  intro h
  have := List.head?_dropWhile_not (p := fun b : Byte => b == 0x20) (l := d.reverse)
  rw [h] at this
  simp at this

/-- Trailing spaces do not change what strip leaves. -/
theorem strip_append_replicate (d : List Byte) (k : Nat) : strip (d ++ List.replicate k 0x20) = strip d := by
  induction k with
  | zero => simp
  | succ k ih =>
    rw [List.replicate_succ', ← List.append_assoc, strip, List.reverse_append]
    simpa only [strip, List.reverse_cons, List.reverse_nil, List.nil_append, List.singleton_append, BEq.rfl,
      List.dropWhile_cons_of_pos] using ih

theorem strip_eq_self (d : List Byte) (h : d.getLast? ≠ some 0x20) : strip d = d := by
  rw [strip, List.dropWhile_eq_self_iff.2, List.reverse_reverse]
  intro hl he
  apply h
  rw [← List.head?_reverse, List.head?_eq_getElem?, List.getElem?_eq_getElem hl]
  simpa using he

/-! ## Round trips of the packers -/

theorem isBcdChar_iff (b : Byte) :
    isBcdChar b = true ↔ (0x30 ≤ b.toNat ∧ b.toNat ≤ 0x39) ∨ b = 0x20 ∨ b = 0x2D ∨ b = 0x2E := by
  simp [isBcdChar, isDigit, or_assoc]

theorem isSixChar_iff (b : Byte) : isSixChar b = true ↔ 0x20 ≤ b.toNat ∧ b.toNat ≤ 0x5F := by
  simp [isSixChar]

theorem cls_bcdplus (b : Byte) : cls b = .bcdplus ↔ isBcdChar b = true := by
  unfold cls; split <;> simp_all; split <;> simp_all; split <;> simp_all

/-- A BCD+ character's nibble is below 13 and decodes back to it, under any placeholder (40_field_codec.md R205,
R206). -/
theorem unnib_nib (ph b : Byte) (h : isBcdChar b = true) : nib b < 13 ∧ unnibWith ph (nib b) = b := by
  rw [isBcdChar_iff] at h
  rcases h with ⟨h1, h2⟩ | rfl | rfl | rfl
  · have hd : isDigit b = true := by simp [isDigit, h1, h2]
    have hn : nib b = b.toNat - 48 := by simp [nib, hd]
    refine ⟨by omega, ?_⟩
    rw [hn, unnibWith, if_pos (by omega)]
    apply BitVec.eq_of_toNat_eq
    simp only [BitVec.toNat_ofNat]
    omega
  all_goals exact ⟨by decide, rfl⟩

theorem unnib_space (ph : Byte) : unnibWith ph 0xA = 0x20 := rfl

theorem extract_high (a b : Nat) (ha : a < 16) (hb : b < 16) :
    ((BitVec.ofNat 8 (16 * a + b)).extractLsb' 4 4).toNat = a := by
  simp only [BitVec.extractLsb'_toNat, BitVec.toNat_ofNat, Nat.shiftRight_eq_div_pow]
  omega

theorem extract_low (a b : Nat) (hb : b < 16) :
    ((BitVec.ofNat 8 (16 * a + b)).extractLsb' 0 4).toNat = b := by
  simp only [BitVec.extractLsb'_toNat, BitVec.toNat_ofNat, Nat.shiftRight_eq_div_pow]
  omega

/-- BCD+ unpacking gives a packed value back, with one space after an odd number of characters. -/
theorem bcdUnpack_bcdPack (ph : Byte) : ∀ d : List Byte, (∀ b ∈ d, isBcdChar b = true) →
    bcdUnpackWith ph (bcdPack d) = d ++ List.replicate (d.length % 2) 0x20
  | [], _ => rfl
  | [a], h => by
    obtain ⟨h1, h2⟩ := unnib_nib ph a (h a (by simp))
    simp only [bcdPack, bcdUnpackWith, extract_high _ _ (by omega : nib a < 16) (by omega : 10 < 16),
      extract_low _ _ (by omega : 10 < 16), h2]
    rfl
  | a :: b :: d, h => by
    obtain ⟨h1, h2⟩ := unnib_nib ph a (h a (by simp))
    obtain ⟨h3, h4⟩ := unnib_nib ph b (h b (by simp))
    have ih := bcdUnpack_bcdPack ph d fun x hx => h x (by simp [hx])
    have hl : (a :: b :: d).length % 2 = d.length % 2 := by simp only [List.length_cons]; omega
    simp only [bcdPack, bcdUnpackWith, extract_high _ _ (by omega : nib a < 16) (by omega : nib b < 16),
      extract_low _ _ (by omega : nib b < 16), h2, h4, ih, hl, List.cons_append]

theorem map_toNat_ofNat (ds : List Nat) (h : ∀ d ∈ ds, d < 256) :
    (ds.map (BitVec.ofNat 8)).map BitVec.toNat = ds := by
  rw [List.map_map]
  conv_rhs => rw [← List.map_id ds]
  refine List.map_congr_left fun d hd => ?_
  simp [Nat.mod_eq_of_lt (h d hd)]

theorem digitsOf_lt (base n w : Nat) (hb : 0 < base) : ∀ d ∈ digitsOf base n w, d < base := by
  induction n generalizing w with
  | zero => simp [digitsOf]
  | succ n ih =>
    intro d hd
    rcases List.mem_cons.1 hd with rfl | hd
    · exact Nat.mod_lt _ hb
    · exact ih _ d hd

/-- 6-bit unpacking gives a packed value back, with one space when its length is 3 modulo 4 (40_field_codec.md R204). -/
theorem sixUnpack_sixPack (d : List Byte) (h : ∀ b ∈ d, isSixChar b = true) :
    sixUnpack (sixPack d) = d ++ List.replicate (dlen .sixbit (plen .sixbit d.length) - d.length) 0x20 := by
  have hcode : ∀ c ∈ d.map sixCode, c < 64 := by
    intro c hc
    obtain ⟨b, hb, rfl⟩ := List.mem_map.1 hc
    have := (isSixChar_iff b).1 (h b hb)
    simp only [sixCode]; omega
  have hv : valueOf 64 (d.map sixCode) < 256 ^ plen .sixbit d.length := by
    have h1 := valueOf_lt 64 (d.map sixCode) hcode
    rw [List.length_map] at h1
    refine h1.trans_le ?_
    rw [show (64 : Nat) = 2 ^ 6 from rfl, show (256 : Nat) = 2 ^ 8 from rfl, ← Nat.pow_mul, ← Nat.pow_mul]
    refine Nat.pow_le_pow_right (by decide) ?_
    rw [plen_sixbit]; omega
  have hlen : dlen .sixbit (plen .sixbit d.length) = (d.map sixCode).length +
      (dlen .sixbit (plen .sixbit d.length) - d.length) := by
    rw [List.length_map, dlen_plen_sixbit]; split <;> omega
  have hbytes : (sixPack d).map BitVec.toNat = digitsOf 256 (plen .sixbit d.length) (valueOf 64 (d.map sixCode)) :=
    map_toNat_ofNat _ (digitsOf_lt _ _ _ (by decide))
  rw [sixUnpack, hbytes, sixPack_length, valueOf_digitsOf, Nat.mod_eq_of_lt hv, hlen,
    digitsOf_valueOf 64 _ _ hcode, List.map_append, List.map_map, List.map_replicate, ← hlen]
  congr 1
  conv_rhs => rw [← List.map_id d]
  refine List.map_congr_left fun b hb => ?_
  have := (isSixChar_iff b).1 (h b hb)
  apply BitVec.eq_of_toNat_eq
  simp only [Function.comp_apply, sixCode, BitVec.toNat_ofNat, id]
  omega

end Sys2Proof.Machine
end

