-- ==== Sys2Proof/Laws/Commands.lean ====
section
/-! SUPPORT. Everything each command can do: if it answers a next state, then one of these cases holds. Later proofs
cite these and do not unfold a command again. -/

namespace Sys2Proof.Machine

/-- A command that answers `.next` answers no fault and no refusal: the next state is the one given. -/
theorem next_inj {s t : State} : (Host.Outcome.next s : Result) = .next t ↔ t = s := by
  rw [Host.Outcome.next.injEq]; exact eq_comm

/-! ## Checks -/

theorem inBound_iff (a n lim : Nat) : inBound a n lim = true ↔ a + n ≤ lim := by
  simp [inBound]

/-- The plan of a value: its effective type and wire length, or the failure (40_field_codec.md R202, R203). -/
theorem plan_ok {s : State} {g : Typelen} :
    s.plan = .ok g ↔ effType s.encMode s.policy s.value = .ok g.type ∧ g.len = plen g.type s.inLen.toNat ∧ g.len ≤ 63 := by
  unfold State.plan Config.maxPayload
  cases he : effType s.encMode s.policy s.value with
  | error c => simp
  | ok ty =>
    simp only []
    split <;> rename_i hl
    · simp only [reduceCtorEq, Except.ok.injEq, false_iff]
      rintro ⟨rfl, h1, h2⟩; omega
    · simp only [Except.ok.injEq]
      constructor
      · rintro rfl; exact ⟨rfl, rfl, by simpa using hl⟩
      · rintro ⟨rfl, h1, -⟩; cases g; simp_all

theorem plan_error {s : State} {c : StatusCode} :
    s.plan = .error c ↔ effType s.encMode s.policy s.value = .error c ∨
      ∃ ty, effType s.encMode s.policy s.value = .ok ty ∧ 63 < plen ty s.inLen.toNat ∧ c = .errLengthExceeded := by
  unfold State.plan Config.maxPayload
  cases he : effType s.encMode s.policy s.value with
  | error c' => simp
  | ok ty =>
    simp only []
    split <;> rename_i hl
    · simp [hl, eq_comm]
    · simpa using fun h => absurd h hl

/-- The codes an effective type can fail with (40_field_codec.md R202). -/
theorem effType_error {mode : Nat} {pol : Bool} {d : List Byte} {c : StatusCode} (h : effType mode pol d = .error c) :
    c = .errBadMode ∨ c = .errBadChar := by
  unfold effType at h
  split at h <;> (try split at h) <;> simp_all

theorem plan_error_code {s : State} {c : StatusCode} (h : s.plan = .error c) :
    c = .errBadMode ∨ c = .errBadChar ∨ c = .errLengthExceeded := by
  rcases plan_error.1 h with h | ⟨_, _, _, rfl⟩
  · rcases effType_error h with h | h <;> simp [h]
  · simp

/-! ## Commands -/

theorem execNop_cases {s t : State} (h : execNop s = .next t) : t = s.setStatus 0x00 :=
  next_inj.1 h

theorem execClassify_cases {s t : State} (h : execClassify s = .next t) :
    (∃ c, s.plan = .error c ∧ t = s.setStatus c.toByte) ∨
    ∃ g, s.plan = .ok g ∧ t = (s.setTagTl (encodeTypelen g)).setStatus 0x00 := by
  unfold execClassify at h
  split at h <;> rename_i x hx
  · exact .inl ⟨x, hx, next_inj.1 h⟩
  · exact .inr ⟨x, hx, next_inj.1 h⟩

theorem execEncode_cases {s t : State} (h : execEncode s = .next t) :
    (∃ c, s.plan = .error c ∧ t = s.setStatus c.toByte) ∨
    ∃ g, s.plan = .ok g ∧ t =
      ((s.setTagTl (encodeTypelen g)).setField (encodeTypelen g) (pack g.type s.value)).setStatus 0x00 := by
  unfold execEncode at h
  split at h <;> rename_i x hx
  · exact .inl ⟨x, hx, next_inj.1 h⟩
  · exact .inr ⟨x, hx, next_inj.1 h⟩

theorem execDecode_cases {s t : State} (h : execDecode s = .next t) :
    (s.outCap.toNat < dlen s.fieldTag.type s.fieldTag.len ∧ t = s.setStatus 0x40) ∨
    (dlen s.fieldTag.type s.fieldTag.len ≤ s.outCap.toNat ∧
      t = (s.setOut (unpack s.fieldTag.type s.fieldPayload)).setStatus 0x00) := by
  unfold execDecode at h
  simp only [] at h
  split at h <;> rename_i hc
  · exact .inl ⟨hc, next_inj.1 h⟩
  · exact .inr ⟨Nat.le_of_not_lt hc, next_inj.1 h⟩

theorem execTagparse_cases {s t : State} (h : execTagparse s = .next t) : t = (s.setTag s.tagTl).setStatus 0x00 :=
  next_inj.1 h

theorem execTlstep_cases {s t : State} (h : execTlstep s = .next t) :
    (4096 < s.frameLen.toNat ∧ t = s.setStatus 0x15) ∨
    (s.frameLen.toNat ≤ 4096 ∧ t = s.setStatus 0x34 ∧
      (s.frameLen.toNat < s.limit.toNat ∨ s.limit.toNat < s.cursor.toNat + 1 ∨
        (s.frameByte s.cursor.toNat ≠ 0xC1 ∧
          s.limit.toNat < s.cursor.toNat + 1 + (s.frameByte s.cursor.toNat).toNat % 64))) ∨
    (s.frameLen.toNat ≤ 4096 ∧ s.limit.toNat ≤ s.frameLen.toNat ∧ s.cursor.toNat + 1 ≤ s.limit.toNat ∧
      s.frameByte s.cursor.toNat = 0xC1 ∧ t = (s.setTagTl 0xC1).setStatus 0x02) ∨
    (s.frameLen.toNat ≤ 4096 ∧ s.limit.toNat ≤ s.frameLen.toNat ∧ s.frameByte s.cursor.toNat ≠ 0xC1 ∧
      s.cursor.toNat + 1 + (s.frameByte s.cursor.toNat).toNat % 64 ≤ s.limit.toNat ∧
      t = (((s.setTagTl (s.frameByte s.cursor.toNat)).setField (s.frameByte s.cursor.toNat)
        (s.frameBytes (s.cursor.toNat + 1) ((s.frameByte s.cursor.toNat).toNat % 64))).setCursor
          (s.cursor.toNat + 1 + (s.frameByte s.cursor.toNat).toNat % 64)).setStatus 0x00) := by
  unfold execTlstep at h
  simp only [Config.frameCap, Bool.not_eq_true', decodeTypelen_len, inBound, decide_eq_false_iff_not, isEof_iff] at h
  split at h <;> rename_i h1
  · exact .inl ⟨h1, next_inj.1 h⟩
  split at h <;> rename_i h2
  · exact .inr (.inl ⟨by omega, next_inj.1 h, .inl h2⟩)
  split at h <;> rename_i h3
  · exact .inr (.inl ⟨by omega, next_inj.1 h, .inr (.inl (by omega))⟩)
  split at h <;> rename_i h4
  · exact .inr (.inr (.inl ⟨by omega, by omega, by omega, h4, by rw [h4] at h; exact next_inj.1 h⟩))
  split at h <;> rename_i h5
  · exact .inr (.inl ⟨by omega, next_inj.1 h, .inr (.inr ⟨h4, by omega⟩)⟩)
  · exact .inr (.inr (.inr ⟨by omega, by omega, h4, by omega, next_inj.1 h⟩))

theorem execCkgen_cases {s t : State} (h : execCkgen s = .next t) :
    (4096 < s.frameLen.toNat ∧ t = s.setStatus 0x15) ∨
    (s.frameLen.toNat ≤ 4096 ∧ s.frameLen.toNat < s.rangeOff.toNat + s.rangeLen.toNat ∧ t = s.setStatus 0x34) ∨
    (s.frameLen.toNat ≤ 4096 ∧ s.rangeOff.toNat + s.rangeLen.toNat ≤ s.frameLen.toNat ∧
      t = (s.setCk (ck8 s s.rangeOff.toNat s.rangeLen.toNat)).setStatus 0x00) := by
  unfold execCkgen at h
  simp only [Config.frameCap, Bool.not_eq_true', inBound, decide_eq_false_iff_not] at h
  split at h <;> rename_i h1
  · exact .inl ⟨h1, next_inj.1 h⟩
  split at h <;> rename_i h2
  · exact .inr (.inl ⟨by omega, by omega, next_inj.1 h⟩)
  · exact .inr (.inr ⟨by omega, by omega, next_inj.1 h⟩)

theorem execCkchk_cases {s t : State} (h : execCkchk s = .next t) :
    (4096 < s.frameLen.toNat ∧ t = s.setStatus 0x15) ∨
    (s.frameLen.toNat ≤ 4096 ∧ s.frameLen.toNat < s.rangeOff.toNat + s.rangeLen.toNat ∧ t = s.setStatus 0x34) ∨
    (s.frameLen.toNat ≤ 4096 ∧ s.rangeOff.toNat + s.rangeLen.toNat ≤ s.frameLen.toNat ∧
      sum8 s s.rangeOff.toNat s.rangeLen.toNat ≠ 0 ∧ t = s.setStatus 0x33) ∨
    (s.frameLen.toNat ≤ 4096 ∧ s.rangeOff.toNat + s.rangeLen.toNat ≤ s.frameLen.toNat ∧
      sum8 s s.rangeOff.toNat s.rangeLen.toNat = 0 ∧ t = (s.setCk 0x00).setStatus 0x00) := by
  unfold execCkchk at h
  simp only [Config.frameCap, Bool.not_eq_true', inBound, decide_eq_false_iff_not] at h
  split at h <;> rename_i h1
  · exact .inl ⟨h1, next_inj.1 h⟩
  split at h <;> rename_i h2
  · exact .inr (.inl ⟨by omega, by omega, next_inj.1 h⟩)
  split at h <;> rename_i h3
  · exact .inr (.inr (.inl ⟨by omega, by omega, h3, next_inj.1 h⟩))
  · exact .inr (.inr (.inr ⟨by omega, by omega, Classical.not_not.1 h3, next_inj.1 h⟩))

theorem execBounds_cases {s t : State} (h : execBounds s = .next t) :
    (4096 < s.frameLen.toNat ∧ t = s.setStatus 0x15) ∨
    (s.frameLen.toNat ≤ 4096 ∧ s.frameLen.toNat < s.rangeOff.toNat + s.rangeLen.toNat ∧ t = s.setStatus 0x34) ∨
    (s.frameLen.toNat ≤ 4096 ∧ s.rangeOff.toNat + s.rangeLen.toNat ≤ s.frameLen.toNat ∧ t = s.setStatus 0x00) := by
  unfold execBounds at h
  simp only [Config.frameCap, Bool.not_eq_true', inBound, decide_eq_false_iff_not] at h
  split at h <;> rename_i h1
  · exact .inl ⟨h1, next_inj.1 h⟩
  split at h <;> rename_i h2
  · exact .inr (.inl ⟨by omega, by omega, next_inj.1 h⟩)
  · exact .inr (.inr ⟨by omega, by omega, next_inj.1 h⟩)

/-! ## Header, area and record checks -/

theorem lowNibble_toNat (b : Byte) : (lowNibble b).toNat = b.toNat % 16 := by
  simp [lowNibble]

theorem highNibble_toNat (b : Byte) : (highNibble b).toNat = b.toNat / 16 := by
  have := b.isLt
  simp only [highNibble, BitVec.extractLsb'_toNat, Nat.shiftRight_eq_div_pow]
  omega

theorem lowNibble_eq_one (b : Byte) : lowNibble b = 1 ↔ b.toNat % 16 = 1 := by
  rw [← BitVec.toNat_inj, lowNibble_toNat]; rfl

theorem highNibble_eq_zero (b : Byte) : highNibble b = 0 ↔ b.toNat / 16 = 0 := by
  rw [← BitVec.toNat_inj, highNibble_toNat]; rfl

theorem versionBits_eq_two (b : Byte) : b.extractLsb' 0 3 = (2 : BitVec 3) ↔ b.toNat % 8 = 2 := by
  rw [← BitVec.toNat_inj]; simp

/-- When a header passes (42_validator.md R308). -/
theorem hdrCheck_ok {s : State} {fl : Nat} :
    hdrCheck s fl = .ok () ↔ 8 ≤ fl ∧ (s.frameByte 0).toNat % 16 = 1 ∧ (s.frameByte 0).toNat / 16 = 0 ∧
      s.frameByte 6 = 0 ∧ sum8 s 0 8 = 0 := by
  unfold hdrCheck
  simp only [ne_eq, lowNibble_eq_one, highNibble_eq_zero]
  repeat' split
  all_goals simp_all

/-- The codes a header can fail with (42_validator.md R308). -/
theorem hdrCheck_error {s : State} {fl : Nat} {c : StatusCode} (h : hdrCheck s fl = .error c) :
    c = .errBounds ∨ c = .errVersion ∨ c = .errReserved ∨ c = .errPad ∨ c = .errChecksum := by
  unfold hdrCheck at h
  repeat' split at h
  all_goals simp_all

/-- When an internal-use area passes, and what size it returns (42_validator.md R309). -/
theorem iuCheck_ok {s : State} {b fl size : Nat} :
    iuCheck s b fl = .ok size ↔ b + 1 ≤ fl ∧ (s.frameByte b).toNat % 16 = 1 ∧ size = 0 := by
  unfold iuCheck
  simp only [ne_eq, lowNibble_eq_one, Bool.not_eq_true', inBound, decide_eq_false_iff_not]
  repeat' split
  all_goals simp_all
  all_goals exact eq_comm

theorem iuCheck_error {s : State} {b fl : Nat} {c : StatusCode} (h : iuCheck s b fl = .error c) :
    c = .errBounds ∨ c = .errVersion := by
  unfold iuCheck at h
  repeat' split at h
  all_goals simp_all

/-- When an info area passes, and what size it returns (42_validator.md R309). -/
theorem infoCheck_ok {s : State} {b fl size : Nat} :
    infoCheck s b fl = .ok size ↔ b + 2 ≤ fl ∧ (s.frameByte b).toNat % 16 = 1 ∧ size = 8 * (s.frameByte (b + 1)).toNat ∧
      size ≠ 0 ∧ b + size ≤ fl ∧ sum8 s b size = 0 := by
  unfold infoCheck blocks Config.block inBound
  simp only [ne_eq, lowNibble_eq_one, Bool.not_eq_true', decide_eq_false_iff_not]
  split <;> rename_i h1
  · simp; omega
  split <;> rename_i h2
  · simp [h2]
  split <;> rename_i h3
  · simp; omega
  split <;> rename_i h4
  · simp only [reduceCtorEq, false_iff]; rintro ⟨-, -, rfl, -, h, -⟩; omega
  split <;> rename_i h5
  · simp only [reduceCtorEq, false_iff]; rintro ⟨-, -, rfl, -, -, h⟩; exact h5 h
  · simp only [Except.ok.injEq]
    constructor
    · rintro rfl
      exact ⟨by omega, by simpa using h2, rfl, h3, by omega, by simpa using h5⟩
    · rintro ⟨-, -, rfl, -⟩; rfl

theorem infoCheck_error {s : State} {b fl : Nat} {c : StatusCode} (h : infoCheck s b fl = .error c) :
    c = .errBounds ∨ c = .errVersion ∨ c = .errSize ∨ c = .errChecksum := by
  unfold infoCheck at h
  simp only [] at h
  repeat' split at h
  all_goals simp_all

/-- When a multirecord record passes, and what size it returns (42_validator.md R311). -/
theorem mrCheck_ok {s : State} {c lim size : Nat} :
    mrCheck s c lim = .ok size ↔ c + 5 ≤ lim ∧ (s.frameByte (c + 1)).toNat % 8 = 2 ∧ sum8 s c 5 = 0 ∧
      size = 5 + (s.frameByte (c + 2)).toNat ∧ c + size ≤ lim ∧
      ((s.frameByte (c + 3)).toNat + sum8 s (c + 5) (s.frameByte (c + 2)).toNat) % 256 = 0 := by
  unfold mrCheck
  simp only [ne_eq, versionBits_eq_two, Bool.not_eq_true', inBound, decide_eq_false_iff_not]
  split <;> rename_i h1
  · simp; omega
  split <;> rename_i h2
  · simp [h2]
  split <;> rename_i h3
  · simp [h3]
  split <;> rename_i h4
  · simp only [reduceCtorEq, false_iff]; rintro ⟨-, -, -, rfl, h, -⟩; omega
  split <;> rename_i h5
  · simp [h5]
  · simp only [Except.ok.injEq]
    constructor
    · rintro rfl
      exact ⟨by omega, by simpa using h2, by simpa using h3, rfl, by omega, by simpa using h5⟩
    · rintro ⟨-, -, -, rfl, -⟩; rfl

theorem mrCheck_error {s : State} {c lim : Nat} {e : StatusCode} (h : mrCheck s c lim = .error e) :
    e = .errBounds ∨ e = .errVersion ∨ e = .errChecksum := by
  unfold mrCheck at h
  simp only [] at h
  repeat' split at h
  all_goals simp_all

theorem areaCheck_info {s : State} {slot b fl : Nat} (h : slot = 1 ∨ slot = 2 ∨ slot = 3) :
    areaCheck s slot b fl = infoCheck s b fl := by
  rcases h with rfl | rfl | rfl <;> rfl

theorem areaCheck_error {s : State} {slot b fl : Nat} {c : StatusCode} (h : areaCheck s slot b fl = .error c) :
    c = .errBounds ∨ c = .errVersion ∨ c = .errSize ∨ c = .errChecksum := by
  unfold areaCheck at h
  split at h
  · rcases iuCheck_error h with h | h <;> simp [h]
  · exact infoCheck_error h
  · exact infoCheck_error h
  · exact infoCheck_error h
  · rcases mrCheck_error h with h | h | h <;> simp [h]

/-- The area or record a check accepts ends inside the bound (42_validator.md R315). -/
theorem areaCheck_inside {s : State} {slot b fl size : Nat} (h : areaCheck s slot b fl = .ok size) : b + size ≤ fl := by
  unfold areaCheck at h
  split at h
  · have := iuCheck_ok.1 h; omega
  · exact (infoCheck_ok.1 h).2.2.2.2.1
  · exact (infoCheck_ok.1 h).2.2.2.2.1
  · exact (infoCheck_ok.1 h).2.2.2.2.1
  · exact (mrCheck_ok.1 h).2.2.2.2.1

theorem execHdrchk_cases {s t : State} (h : execHdrchk s = .next t) :
    (4096 < s.frameLen.toNat ∧ t = s.setStatus 0x15) ∨
    (s.frameLen.toNat ≤ 4096 ∧ ∃ c, hdrCheck s s.frameLen.toNat = .error c ∧ t = s.setStatus c.toByte) ∨
    (s.frameLen.toNat ≤ 4096 ∧ hdrCheck s s.frameLen.toNat = .ok () ∧ t = s.setStatus 0x00) := by
  unfold execHdrchk Config.frameCap at h
  simp only [] at h
  split at h <;> rename_i h1
  · exact .inl ⟨h1, next_inj.1 h⟩
  split at h <;> rename_i x hx
  · exact .inr (.inl ⟨by omega, x, hx, next_inj.1 h⟩)
  · exact .inr (.inr ⟨by omega, hx, next_inj.1 h⟩)

theorem execArealookup_cases {s t : State} (h : execArealookup s = .next t) :
    (4096 < s.frameLen.toNat ∧ t = s.setStatus 0x15) ∨
    (s.frameLen.toNat ≤ 4096 ∧ 4 < s.slot ∧ t = s.setStatus 0x14) ∨
    (s.frameLen.toNat ≤ 4096 ∧ s.slot ≤ 4 ∧ ∃ c, hdrCheck s s.frameLen.toNat = .error c ∧ t = s.setStatus c.toByte) ∨
    (s.frameLen.toNat ≤ 4096 ∧ s.slot ≤ 4 ∧ hdrCheck s s.frameLen.toNat = .ok () ∧ s.frameByte (1 + s.slot) = 0 ∧
      t = (s.setArea 0 0).setStatus 0x01) ∨
    (s.frameLen.toNat ≤ 4096 ∧ s.slot ≤ 4 ∧ hdrCheck s s.frameLen.toNat = .ok () ∧ s.frameByte (1 + s.slot) ≠ 0 ∧
      ∃ c, areaCheck s s.slot (blocks (s.frameByte (1 + s.slot))) s.frameLen.toNat = .error c ∧ t = s.setStatus c.toByte) ∨
    (s.frameLen.toNat ≤ 4096 ∧ s.slot ≤ 4 ∧ hdrCheck s s.frameLen.toNat = .ok () ∧ s.frameByte (1 + s.slot) ≠ 0 ∧
      ∃ size, areaCheck s s.slot (blocks (s.frameByte (1 + s.slot))) s.frameLen.toNat = .ok size ∧
        ((s.slot = 4 ∧ t = ((s.setMr (blocks (s.frameByte (1 + s.slot)))).setArea
            (blocks (s.frameByte (1 + s.slot))) size).setStatus 0x00) ∨
          (s.slot ≠ 4 ∧ t = (s.setArea (blocks (s.frameByte (1 + s.slot))) size).setStatus 0x00))) := by
  unfold execArealookup Config.frameCap at h
  simp only [] at h
  split at h <;> rename_i h1
  · exact .inl ⟨h1, next_inj.1 h⟩
  split at h <;> rename_i h2
  · exact .inr (.inl ⟨by omega, h2, next_inj.1 h⟩)
  split at h <;> rename_i x hx
  · exact .inr (.inr (.inl ⟨by omega, by omega, x, hx, next_inj.1 h⟩))
  split at h <;> rename_i h3
  · exact .inr (.inr (.inr (.inl ⟨by omega, by omega, hx, h3, next_inj.1 h⟩)))
  split at h <;> rename_i y hy
  · exact .inr (.inr (.inr (.inr (.inl ⟨by omega, by omega, hx, h3, y, hy, next_inj.1 h⟩))))
  split at h <;> rename_i h4
  · exact .inr (.inr (.inr (.inr (.inr ⟨by omega, by omega, hx, h3, y, hy, .inl ⟨h4, next_inj.1 h⟩⟩))))
  · exact .inr (.inr (.inr (.inr (.inr ⟨by omega, by omega, hx, h3, y, hy, .inr ⟨h4, next_inj.1 h⟩⟩))))

theorem execMrchk_cases {s t : State} (h : execMrchk s = .next t) :
    (4096 < s.frameLen.toNat ∧ t = s.setStatus 0x15) ∨
    (s.frameLen.toNat ≤ 4096 ∧ s.frameLen.toNat < s.limit.toNat ∧ t = s.setStatus 0x34) ∨
    (s.frameLen.toNat ≤ 4096 ∧ s.limit.toNat ≤ s.frameLen.toNat ∧
      ∃ c, mrCheck s s.cursor.toNat s.limit.toNat = .error c ∧ t = s.setStatus c.toByte) ∨
    (s.frameLen.toNat ≤ 4096 ∧ s.limit.toNat ≤ s.frameLen.toNat ∧
      ∃ size, mrCheck s s.cursor.toNat s.limit.toNat = .ok size ∧
        t = (((s.setMr s.cursor.toNat).setArea s.cursor.toNat size).setCursor (s.cursor.toNat + size)).setStatus 0x00) := by
  unfold execMrchk Config.frameCap at h
  simp only [] at h
  split at h <;> rename_i h1
  · exact .inl ⟨h1, next_inj.1 h⟩
  split at h <;> rename_i h2
  · exact .inr (.inl ⟨by omega, h2, next_inj.1 h⟩)
  split at h <;> rename_i x hx
  · exact .inr (.inr (.inl ⟨by omega, by omega, x, hx, next_inj.1 h⟩))
  · exact .inr (.inr (.inr ⟨by omega, by omega, x, hx, next_inj.1 h⟩))

end Sys2Proof.Machine
end

