-- ==== Sys2Proof/Laws/Mmio.lean ====
section
/-! SUPPORT. The register map read from both sides: what stands at each register's and buffer's offsets, and where
what stands at an offset lies; and what a store changes of what a read sees. -/

namespace Sys2Proof.Machine

/-! ## The map -/

@[simp] theorem placeAt_reg8 (r : Reg8) : placeAt (Reg8.offset r) = .reg8 r := by
  cases r <;> rfl

@[simp] theorem placeAt_low (r : Reg16) : placeAt (Reg16.offset r) = .low r := by
  cases r <;> rfl

@[simp] theorem placeAt_high (r : Reg16) : placeAt (Reg16.offset r + 1) = .high r := by
  cases r <;> rfl

/-- Where a place lies: an offset determines its place and the place its offset. -/
theorem placeAt_offset (a : Nat) : match placeAt a with
    | .reg8 r => a = Reg8.offset r
    | .low r => a = Reg16.offset r
    | .high r => a = Reg16.offset r + 1
    | .buf b i => a = Buffer.base b + i ∧ i < Buffer.capacity b
    | .reserved => True := by
  unfold placeAt
  split
  · rename_i p r hp
    split at hp <;> rename_i r' hr
    · cases hp; have := List.find?_some hr; exact (beq_iff_eq.1 this).symm
    · split at hp <;> rename_i hr'
      · cases hp
      · split at hp <;> rename_i hr''
        · cases hp
        · split at hp <;> cases hp
  · rename_i p r hp
    split at hp <;> rename_i r' hr
    · cases hp
    · split at hp <;> rename_i hr'
      · cases hp; have := List.find?_some hr'; exact (beq_iff_eq.1 this).symm
      · split at hp <;> rename_i hr''
        · cases hp
        · split at hp <;> cases hp
  · rename_i p r hp
    split at hp <;> rename_i r' hr
    · cases hp
    · split at hp <;> rename_i hr'
      · cases hp
      · split at hp <;> rename_i hr''
        · cases hp; have := List.find?_some hr''; exact (beq_iff_eq.1 this).symm
        · split at hp <;> cases hp
  · rename_i p b i hp
    split at hp <;> rename_i r' hr
    · cases hp
    · split at hp <;> rename_i hr'
      · cases hp
      · split at hp <;> rename_i hr''
        · cases hp
        · split at hp <;> rename_i hb
          · cases hp
            have := List.find?_some hb
            simp only [Buffer.covers, Bool.and_eq_true, decide_eq_true_eq] at this
            omega
          · cases hp
  · trivial

/-- Two offsets at which the same thing stands are the same offset, reserved offsets apart. -/
theorem placeAt_inj {a b : Nat} (h : placeAt a = placeAt b) (hr : placeAt a ≠ .reserved) : a = b := by
  have ha := placeAt_offset a
  have hb := placeAt_offset b
  rw [← h] at hb
  cases hp : placeAt a <;> rw [hp] at ha hb <;> simp_all

@[simp] theorem placeAt_buf (b : Buffer) (i : Nat) (h : i < Buffer.capacity b) :
    placeAt (Buffer.base b + i) = .buf b i := by
  have h8 : (allReg8.find? fun r => Reg8.offset r == Buffer.base b + i) = none := by
    rw [List.find?_eq_none]
    intro r _
    cases r <;> cases b <;> simp [Reg8.offset, Buffer.base] <;> omega
  have hl : (allReg16.find? fun r => Reg16.offset r == Buffer.base b + i) = none := by
    rw [List.find?_eq_none]
    intro r _
    cases r <;> cases b <;> simp [Reg16.offset, Buffer.base] <;> omega
  have hh : (allReg16.find? fun r => Reg16.offset r + 1 == Buffer.base b + i) = none := by
    rw [List.find?_eq_none]
    intro r _
    cases r <;> cases b <;> simp [Reg16.offset, Buffer.base] <;> omega
  have hc : ∀ k : Buffer, Buffer.covers k (Buffer.base b + i) = decide (k = b) := by
    intro k
    rw [Bool.eq_iff_iff]
    simp only [Buffer.covers, Bool.and_eq_true, decide_eq_true_eq]
    cases k <;> cases b <;>
      simp only [Buffer.base, Buffer.capacity, Config.fieldCap, Config.outCapMax, Config.inCap, Config.frameCap,
        reduceCtorEq, iff_false, iff_true] at h ⊢ <;> omega
  have hb : (allBuffers.find? fun k => Buffer.covers k (Buffer.base b + i)) = some b := by
    rw [funext hc]; cases b <;> rfl
  simp only [placeAt, h8, hl, hh, hb, Nat.add_sub_cancel_left]

/-- An offset at which nothing stands is none of the registers' and lies in no buffer. -/
theorem placeAt_reserved {a : Nat} (h : placeAt a = .reserved) :
    (∀ r, a ≠ Reg8.offset r) ∧ (∀ r, a ≠ Reg16.offset r ∧ a ≠ Reg16.offset r + 1) ∧
      ∀ b, ¬(Buffer.base b ≤ a ∧ a < Buffer.base b + Buffer.capacity b) := by
  refine ⟨fun r e => ?_, fun r => ⟨fun e => ?_, fun e => ?_⟩, fun b hb => ?_⟩
  · rw [e, placeAt_reg8] at h; cases h
  · rw [e, placeAt_low] at h; cases h
  · rw [e, placeAt_high] at h; cases h
  · have e : a = Buffer.base b + (a - Buffer.base b) := by omega
    rw [e, placeAt_buf b _ (by omega)] at h; cases h

/-! ## Bytes of a 16-bit register -/

theorem halfOf_toNat (hi lo : Byte) : (halfOf hi lo).toNat = 256 * hi.toNat + lo.toNat := by
  have h : (halfOf hi lo).toNat = hi.toNat <<< 8 ||| lo.toNat := BitVec.toNat_append hi lo
  rw [h, ← Nat.shiftLeft_add_eq_or_of_lt lo.isLt, Nat.shiftLeft_eq]
  omega

@[simp] theorem lowByte_halfOf (hi lo : Byte) : lowByte (halfOf hi lo) = lo := by
  apply BitVec.eq_of_toNat_eq
  have := lo.isLt
  simp only [lowByte, BitVec.extractLsb'_toNat, halfOf_toNat, Nat.shiftRight_zero]
  omega

@[simp] theorem highByte_halfOf (hi lo : Byte) : highByte (halfOf hi lo) = hi := by
  apply BitVec.eq_of_toNat_eq
  have := lo.isLt
  have := hi.isLt
  simp only [highByte, BitVec.extractLsb'_toNat, halfOf_toNat, Nat.shiftRight_eq_div_pow]
  omega

/-- A 16-bit register's value is its low byte plus 256 times its high byte (20_memory.md R106). -/
theorem half_toNat (v : Half) : v.toNat = (lowByte v).toNat + 256 * (highByte v).toNat := by
  have := v.isLt
  simp [lowByte, highByte, Nat.shiftRight_eq_div_pow]
  omega

/-! ## Registers and buffers -/

@[simp] theorem get8_set8 (s : State) (r q : Reg8) (b : Byte) :
    (s.set8 r b).get8 q = if q = r then b else s.get8 q := by
  cases r <;> cases q <;> rfl

@[simp] theorem get16_set8 (s : State) (r : Reg8) (q : Reg16) (b : Byte) : (s.set8 r b).get16 q = s.get16 q := by
  cases r <;> cases q <;> rfl

@[simp] theorem getBuf_set8 (s : State) (r : Reg8) (k : Buffer) (b : Byte) : (s.set8 r b).getBuf k = s.getBuf k := by
  cases r <;> cases k <;> rfl

@[simp] theorem get8_set16 (s : State) (r : Reg16) (q : Reg8) (v : Half) : (s.set16 r v).get8 q = s.get8 q := by
  cases r <;> cases q <;> rfl

@[simp] theorem get16_set16 (s : State) (r q : Reg16) (v : Half) :
    (s.set16 r v).get16 q = if q = r then v else s.get16 q := by
  cases r <;> cases q <;> rfl

@[simp] theorem getBuf_set16 (s : State) (r : Reg16) (k : Buffer) (v : Half) : (s.set16 r v).getBuf k = s.getBuf k := by
  cases r <;> cases k <;> rfl

@[simp] theorem get8_setBuf (s : State) (k : Buffer) (q : Reg8) (m : Memory) : (s.setBuf k m).get8 q = s.get8 q := by
  cases k <;> cases q <;> rfl

@[simp] theorem get16_setBuf (s : State) (k : Buffer) (q : Reg16) (m : Memory) :
    (s.setBuf k m).get16 q = s.get16 q := by
  cases k <;> cases q <;> rfl

@[simp] theorem getBuf_setBuf (s : State) (k j : Buffer) (m : Memory) :
    (s.setBuf k m).getBuf j = if j = k then m else s.getBuf j := by
  cases k <;> cases j <;> rfl

/-- A store touches neither what the host has still to do nor what it has read. -/
theorem mmioStore_port (s : State) (off : Offset) (b : Byte) :
    (mmioStore s off b).pending = s.pending ∧ (mmioStore s off b).hostReads = s.hostReads := by
  unfold mmioStore
  split
  · rename_i r _; split <;> cases r <;> exact ⟨rfl, rfl⟩
  · rename_i r _; split <;> cases r <;> exact ⟨rfl, rfl⟩
  · rename_i r _; split <;> cases r <;> exact ⟨rfl, rfl⟩
  · rename_i k i _; split <;> cases k <;> exact ⟨rfl, rfl⟩
  · exact ⟨rfl, rfl⟩

/-- A store is seen at its own offset only. -/
theorem mmioRead_mmioStore_ne (s : State) {off a : Offset} (b : Byte) (h : a ≠ off) :
    mmioRead (mmioStore s off b) a = mmioRead s a := by
  have hn : off.toNat ≠ a.toNat := fun e => h (BitVec.eq_of_toNat_eq e.symm)
  have hp : placeAt off.toNat = placeAt a.toNat → placeAt off.toNat = .reserved := fun e =>
    Classical.byContradiction fun hr => hn (placeAt_inj e hr)
  unfold mmioStore mmioRead
  cases hoff : placeAt off.toNat <;> cases ha : placeAt a.toNat <;> simp only [] <;> (try split) <;>
    simp_all <;> split <;> simp_all <;> exact fun e => absurd e.symm hp

/-- What a store leaves at its own offset: the byte, hardwired bits apart, where the host may write; else what stood
there. -/
theorem mmioRead_mmioStore_self (s : State) (off : Offset) (b : Byte) :
    mmioRead (mmioStore s off b) off =
      match placeAt off.toNat with
      | .reg8 r => if Reg8.hostWritable r then b &&& Reg8.mask r else mmioRead s off
      | .low r => if Reg16.hostWritable r then b else mmioRead s off
      | .high r => if Reg16.hostWritable r then b else mmioRead s off
      | .buf k _ => if Buffer.hostWritable k then b else mmioRead s off
      | .reserved => 0x00 := by
  unfold mmioStore mmioRead
  cases hoff : placeAt off.toNat <;> simp only [] <;> (try split) <;>
    simp_all [BitVec.and_assoc]

end Sys2Proof.Machine
end

