-- ==== Sys2Proof/Laws/PerInstr.lean ====
section
/-! SUPPORT. One fact per command: its byte is the opcode map's row, and the decoder reads it back. -/

namespace Sys2Proof.Laws

/-- A command is well-formed, its byte has RSV 0 and a defined opcode, and that byte, alone or numbered as a row of the
opcode table, decodes to it (30_encoding.md R150, R151). -/
def OpcodeMap.Statement (i : Instr) : Prop :=
  i.wf = true ∧ (CmdFields.ofByte (encodeByte i)).wf = true ∧ decode (encode i) = .ok (i, []) ∧
    decodeTableWord 8 (encodeByte i).toNat = some i

theorem OpcodeMap.nop : OpcodeMap.Statement .nop :=
  ⟨rfl, rfl, rfl, rfl⟩

theorem OpcodeMap.classify : OpcodeMap.Statement .classify :=
  ⟨rfl, rfl, rfl, rfl⟩

theorem OpcodeMap.encode : OpcodeMap.Statement .encode :=
  ⟨rfl, rfl, rfl, rfl⟩

theorem OpcodeMap.decode : OpcodeMap.Statement .decode :=
  ⟨rfl, rfl, rfl, rfl⟩

theorem OpcodeMap.tagparse : OpcodeMap.Statement .tagparse :=
  ⟨rfl, rfl, rfl, rfl⟩

theorem OpcodeMap.tlstep : OpcodeMap.Statement .tlstep :=
  ⟨rfl, rfl, rfl, rfl⟩

theorem OpcodeMap.ckgen : OpcodeMap.Statement .ckgen :=
  ⟨rfl, rfl, rfl, rfl⟩

theorem OpcodeMap.ckchk : OpcodeMap.Statement .ckchk :=
  ⟨rfl, rfl, rfl, rfl⟩

theorem OpcodeMap.bounds : OpcodeMap.Statement .bounds :=
  ⟨rfl, rfl, rfl, rfl⟩

theorem OpcodeMap.hdrchk : OpcodeMap.Statement .hdrchk :=
  ⟨rfl, rfl, rfl, rfl⟩

theorem OpcodeMap.arealookup : OpcodeMap.Statement .arealookup :=
  ⟨rfl, rfl, rfl, rfl⟩

theorem OpcodeMap.mrchk : OpcodeMap.Statement .mrchk :=
  ⟨rfl, rfl, rfl, rfl⟩

end Sys2Proof.Laws
end

