-- ==== Sys2Proof/Laws/Safety.lean ====
section
/-! SUPPORT. The statements' words beside the model's own: the map's writable and reserved offsets, sums, valid headers,
areas and records; and which bytes of FRAME the checks read. -/

namespace Sys2Proof.Machine

/-! ## Sums -/

theorem byteSum_eq_sum (bs : List Byte) : byteSum bs = (bs.map BitVec.toNat).sum := by
  induction bs with
  | nil => rfl
  | cons b bs ih => simp [ih]

theorem sum8_eq_frameSum (s : State) (a n : Nat) : sum8 s a n = frameSum s a n % 256 := by
  rw [sum8, byteSum_eq_sum, State.frameBytes, Memory.readBytes_eq_map, List.map_map]
  rfl

theorem frameSum_succ (s : State) (a n : Nat) : frameSum s a (n + 1) = frameSum s a n + (s.frame.read (a + n)).toNat := by
  simp [frameSum, List.range_succ]

/-! ## The checks, in the statements' words -/

/-- A header is valid when the frame is of legal length and the model's header check accepts it. -/
theorem headerValid_iff (s : State) :
    headerValid s ↔ s.frameLen.toNat ≤ 4096 ∧ hdrCheck s s.frameLen.toNat = .ok () := by
  rw [hdrCheck_ok, headerValid, ← sum8_eq_frameSum]
  rfl

/-- An info area is valid when the model's check accepts it. -/
theorem infoAreaValid_iff (s : State) (b fl : Nat) :
    infoAreaValid s b fl ↔ infoCheck s b fl = .ok (8 * (s.frame.read (b + 1)).toNat) := by
  rw [infoCheck_ok, infoAreaValid, sum8_eq_frameSum]
  unfold State.frameByte
  constructor
  · rintro ⟨h1, h2, h3, h4, h5⟩; exact ⟨h1, h2, rfl, by omega, h4, h5⟩
  · rintro ⟨h1, h2, _, h3, h4, h5⟩; exact ⟨h1, h2, by omega, h4, h5⟩

/-- A multirecord record is valid when the model's check accepts it. -/
theorem recordValid_iff (s : State) (c lim : Nat) :
    recordValid s c lim ↔ mrCheck s c lim = .ok (5 + (s.frame.read (c + 2)).toNat) := by
  rw [mrCheck_ok, recordValid, sum8_eq_frameSum, sum8_eq_frameSum]
  unfold State.frameByte
  constructor
  · rintro ⟨h1, h2, h3, h4, h5⟩; exact ⟨h1, h2, h3, rfl, by omega, by omega⟩
  · rintro ⟨h1, h2, h3, _, h4, h5⟩; exact ⟨h1, h2, h3, by omega, by omega⟩

/-! ## What the checks read of FRAME -/

/-- A header check reads FRAME[0 .. 7] only, and only below the frame length. -/
theorem hdrCheck_congr {s s' : State} {fl : Nat} (h : ∀ k, k < 8 → k < fl → s.frame.read k = s'.frame.read k) :
    hdrCheck s fl = hdrCheck s' fl := by
  unfold hdrCheck State.frameByte
  by_cases h1 : fl < 8
  · rw [if_pos h1, if_pos h1]
  · rw [h 0 (by omega) (by omega), h 6 (by omega) (by omega),
      sum8_congr (s := s) (s' := s') (a := 0) (n := 8) fun k _ _ => h k (by omega) (by omega)]

/-- A record check reads the record's bytes only, and only below the bound. -/
theorem mrCheck_congr {s s' : State} {c lim : Nat}
    (h : ∀ k, c ≤ k → k < recordEnd s c → k < lim → s.frame.read k = s'.frame.read k) :
    mrCheck s c lim = mrCheck s' c lim := by
  unfold recordEnd at h
  unfold mrCheck inBound State.frameByte
  by_cases h1 : c + 5 ≤ lim
  · have e := h (c + 2) (by omega) (by omega) (by omega)
    rw [e] at h
    rw [h (c + 1) (by omega) (by omega) (by omega), e, h (c + 3) (by omega) (by omega) (by omega),
      sum8_congr (s := s) (s' := s') (a := c) (n := 5) fun k _ _ => h k (by omega) (by omega) (by omega)]
    simp only []
    by_cases h2 : c + 5 + (s'.frame.read (c + 2)).toNat ≤ lim
    · rw [sum8_congr (s := s) (s' := s') (a := c + 5) (n := (s'.frame.read (c + 2)).toNat) fun k _ _ =>
        h k (by omega) (by omega) (by omega)]
    · simp [h2]
  · simp [h1]

/-- An info area check reads the area's bytes only, and only below the bound. -/
theorem infoCheck_congr {s s' : State} {b fl : Nat}
    (h : ∀ k, b ≤ k → k < b + max 2 (8 * (s.frame.read (b + 1)).toNat) → k < fl → s.frame.read k = s'.frame.read k) :
    infoCheck s b fl = infoCheck s' b fl := by
  unfold infoCheck inBound State.frameByte
  by_cases h1 : b + 2 ≤ fl
  · have e := h (b + 1) (by omega) (by omega) (by omega)
    rw [e] at h
    rw [h b (by omega) (by omega) (by omega), e]
    simp only []
    by_cases h2 : b + blocks (s'.frame.read (b + 1)) ≤ fl
    · rw [sum8_congr (s := s) (s' := s') (a := b) (n := blocks (s'.frame.read (b + 1))) fun k _ hk =>
        h k (by omega) (by unfold blocks Config.block at hk; omega) (by omega)]
    · simp [h2]
  · simp [h1]

/-- An internal-use area check reads the version byte only, and only below the bound. -/
theorem iuCheck_congr {s s' : State} {b fl : Nat} (h : b < fl → s.frame.read b = s'.frame.read b) :
    iuCheck s b fl = iuCheck s' b fl := by
  unfold iuCheck inBound State.frameByte
  by_cases h1 : b + 1 ≤ fl
  · rw [h (by omega)]
  · simp [h1]

/-- The check of any slot's area reads the area's bytes only, and only below the bound. -/
theorem areaCheck_congr {s s' : State} {slot b fl : Nat}
    (h : ∀ k, b ≤ k → k < areaEnd s slot b → k < fl → s.frame.read k = s'.frame.read k) :
    areaCheck s slot b fl = areaCheck s' slot b fl := by
  unfold areaCheck
  split
  · exact iuCheck_congr (h b (Nat.le_refl b) (Nat.lt_succ_self b))
  · exact infoCheck_congr h
  · exact infoCheck_congr h
  · exact infoCheck_congr h
  · refine mrCheck_congr fun k h1 h2 h3 => h k h1 ?_ h3
    rwa [areaEnd]
    all_goals assumption

/-! ## The map -/

/-- The offsets where a host write is stored are those of what the host may write. -/
theorem storedOffset_eq (a : Nat) (h : a < 8192) (h0 : a ≠ 0) : storedOffset a = (match placeAt a with
    | .reg8 r => Reg8.hostWritable r
    | .low r => Reg16.hostWritable r
    | .high r => Reg16.hostWritable r
    | .buf b _ => Buffer.hostWritable b
    | .reserved => false) := by
  have ho := placeAt_offset a
  cases hp : placeAt a <;> rw [hp] at ho
  · rename_i r
    simp only at ho ⊢
    cases r <;> simp only [Reg8.offset] at ho <;> subst ho <;> first | rfl | exact absurd rfl h0
  · rename_i r
    simp only at ho ⊢
    cases r <;> simp only [Reg16.offset] at ho <;> subst ho <;> rfl
  · rename_i r
    simp only at ho ⊢
    cases r <;> simp only [Reg16.offset] at ho <;> subst ho <;> rfl
  · rename_i b i
    obtain ⟨h1, h2⟩ := ho
    cases b <;>
      simp only [Buffer.base, Buffer.capacity, Buffer.hostWritable, Config.fieldCap, Config.outCapMax, Config.inCap,
        Config.frameCap] at h1 h2 ⊢ <;>
      simp only [storedOffset, Bool.or_eq_true, Bool.and_eq_true, Bool.or_eq_false_iff, Bool.and_eq_false_iff,
        beq_iff_eq, decide_eq_true_eq, decide_eq_false_iff_not, beq_eq_false_iff_ne] <;>
      omega
  · obtain ⟨h1, h2, h3⟩ := placeAt_reserved hp
    have f1 := h1 .ctrl; have f2 := h1 .inLen; have f3 := h1 .outCap; have f4 := h1 .fieldTl; have f5 := h1 .tagTl
    have g1 := h2 .frameLen; have g2 := h2 .rangeOff; have g3 := h2 .rangeLen
    have g4 := h2 .cursor; have g5 := h2 .limit
    have b1 := h3 .fieldBuf; have b2 := h3 .inBuf; have b3 := h3 .frame
    simp only [Reg8.offset, Reg16.offset, Buffer.base, Buffer.capacity, Config.fieldCap, Config.inCap,
      Config.frameCap] at *
    simp only [storedOffset, Bool.or_eq_false_iff, Bool.and_eq_false_iff, decide_eq_false_iff_not,
      beq_eq_false_iff_ne]
    omega

/-- The reserved offsets are those at which nothing stands. -/
theorem reservedOffset_iff (a : Nat) (h : a < 8192) : reservedOffset a = true ↔ placeAt a = .reserved := by
  constructor
  · intro hr
    have ho := placeAt_offset a
    simp only [reservedOffset, Bool.or_eq_true, Bool.and_eq_true, beq_iff_eq, decide_eq_true_eq] at hr
    cases hp : placeAt a <;> rw [hp] at ho
    · rename_i r; cases r <;> simp only [Reg8.offset] at ho <;> omega
    · rename_i r; cases r <;> simp only [Reg16.offset] at ho <;> omega
    · rename_i r; cases r <;> simp only [Reg16.offset] at ho <;> omega
    · rename_i b i
      cases b <;>
        simp only [Buffer.base, Buffer.capacity, Config.fieldCap, Config.outCapMax, Config.inCap,
          Config.frameCap] at ho <;>
        omega
  · intro hp
    obtain ⟨h1, h2, h3⟩ := placeAt_reserved hp
    have f0 := h1 .cmd; have f1 := h1 .status; have f2 := h1 .ctrl; have f3 := h1 .inLen; have f4 := h1 .outCap
    have f5 := h1 .outLen; have f6 := h1 .fieldTl; have f7 := h1 .tagTl; have f8 := h1 .tagType
    have f9 := h1 .tagLen; have f10 := h1 .tagFlags; have f11 := h1 .tagDlen; have f12 := h1 .ckResult
    have f13 := h1 .mrType; have f14 := h1 .mrFlags
    have g1 := h2 .frameLen; have g2 := h2 .rangeOff; have g3 := h2 .rangeLen; have g4 := h2 .cursor
    have g5 := h2 .limit; have g6 := h2 .areaPtr; have g7 := h2 .areaSize
    have b1 := h3 .fieldBuf; have b2 := h3 .inBuf; have b3 := h3 .frame; have b4 := h3 .outBuf
    simp only [Reg8.offset, Reg16.offset, Buffer.base, Buffer.capacity, Config.fieldCap, Config.inCap,
      Config.frameCap, Config.outCapMax] at *
    simp only [reservedOffset, Bool.or_eq_true, Bool.and_eq_true, beq_iff_eq, decide_eq_true_eq]
    omega

end Sys2Proof.Machine
end

