-- ==== Sys2Proof/Laws/Step.lean ====
section
/-! SUPPORT. What a step and a host event can do. -/

namespace Sys2Proof.Machine

/-- A step performs the next pending event. -/
theorem step_cons {s : State} {e : HostEvent} {es : List HostEvent} (h : s.pending = e :: es) :
    step s = hostEvent e (s.setPending es) := by
  simp only [step, h]

/-- A host write to an offset other than CMD's is a store. -/
theorem hostWrite_store {off : Offset} (h : off ≠ 0x000) (b : Byte) (s : State) :
    hostWrite off b s = .next (mmioStore s off b) :=
  if_neg h

/-- A host write to CMD stores the byte and runs a command. -/
theorem hostWrite_cmd (b : Byte) (s : State) : hostWrite 0x000 b s = runCommand b (s.setCmd b) :=
  if_pos rfl

/-- A command byte runs its command's meaning or the illegal command. -/
theorem runCommand_cases (b : Byte) (s : State) :
    (∃ i, decodeByte b = .ok i ∧ runCommand b s = exec i s) ∨
    (∃ e, decodeByte b = .error e ∧ runCommand b s = .next (s.setStatus 0x11)) := by
  unfold runCommand
  cases h : decodeByte b with
  | ok i => exact .inl ⟨i, rfl, rfl⟩
  | error e => exact .inr ⟨e, rfl, rfl⟩

/-- Everything a step can do: hold, read, store, run a command, refuse an illegal byte, reset. -/
theorem step_cases {s t : State} (h : step s = .next t) :
    (s.pending = [] ∧ t = s) ∨
    ∃ es, (∃ off, s.pending = .read off :: es ∧
        t = { s with pending := es, hostReads := s.hostReads ++ [mmioRead s off] }) ∨
      (∃ off b, s.pending = .write off b :: es ∧ off ≠ 0x000 ∧ t = mmioStore (s.setPending es) off b) ∨
      (∃ b i, s.pending = .write 0x000 b :: es ∧ decodeByte b = .ok i ∧
        exec i ((s.setPending es).setCmd b) = .next t) ∨
      (∃ b e, s.pending = .write 0x000 b :: es ∧ decodeByte b = .error e ∧
        t = ((s.setPending es).setCmd b).setStatus 0x11) ∨
      (s.pending = .reset :: es ∧ t = { State.reset with pending := es, hostReads := s.hostReads }) := by
  cases hp : s.pending with
  | nil =>
    left
    simp only [step, hp] at h
    exact ⟨rfl, next_inj.1 h⟩
  | cons e es =>
    right
    refine ⟨es, ?_⟩
    rw [step_cons hp] at h
    cases e with
    | read off => exact .inl ⟨off, rfl, next_inj.1 h⟩
    | reset => exact .inr (.inr (.inr (.inr ⟨rfl, next_inj.1 h⟩)))
    | write off b =>
      right
      by_cases h0 : off = 0x000
      · subst h0
        change hostWrite 0x000 b (s.setPending es) = .next t at h
        rw [hostWrite_cmd] at h
        rcases runCommand_cases b ((s.setPending es).setCmd b) with ⟨i, hd, hr⟩ | ⟨e, hd, hr⟩
        · exact .inr (.inl ⟨b, i, rfl, hd, hr ▸ h⟩)
        · exact .inr (.inr (.inl ⟨b, e, rfl, hd, next_inj.1 (hr ▸ h)⟩))
      · left
        change hostWrite off b (s.setPending es) = .next t at h
        rw [hostWrite_store h0] at h
        exact ⟨off, b, rfl, h0, next_inj.1 h⟩

end Sys2Proof.Machine
end

