-- ==== Sys2Proof/Tests/Slice0.lean ====
section
/-! SUPPORT. Tests and witnesses. Expected values are the spec's: its encoding tables (30_encoding.md) and its vectors
(95_test_vectors.md, the section named at each test), never the model's own answers. A `witness_` theorem shows a
concrete state that meets every hypothesis of the statement it is named after. -/

open Sys2Proof Sys2Proof.Machine

namespace Sys2Proof.Tests

/-! ## Small states -/

/-- A byte string from numbers. -/
def bytes (ns : List Nat) : List Byte :=
  ns.map (BitVec.ofNat 8)

/-- A buffer holding a byte string from address a on. -/
def cells (a : Nat) : List Byte → Memory
  | [] => []
  | b :: bs => if b = 0x00 then cells (a + 1) bs else (a, b) :: cells (a + 1) bs

/-- The reset state with CTRL and a value in IN_BUF. -/
def withValue (ctrl : Byte) (v : List Nat) : State :=
  { State.reset with ctrl := ctrl, inLen := BitVec.ofNat 8 v.length, inBuf := cells 0 (bytes v), outCap := 0x80 }

/-- The reset state with a field in FIELD_TL and FIELD_BUF. -/
def withField (tl cap : Byte) (p : List Nat) : State :=
  { State.reset with fieldTl := tl, outCap := cap, fieldBuf := cells 0 (bytes p) }

/-- The reset state with bytes in FRAME from offset 0, FRAME_LEN their number, and LIMIT the same. -/
def withFrame (f : List Nat) : State :=
  { State.reset with
    frame := cells 0 (bytes f), frameLen := BitVec.ofNat 16 f.length, limit := BitVec.ofNat 16 f.length }

/-- A state with a range in RANGE_OFF and RANGE_LEN. -/
def ranged (s : State) (a n : Half) : State :=
  { s with rangeOff := a, rangeLen := n }

/-- One field of the next state, if there is one. -/
def after {α : Type} (i : Instr) (s : State) (f : State → α) : Option α :=
  (nextOf (exec i s)).map f

/-- "ACME" -/
def acme : List Nat := [0x41, 0x43, 0x4D, 0x45]

/-- The header and the board area of 95_test_vectors.md sections 1.7 and 1.9: 40 bytes. -/
def board : List Nat :=
  [0x01, 0x00, 0x00, 0x01, 0x00, 0x00, 0x00, 0xFE, 0x01, 0x04, 0x00, 0x80, 0xA7, 0xC8, 0x83, 0xE1, 0xD8, 0x96, 0xC6,
    0x57] ++
  [0x69, 0x64, 0x67, 0x65, 0x74, 0x42, 0x00, 0x1A, 0x83, 0xB0, 0x1B, 0x01, 0x40, 0xC1, 0x00, 0x00, 0x00, 0x00, 0x00,
    0x64]

/-- A header that places a chassis area at byte 8, and that area of 8 bytes (42_validator.md R310, its example). -/
def chassis : List Nat :=
  [0x01, 0x00, 0x01, 0x00, 0x00, 0x00, 0x00, 0xFE, 0x01, 0x01, 0x00, 0xC1, 0x00, 0x00, 0x00, 0x3D]

/-- A header that places an internal-use area at byte 8, and that area's version byte and one byte more. -/
def internalUse : List Nat :=
  [0x01, 0x01, 0x00, 0x00, 0x00, 0x00, 0x00, 0xFE, 0x01, 0xAA]

/-- The seven-byte record that opens the chain of program P4 (95_test_vectors.md section 3). -/
def record : List Nat := [0xC0, 0x02, 0x02, 0xFD, 0x3F, 0x01, 0x02]

/-- A header that places a multirecord area at byte 8, and that record. -/
def multirecord : List Nat :=
  [0x01, 0x00, 0x00, 0x00, 0x00, 0x01, 0x00, 0xFE] ++ record

/-- Frame A of 95_test_vectors.md section 2.5. -/
def frameA : List Nat := [0x83, 0xE1, 0xD8, 0x96, 0xC1]

/-! ## Well-formedness: an ill-formed term for each check -/

theorem test_wf_reserved_bits : CmdFields.wf ⟨1, 0⟩ = false := by decide
theorem test_wf_reserved_opcode : CmdFields.wf ⟨0, 0xC⟩ = false := by decide
theorem test_wf_last_opcode : CmdFields.wf ⟨0, 0xB⟩ = true := by decide
theorem test_wf_typelen_too_long : Typelen.wf ⟨.text, 64⟩ = false := by decide
theorem test_wf_ascii : asciiText ['A', Char.ofNat 0x80] = false := by decide
theorem test_wf_w_offset : HostLine.wf (.w 0x2000 0) = false := by decide
theorem test_wf_w_byte : HostLine.wf (.w 0 256) = false := by decide
theorem test_wf_r_offset : HostLine.wf (.r 0x2000) = false := by decide
theorem test_wf_w16_value : HostLine.wf (.w16 .limit 65536) = false := by decide
theorem test_wf_wb_end : HostLine.wf (.wb 0x1FFF [1, 2]) = false := by decide
theorem test_wf_wb_byte : HostLine.wf (.wb 0 [256]) = false := by decide
theorem test_wf_ws_end : HostLine.wf (.ws 0x1FFF ['a', 'b']) = false := by decide
theorem test_wf_ws_text : HostLine.wf (.ws 0 [Char.ofNat 0xE9]) = false := by decide
theorem test_wf_setctrl_mode : HostLine.wf (.setctrl 8 0 0) = false := by decide
theorem test_wf_setctrl_policy : HostLine.wf (.setctrl 0 2 0) = false := by decide
theorem test_wf_setctrl_slot : HostLine.wf (.setctrl 0 0 8) = false := by decide
theorem test_wf_loadin_text : HostLine.wf (.loadin [Char.ofNat 0xE9]) = false := by decide
theorem test_wf_loadin_length : HostLine.wf (.loadin (List.replicate 256 'a')) = false := by decide +kernel

/-! ## Decoding: the bits of each row of the opcode map (30_encoding.md R151), RSV then OPC, written out -/

theorem test_decode_nop : decode [0b0000_0000] = .ok (.nop, []) := rfl
theorem test_decode_classify : decode [0b0000_0001] = .ok (.classify, []) := rfl
theorem test_decode_encode : decode [0b0000_0010] = .ok (.encode, []) := rfl
theorem test_decode_decode : decode [0b0000_0011] = .ok (.decode, []) := rfl
theorem test_decode_tagparse : decode [0b0000_0100] = .ok (.tagparse, []) := rfl
theorem test_decode_tlstep : decode [0b0000_0101] = .ok (.tlstep, []) := rfl
theorem test_decode_ckgen : decode [0b0000_0110] = .ok (.ckgen, []) := rfl
theorem test_decode_ckchk : decode [0b0000_0111] = .ok (.ckchk, []) := rfl
theorem test_decode_bounds : decode [0b0000_1000] = .ok (.bounds, []) := rfl
theorem test_decode_hdrchk : decode [0b0000_1001] = .ok (.hdrchk, []) := rfl
theorem test_decode_arealookup : decode [0b0000_1010] = .ok (.arealookup, []) := rfl
theorem test_decode_mrchk : decode [0b0000_1011] = .ok (.mrchk, []) := rfl

theorem test_decode_reserved_opcode : decode [0b0000_1100] = .error .reservedOpcode := rfl
theorem test_decode_reserved_bits : decode [0b0001_0000] = .error .reservedBits := rfl
theorem test_decode_nothing : decode [] = .error .noBytes := rfl
theorem test_decode_table_row : decodeTableWord 8 0x0A = some .arealookup := rfl
theorem test_decode_table_refuses : decodeTableWord 8 0x0C = none := rfl

/-- 30_encoding.md R153: 0x83 is 6-bit ASCII of three bytes; R155: 0xC1 is Text of one byte. -/
theorem test_typelen : decodeTypelen 0x83 = ⟨.sixbit, 3⟩ ∧ decodeTypelen 0xC1 = ⟨.text, 1⟩ := by decide

/-! ## One step per command -/

/-- Section 2.10 (43_sequencer.md R364). -/
theorem test_nop : after .nop { State.reset with status := 0x33 } (fun t => t.status) = some 0x00 := by decide

/-- Section 2.1. -/
theorem test_classify_sixbit : after .classify (withValue 0x00 acme)
    (fun t => (t.tagTl, t.tagType, t.tagLen, t.tagFlags, t.tagDlen)) = some (0x83, 2, 3, 0, 4) := by decide
/-- Section 2.1. -/
theorem test_classify_bad_char : after .classify (withValue 0x02 [0x31, 0x32, 0x41])
    (fun t => (t.status, t.tagTl)) = some (0x13, 0x00) := by decide

/-- Section 2.2. -/
theorem test_encode_sixbit : after .encode (withValue 0x00 acme)
    (fun t => (t.fieldTl, t.fieldBuf.readBytes 0 4)) = some (0x83, bytes [0xE1, 0xD8, 0x96, 0x00]) := by decide
/-- Section 2.2. -/
theorem test_encode_bcdplus : after .encode (withValue 0x02 [0x31, 0x32, 0x20, 0x2D, 0x2E])
    (fun t => (t.fieldTl, t.fieldBuf.readBytes 0 3)) = some (0x43, bytes [0x12, 0xAB, 0xCA]) := by decide

/-- Section 2.3. -/
theorem test_decode_placeholder : after .decode (withField 0x42 4 [0x12, 0xDF])
    (fun t => (t.outLen, t.outBuf.readBytes 0 4)) = some (4, bytes [0x31, 0x32, 0x3F, 0x3F]) := by decide +kernel
/-- Section 2.3. -/
theorem test_decode_capacity : after .decode (withField 0x43 5 [0xAA, 0xAA, 0xAA])
    (fun t => (t.status, t.outLen)) = some (0x40, 0) := by decide

/-- Section 2.4. -/
theorem test_tagparse_longest_sixbit : after .tagparse { State.reset with tagTl := 0xBF }
    (fun t => (t.tagType, t.tagLen, t.tagFlags, t.tagDlen)) = some (2, 63, 0, 84) := by decide
/-- Section 2.4. -/
theorem test_tagparse_sentinel : after .tagparse { State.reset with tagTl := 0xC1 }
    (fun t => (t.tagType, t.tagLen, t.tagFlags, t.tagDlen)) = some (3, 1, 1, 1) := by decide

/-- Section 2.5. -/
theorem test_tlstep_field : after .tlstep (withFrame frameA)
    (fun t => (t.cursor, t.fieldTl, t.fieldBuf.readBytes 0 4)) =
      some (4, 0x83, bytes [0xE1, 0xD8, 0x96, 0x00]) := by decide
/-- Section 2.5. -/
theorem test_tlstep_no_wrap : after .tlstep { withFrame frameA with cursor := 0xFFFF }
    (fun t => (t.status, t.cursor)) = some (0x34, 0xFFFF) := by decide

/-- Section 2.6. -/
theorem test_ckgen_sum : after .ckgen (ranged (withFrame [1, 2, 3]) 0 3) (fun t => t.ckResult) = some 0xFA := by decide
/-- Section 2.6. -/
theorem test_ckgen_zero : after .ckgen (ranged (withFrame [0x80, 0x80]) 0 2) (fun t => t.ckResult) = some 0x00 := by
  decide

/-- Section 2.6. -/
theorem test_ckchk_good : after .ckchk (ranged (withFrame [1, 2, 3, 0xFA]) 0 4)
    (fun t => (t.status, t.ckResult)) = some (0x00, 0x00) := by decide
/-- Section 2.6. -/
theorem test_ckchk_bad : after .ckchk { ranged (withFrame (board.take 8)) 0 7 with ckResult := 0x5A }
    (fun t => (t.status, t.ckResult)) = some (0x33, 0x5A) := by decide

/-- Section 2.6. -/
theorem test_bounds_end : after .bounds (ranged { State.reset with frameLen := 24 } 8 16) (fun t => t.status) =
    some 0x00 := by decide
/-- Section 2.6. -/
theorem test_bounds_past_end : after .bounds (ranged { State.reset with frameLen := 24 } 8 17) (fun t => t.status) =
    some 0x34 := by decide

/-- Section 2.7. -/
theorem test_hdrchk_good : after .hdrchk (withFrame (board.take 8)) (fun t => t.status) = some 0x00 := by decide
/-- Section 2.7. -/
theorem test_hdrchk_reserved_first : after .hdrchk (withFrame [0x11, 0, 0, 1, 0, 0, 0, 0xFE]) (fun t => t.status) =
    some 0x31 := by decide

/-- Section 1.9. -/
theorem test_arealookup_board : after .arealookup { withFrame board with ctrl := 0x20 }
    (fun t => (t.status, t.areaPtr, t.areaSize)) = some (0x00, 8, 0x20) := by decide
/-- Section 1.10: the slot is checked before the header. -/
theorem test_arealookup_slot_first :
    after .arealookup { withFrame (board.set 7 0xFF) with ctrl := 0x70, areaPtr := 0x1234 }
      (fun t => (t.status, t.areaPtr)) = some (0x14, 0x1234) := by decide

/-- Section 3, program P4. -/
theorem test_mrchk_record : after .mrchk (withFrame record)
    (fun t => (t.status, t.mrType, t.mrFlags, t.areaPtr, t.areaSize, t.cursor)) =
      some (0x00, 0xC0, 0x02, 0, 7, 7) := by decide
/-- 42_validator.md R311: the payload's last byte changed, so its checksum fails. -/
theorem test_mrchk_payload : after .mrchk (withFrame (record.set 6 0x03)) (fun t => (t.status, t.cursor)) =
    some (0x33, 0) := by decide

/-! ## The host port -/

/-- The opening of program P5 (section 3): an illegal byte and a read of STATUS. -/
theorem test_illegal_then_read :
    (eventsAll (expandProgram [.w 0 0x1C, .r 1]) State.reset).map (fun t => (t.cmd, t.hostReads)) =
      some (0x1C, [0x11]) := by decide
/-- The expansion of program P1's LOADIN and SETCTRL lines and of a W16 line of P2 (section 3). -/
theorem test_expansion :
    expandProgram [.loadin ['A', 'C'], .setctrl 0 0 2, .w16 .frameLen 40, .cmd .encode] =
      [.write 0x100 0x41, .write 0x101 0x43, .write 0x003 0x02, .write 0x002 0x20, .write 0x010 0x28,
        .write 0x011 0x00, .write 0x000 0x02] := by decide
/-- 10_state.md R35: CTRL[7] reads 0. -/
theorem test_ctrl_bit7 :
    (eventsAll [.write 0x002 0xFF, .read 0x002] State.reset).map (fun t => t.hostReads) = some [0x7F] := by decide
/-- The step after `withFetchWord` runs that row's command. -/
theorem test_fetch_word :
    (nextOf (step (State.reset.withFetchWord 8 0x09))).map (fun t => (t.cmd, t.status)) = some (0x09, 0x34) := by decide

/-! ## Witnesses: encodings and the host port -/

theorem witness_DecodeEncodeGivesBack : Instr.wf .mrchk = true := rfl

theorem witness_TypelenRoundTrips : Typelen.wf ⟨.text, 63⟩ = true ∧ Typelen.wf ⟨.binary, 0⟩ = true := by decide

theorem witness_StepRunsDecodedCommand :
    ({ withFrame board with pending := [.write 0x000 0x0B, .read 0x001] } : State).pending =
        .write 0x000 0x0B :: [.read 0x001] ∧
      decodeByte 0x0B = .ok .mrchk := ⟨rfl, rfl⟩

theorem witness_IllegalByteSetsBadCmd_reserved_bits :
    ({ withFrame board with pending := [.write 0x000 0x10] } : State).pending = .write 0x000 0x10 :: [] ∧
      BitVec.toNat (0x10 : Byte) / 16 ≠ 0 ∧ BitVec.toNat (0xFF : Byte) / 16 ≠ 0 := by decide
theorem witness_IllegalByteSetsBadCmd_reserved_opcode :
    ({ withFrame board with pending := [.write 0x000 0x0C] } : State).pending = .write 0x000 0x0C :: [] ∧
      BitVec.toNat (0x0C : Byte) / 16 = 0 ∧ 0xC ≤ BitVec.toNat (0x0C : Byte) % 16 ∧
      BitVec.toNat (0x0F : Byte) / 16 = 0 ∧ 0xC ≤ BitVec.toNat (0x0F : Byte) % 16 := by decide

theorem witness_ReadsAndIdlingChangeNothing_read :
    ({ withFrame board with pending := [.read 0x1FFF] } : State).pending = .read 0x1FFF :: [] := rfl
theorem witness_ReadsAndIdlingChangeNothing_idle : (withFrame board).pending = [] := rfl

theorem witness_HostWriteIsReadBack_buffers : (63 : Nat) < 64 ∧ (127 : Nat) < 128 ∧ (255 : Nat) < 256 ∧ (4095 : Nat) < 4096 := by
  decide
theorem witness_HostWriteIsReadBack_stored :
    ({ withFrame board with pending := [.write 0x1FFF 0xA5] } : State).pending = .write 0x1FFF 0xA5 :: [] ∧
      (0x1FFF : Offset) ≠ 0x000 ∧ storedOffset 0x1FFF = true := by decide
theorem witness_HostWriteIsReadBack_control :
    ({ withFrame board with pending := [.write 0x002 0xFF] } : State).pending = .write 0x002 0xFF :: [] ∧
      (0x002 : Offset) ≠ 0x000 ∧ storedOffset 0x002 = true := by decide
theorem witness_HostWriteIsReadBack_ignored :
    ({ withFrame board with pending := [.write 0x001 0xA5] } : State).pending = .write 0x001 0xA5 :: [] ∧
      (0x001 : Offset) ≠ 0x000 ∧ storedOffset 0x001 = false := by decide

theorem witness_ReservedAndReadOnlyIgnoreWrites_reserved :
    reservedOffset 0x00F = true ∧ reservedOffset 0x01E = true ∧ reservedOffset 0x03F = true ∧
      reservedOffset 0x200 = true ∧ reservedOffset 0xFFF = true := by decide
theorem witness_ReservedAndReadOnlyIgnoreWrites_read_only :
    ({ withFrame board with pending := [.write 0x01D 0xA5] } : State).pending = .write 0x01D 0xA5 :: [] ∧
      (0x01D : Offset) ≠ 0x000 ∧ storedOffset 0x01D = false ∧ storedOffset 0x080 = false ∧
      storedOffset 0x0FF = false := by decide

theorem witness_ResetClearsEverything :
    ({ withFrame board with pending := [.reset, .read 0x001] } : State).pending = .reset :: [.read 0x001] := rfl

theorem witness_CommandsFromResetValues :
    (Instr.bounds = .ckgen ∨ Instr.bounds = .ckchk ∨ Instr.bounds = .bounds) := by decide

/-! ## Witnesses: whole-machine rules -/

/-- A state after an MRCHK with OK and a host write, with the next access pending. -/
def busy : State :=
  { withFrame record with
    cmd := 0x0B, mrType := 0xC0, mrFlags := 0x02, areaSize := 7, cursor := 7, inLen := 0x04
    pending := [.write 0x1FFF 0xA5] }

theorem witness_EveryStepKeepsInvariant :
    State.Inv busy ∧ step busy = .next (mmioStore (busy.setPending []) 0x1FFF 0xA5) := by
  refine ⟨?_, rfl⟩
  constructor <;> try decide
  exact ⟨by decide, fun _ _ => rfl⟩

theorem witness_FailuresArePrecise :
    ∃ t, exec .hdrchk State.reset = .next t ∧ t.status.toNat / 16 ≠ 0 := ⟨_, rfl, by decide⟩

theorem witness_StatusCodesPerCommand : ∃ t, exec .bounds (withFrame board) = .next t := ⟨_, rfl⟩

theorem witness_CommandsWriteOnlyTheirRegisters :
    (∃ t, exec .tagparse { State.reset with tagTl := 0xBF } = .next t) ∧ Reg8.tagTl ∉ writes8 .tagparse ∧
      Reg16.limit ∉ writes16 .mrchk ∧ Buffer.frame ∉ writesBuf .tlstep := by
  exact ⟨⟨_, rfl⟩, by decide, by decide, by decide⟩

theorem witness_NoCommandWritesFrame :
    (∃ t, exec .tagparse (withFrame board) = .next t) ∧
      ∃ t, step { withFrame board with pending := [.write 0x1000 0x02] } = .next t := ⟨⟨_, rfl⟩, ⟨_, rfl⟩⟩

theorem witness_OutcomeDependsOnOperandsOnly_classify :
    sameOperands .classify (withValue 0x00 acme) { withValue 0xF0 acme with cursor := 9, frame := [(0, 1)] } := by
  refine ⟨by decide, rfl, by decide⟩
theorem witness_OutcomeDependsOnOperandsOnly_decode :
    sameOperands .decode (withField 0x42 4 [0x12, 0xDF]) (withField 0x42 4 [0x12, 0xDF, 0x99]) := by
  refine ⟨rfl, rfl, by decide⟩
/-- The field at CURSOR is the same; the byte after it, below LIMIT, is not. -/
theorem witness_OutcomeDependsOnOperandsOnly_tlstep :
    sameOperands .tlstep (withFrame frameA) (withFrame (frameA.set 4 0x00)) := by
  refine ⟨rfl, rfl, rfl, ?_⟩
  have h : ∀ k < fieldEnd (withFrame frameA) 0,
      (withFrame frameA).frame.read k = (withFrame (frameA.set 4 0x00)).frame.read k := by decide
  exact fun k _ h2 => h k h2
/-- The header and the chassis area are the same; the byte after the area, below FRAME_LEN, is not. -/
theorem witness_OutcomeDependsOnOperandsOnly_arealookup :
    sameOperands .arealookup { withFrame (chassis ++ [0x55]) with ctrl := 0x10 }
      { withFrame (chassis ++ [0x66]) with ctrl := 0x1F } := by
  have h : ∀ k < 16, (withFrame (chassis ++ [0x55])).frame.read k = (withFrame (chassis ++ [0x66])).frame.read k := by
    decide
  have e : areaEnd (withFrame (chassis ++ [0x55])) 1 8 = 16 := by decide
  refine ⟨rfl, rfl, fun k _ h2 => h k (by omega), fun _ _ k _ h2 => h k ?_⟩
  change k < areaEnd (withFrame (chassis ++ [0x55])) 1 8 at h2
  omega
/-- The record at CURSOR is the same; the byte after it, below LIMIT, is not. -/
theorem witness_OutcomeDependsOnOperandsOnly_mrchk :
    sameOperands .mrchk (withFrame (record ++ [0x55])) (withFrame (record ++ [0x66])) := by
  refine ⟨rfl, rfl, rfl, ?_⟩
  have h : ∀ k < recordEnd (withFrame (record ++ [0x55])) 0,
      (withFrame (record ++ [0x55])).frame.read k = (withFrame (record ++ [0x66])).frame.read k := by decide
  exact fun k _ h2 => h k h2
theorem witness_OutcomeDependsOnOperandsOnly_hdrchk :
    sameOperands .hdrchk (withFrame chassis) { withFrame (chassis.set 9 7) with ctrl := 0x7F } := by
  refine ⟨rfl, ?_⟩
  have h : ∀ k < 8, (withFrame chassis).frame.read k = (withFrame (chassis.set 9 7)).frame.read k := by decide
  exact fun k _ h2 => h k h2

theorem witness_FrameIsReadBelowTheBoundOnly :
    ∀ a, a < (withFrame frameA).frameLen.toNat →
      (Instr.tlstep = .tlstep ∨ Instr.tlstep = .mrchk → a < (withFrame frameA).limit.toNat) →
      (cells 0 (bytes (frameA ++ [0x55]))).read a = (withFrame frameA).frame.read a := by
  have h : ∀ a < 5, (cells 0 (bytes (frameA ++ [0x55]))).read a = (withFrame frameA).frame.read a := by decide
  exact fun a h1 _ => h a h1

/-! ## Witnesses: the field codec -/

theorem witness_AutoTypeIsTheWidestClass :
    bytes acme ≠ [] ∧ (bytes acme).Perm (bytes acme.reverse) := by
  refine ⟨by decide, ?_⟩
  have h : bytes acme.reverse = (bytes acme).reverse := by decide
  rw [h]
  exact (List.reverse_perm _).symm

theorem witness_EffectiveTypePerMode_bcdplus :
    (∀ b ∈ bytes [0x30, 0x39, 0x20, 0x2D, 0x2E], cls b = .bcdplus) ∧ ∃ b ∈ bytes acme, cls b ≠ .bcdplus := by decide
theorem witness_EffectiveTypePerMode_sixbit :
    (∀ b ∈ bytes [0x20, 0x5F], 0x20 ≤ b.toNat ∧ b.toNat ≤ 0x5F) ∧
      (∃ b ∈ bytes [0x1F], ¬(0x20 ≤ b.toNat ∧ b.toNat ≤ 0x5F)) ∧
      ∃ b ∈ bytes [0x60], ¬(0x20 ≤ b.toNat ∧ b.toNat ≤ 0x5F) := by decide

theorem witness_ClassifyWritesTheTag :
    effType (withValue 0x00 acme).encMode (withValue 0x00 acme).policy (withValue 0x00 acme).value = .ok .sixbit ∧
      plen .sixbit (withValue 0x00 acme).inLen.toNat ≤ 63 := ⟨rfl, by decide⟩

/-- The longest Text value: 63 bytes 0x61, under the force-ASCII policy. -/
theorem witness_EncodeWritesTheField :
    effType (withValue 0x08 (List.replicate 63 0x61)).encMode (withValue 0x08 (List.replicate 63 0x61)).policy
        (withValue 0x08 (List.replicate 63 0x61)).value = .ok .text ∧
      plen .text (withValue 0x08 (List.replicate 63 0x61)).inLen.toNat ≤ 63 := ⟨rfl, by decide⟩

theorem witness_ClassifyAndEncodeFailures_mode :
    5 ≤ (withValue 0x05 acme).encMode ∧ 5 ≤ (withValue 0x07 acme).encMode := by decide
theorem witness_ClassifyAndEncodeFailures_bcdplus :
    (withValue 0x02 acme).encMode = 2 ∧ ∃ b ∈ (withValue 0x02 acme).value, cls b ≠ .bcdplus := by decide
theorem witness_ClassifyAndEncodeFailures_sixbit :
    (withValue 0x03 [0x61]).encMode = 3 ∧
      ∃ b ∈ (withValue 0x03 [0x61]).value, ¬(0x20 ≤ b.toNat ∧ b.toNat ≤ 0x5F) := by decide
theorem witness_ClassifyAndEncodeFailures_length :
    effType (withValue 0x08 (List.replicate 64 0x61)).encMode (withValue 0x08 (List.replicate 64 0x61)).policy
        (withValue 0x08 (List.replicate 64 0x61)).value = .ok .text ∧
      63 < plen .text (withValue 0x08 (List.replicate 64 0x61)).inLen.toNat := ⟨rfl, by decide⟩

/-- Both sides of the boundary: BCD+ values of 126 and of 127 characters. -/
theorem witness_LengthBoundary :
    effType (withValue 0x02 []).encMode (withValue 0x02 []).policy (withValue 0x02 []).value = .ok .bcdplus ∧
      plen .bcdplus 126 ≤ 63 ∧ 64 ≤ plen .bcdplus 127 := ⟨rfl, by decide, by decide⟩

theorem witness_ClassifyWritesTheTag_value : 3 < (withValue 0x00 acme).inLen.toNat := by decide
theorem witness_DecodeWritesTheString_payload : 1 < (withField 0x42 4 [0x12, 0xDF]).fieldTl.toNat % 64 := by decide

theorem witness_DecodedLengths : (63 : Nat) ≤ 63 ∧ dlen .bcdplus 63 ≤ 126 := by decide

theorem witness_BcdPackingRule :
    (0x30 : Byte).toNat = 0x30 ∧ (0x39 : Byte).toNat = 0x39 ∧ (∀ b ∈ bytes [0x31, 0x2E, 0x20], cls b = .bcdplus) ∧
      1 < ((bytes [0x31, 0x2E, 0x20]).length + 1) / 2 ∧ 0 < (bytes [0x12, 0xDF]).length := by decide
theorem witness_SixbitPackingRule :
    (∀ b ∈ bytes [0x20, 0x5F], 0x20 ≤ b.toNat ∧ b.toNat ≤ 0x5F) ∧ 3 < 4 * (bytes [0xE1, 0xD8, 0x96]).length / 3 ∧
      (5 : Nat) < 6 := by decide

theorem witness_DecodeWritesTheString_capacity :
    (withField 0x42 3 [0x12, 0xDF]).outCap.toNat <
      dlen (withField 0x42 3 [0x12, 0xDF]).fieldTag.type (withField 0x42 3 [0x12, 0xDF]).fieldTag.len := by decide
theorem witness_DecodeWritesTheString_fits :
    dlen (withField 0x42 4 [0x12, 0xDF]).fieldTag.type (withField 0x42 4 [0x12, 0xDF]).fieldTag.len ≤
      (withField 0x42 4 [0x12, 0xDF]).outCap.toNat := by decide

theorem witness_BcdRoundTrip :
    ((withValue 0x00 [0x30, 0x30, 0x31]).encMode = 0 ∧ (withValue 0x00 [0x30, 0x30, 0x31]).policy = false) ∧
      (withValue 0x00 [0x30, 0x30, 0x31]).inLen.toNat ≤ 126 ∧
      (∀ b ∈ (withValue 0x00 [0x30, 0x30, 0x31]).value,
        (0x30 ≤ b.toNat ∧ b.toNat ≤ 0x39) ∨ b = 0x20 ∨ b = 0x2D ∨ b = 0x2E) ∧
      2 * (((withValue 0x00 [0x30, 0x30, 0x31]).inLen.toNat + 1) / 2) ≤
        (withValue 0x00 [0x30, 0x30, 0x31]).outCap.toNat ∧
      (withValue 0x00 [0x30, 0x30, 0x31]).value.getLast? ≠ some 0x20 := by decide
theorem witness_BcdRoundTrip_forced : (withValue 0x0A [0x31]).encMode = 2 := by decide

theorem witness_SixbitRoundTrip_forced :
    (withValue 0x03 [0x20, 0x5F]).inLen.toNat ≤ 84 ∧
      (∀ b ∈ (withValue 0x03 [0x20, 0x5F]).value, 0x20 ≤ b.toNat ∧ b.toNat ≤ 0x5F) ∧
      (withValue 0x03 [0x20, 0x5F]).encMode = 3 ∧
      dlen .sixbit (plen .sixbit (withValue 0x03 [0x20, 0x5F]).inLen.toNat) ≤
        (withValue 0x03 [0x20, 0x5F]).outCap.toNat := by decide
theorem witness_SixbitRoundTrip_auto :
    (withValue 0x00 acme).inLen.toNat ≤ 84 ∧
      (∀ b ∈ (withValue 0x00 acme).value, 0x20 ≤ b.toNat ∧ b.toNat ≤ 0x5F) ∧
      ((withValue 0x00 acme).encMode = 0 ∧ (withValue 0x00 acme).policy = false ∧
        ∃ b ∈ (withValue 0x00 acme).value, cls b ≠ .bcdplus) ∧
      dlen .sixbit (plen .sixbit (withValue 0x00 acme).inLen.toNat) ≤ (withValue 0x00 acme).outCap.toNat := by decide

theorem witness_VerbatimRoundTrip_auto :
    (withValue 0x00 [0x31, 0x01, 0x61]).inLen.toNat ≤ 63 ∧
      ((withValue 0x00 [0x31, 0x01, 0x61]).encMode = 0 ∧
        ∃ b ∈ (withValue 0x00 [0x31, 0x01, 0x61]).value, cls b = .binary) ∧
      (withValue 0x00 [0x31, 0x01, 0x61]).inLen.toNat ≤ (withValue 0x00 [0x31, 0x01, 0x61]).outCap.toNat := by decide
theorem witness_VerbatimRoundTrip_policy :
    (withValue 0x08 (List.replicate 63 0x20)).inLen.toNat ≤ 63 ∧ (withValue 0x08 (List.replicate 63 0x20)).encMode = 0 ∧
      (withValue 0x08 (List.replicate 63 0x20)).policy = true ∧
      (withValue 0x08 (List.replicate 63 0x20)).inLen.toNat ≤
        (withValue 0x08 (List.replicate 63 0x20)).outCap.toNat := by decide
theorem witness_VerbatimRoundTrip_forced :
    (withValue 0x01 [0x20, 0x20]).encMode = 1 ∧ (withValue 0x04 (List.replicate 63 0x20)).encMode = 4 ∧
      (withValue 0x04 (List.replicate 63 0x20)).inLen.toNat ≤ 63 ∧
      (withValue 0x04 (List.replicate 63 0x20)).inLen.toNat ≤
        (withValue 0x04 (List.replicate 63 0x20)).outCap.toNat := by decide

theorem witness_OneByteTextCollidesWithSentinel_forced :
    (withValue 0x04 [0x41]).inLen = 1 ∧ (withValue 0x04 [0x41]).encMode = 4 := by decide
theorem witness_OneByteTextCollidesWithSentinel_policy :
    (withValue 0x08 [0x41]).inLen = 1 ∧ (withValue 0x08 [0x41]).encMode = 0 ∧
      (withValue 0x08 [0x41]).policy = true := by decide
theorem witness_OneByteTextCollidesWithSentinel_auto :
    (withValue 0x00 [0x7E]).inLen = 1 ∧ (withValue 0x00 [0x7E]).encMode = 0 ∧
      (withValue 0x00 [0x7E]).policy = false ∧
      (0x60 ≤ ((withValue 0x00 [0x7E]).inBuf.read 0).toNat ∧ ((withValue 0x00 [0x7E]).inBuf.read 0).toNat ≤ 0x7E) := by
  decide

/-! ## Witnesses: the tag parser -/

theorem witness_TlstepTakesAField :
    (withFrame frameA).frameLen.toNat ≤ 4096 ∧ (withFrame frameA).limit.toNat ≤ (withFrame frameA).frameLen.toNat ∧
      (withFrame frameA).frame.read (withFrame frameA).cursor.toNat ≠ 0xC1 ∧
      (withFrame frameA).cursor.toNat + 1 +
          ((withFrame frameA).frame.read (withFrame frameA).cursor.toNat).toNat % 64 ≤
        (withFrame frameA).limit.toNat := by decide
/-- The field's last byte is the last below LIMIT. -/
theorem witness_TlstepTakesAField_boundary :
    ({ withFrame frameA with limit := 4 } : State).cursor.toNat + 1 +
        (({ withFrame frameA with limit := 4 } : State).frame.read 0).toNat % 64 = 4 := by decide

/-- Frame A with CURSOR at its sentinel. -/
def atSentinel : State := { withFrame frameA with cursor := 4 }

theorem witness_TlstepReportsEof :
    atSentinel.frameLen.toNat ≤ 4096 ∧ atSentinel.limit.toNat ≤ atSentinel.frameLen.toNat ∧
      atSentinel.cursor.toNat + 1 ≤ atSentinel.limit.toNat ∧
      atSentinel.frame.read atSentinel.cursor.toNat = 0xC1 := by decide

theorem witness_TlstepFailures_frame_length : 4096 < ({ withFrame frameA with frameLen := 4097 } : State).frameLen.toNat := by
  decide
theorem witness_TlstepFailures_limit :
    (withFrame frameA).frameLen.toNat ≤ 4096 ∧
      (withFrame frameA).frameLen.toNat < ({ withFrame frameA with limit := 6 } : State).limit.toNat := by decide
theorem witness_TlstepFailures_no_tag :
    (withFrame frameA).frameLen.toNat ≤ 4096 ∧ (withFrame frameA).limit.toNat ≤ (withFrame frameA).frameLen.toNat ∧
      (withFrame frameA).limit.toNat < ({ withFrame frameA with cursor := 5 } : State).cursor.toNat + 1 := by decide
/-- Frame A under the bound 3: its first field overruns it by one byte. -/
def overrun : State := { withFrame frameA with limit := 3 }
theorem witness_TlstepFailures_payload :
    overrun.frameLen.toNat ≤ 4096 ∧ overrun.limit.toNat ≤ overrun.frameLen.toNat ∧
      overrun.cursor.toNat + 1 ≤ overrun.limit.toNat ∧ overrun.frame.read overrun.cursor.toNat ≠ 0xC1 ∧
      overrun.limit.toNat < overrun.cursor.toNat + 1 + (overrun.frame.read overrun.cursor.toNat).toNat % 64 := by decide

theorem witness_StreamWalkTerminates_step :
    (nextOf (exec .tlstep (withFrame frameA))).map (fun t => t.status) = some 0x00 := by decide
theorem witness_StreamWalkTerminates_count :
    (withFrame frameA).limit.toNat - (withFrame frameA).cursor.toNat + 1 ≤ 6 := by decide

/-- The stream of frame A: one field, then the sentinel. -/
theorem witness_StreamWalkVisitsEveryField :
    (withFrame frameA).frameLen.toNat ≤ 4096 ∧ (withFrame frameA).limit.toNat ≤ (withFrame frameA).frameLen.toNat ∧
      (∀ f ∈ [StreamField.mk 0x83 (bytes [0xE1, 0xD8, 0x96])], f.wf = true) ∧
      (withFrame frameA).cursor.toNat + (streamBytes [⟨0x83, bytes [0xE1, 0xD8, 0x96]⟩]).length + 1 ≤
        (withFrame frameA).limit.toNat ∧
      (withFrame frameA).frame.readBytes (withFrame frameA).cursor.toNat
          ((streamBytes [⟨0x83, bytes [0xE1, 0xD8, 0x96]⟩]).length + 1) =
        streamBytes [⟨0x83, bytes [0xE1, 0xD8, 0x96]⟩] ++ [0xC1] ∧
      [StreamField.mk 0x83 (bytes [0xE1, 0xD8, 0x96])].length < 2 := by decide

theorem witness_StreamWalkWithoutSentinelEndsInBounds_end :
    (∀ f ∈ [StreamField.mk 0x83 (bytes [0xE1, 0xD8, 0x96])], f.wf = true) ∧
      ({ withFrame frameA with limit := 4 } : State).limit.toNat = 4 ∧
      ({ withFrame frameA with limit := 4 } : State).frameLen.toNat ≤ 4096 ∧
      (streamBytes [⟨0x83, bytes [0xE1, 0xD8, 0x96]⟩]).length = 4 ∧
      ({ withFrame frameA with limit := 4 } : State).frame.readBytes 0 4 =
        streamBytes [⟨0x83, bytes [0xE1, 0xD8, 0x96]⟩] := by decide
/-- No field fits under the bound 3, and the byte at CURSOR overruns it. -/
theorem witness_StreamWalkWithoutSentinelEndsInBounds_overrun :
    overrun.frameLen.toNat ≤ 4096 ∧ overrun.limit.toNat ≤ overrun.frameLen.toNat ∧
      overrun.cursor.toNat + (streamBytes []).length = 0 ∧ 0 ≤ overrun.limit.toNat ∧
      overrun.frame.readBytes 0 0 = streamBytes [] ∧ overrun.frame.read 0 ≠ 0xC1 ∧
      overrun.limit.toNat < 0 + 1 + (overrun.frame.read 0).toNat % 64 := by decide

/-! ## Witnesses: the validator -/

theorem witness_CkgenRule_frame_length : 4096 < ({ State.reset with frameLen := 4097 } : State).frameLen.toNat := by decide
theorem witness_CkgenRule_bounds :
    (ranged (withFrame board) 8 33).frameLen.toNat ≤ 4096 ∧
      (ranged (withFrame board) 8 33).frameLen.toNat <
        (ranged (withFrame board) 8 33).rangeOff.toNat + (ranged (withFrame board) 8 33).rangeLen.toNat := by decide
theorem witness_CkgenRule_ok :
    (ranged (withFrame board) 8 32).frameLen.toNat ≤ 4096 ∧
      (ranged (withFrame board) 8 32).rangeOff.toNat + (ranged (withFrame board) 8 32).rangeLen.toNat ≤
        (ranged (withFrame board) 8 32).frameLen.toNat := by decide

/-- CKCHK's and BOUNDS's other clauses have the hypotheses of CKGEN's. -/
theorem witness_CkchkRule_checksum :
    (ranged (withFrame board) 8 31).rangeOff.toNat + (ranged (withFrame board) 8 31).rangeLen.toNat ≤
        (ranged (withFrame board) 8 31).frameLen.toNat ∧
      (ranged (withFrame board) 8 31).frameLen.toNat ≤ 4096 ∧ frameSum (ranged (withFrame board) 8 31) 8 31 % 256 ≠ 0 := by
  decide
theorem witness_CkchkRule_ok :
    (ranged (withFrame board) 8 32).rangeOff.toNat + (ranged (withFrame board) 8 32).rangeLen.toNat ≤
        (ranged (withFrame board) 8 32).frameLen.toNat ∧
      (ranged (withFrame board) 8 32).frameLen.toNat ≤ 4096 ∧ frameSum (ranged (withFrame board) 8 32) 8 32 % 256 = 0 := by
  decide
theorem witness_BoundsRule :
    4096 < ({ State.reset with frameLen := 4097 } : State).frameLen.toNat ∧
      ({ State.reset with frameLen := 4096 } : State).frameLen.toNat ≤ 4096 ∧
      (ranged { State.reset with frameLen := 4096 } 4096 0).rangeOff.toNat + 0 ≤ 4096 ∧
      4096 < (ranged { State.reset with frameLen := 4096 } 4096 1).rangeOff.toNat + 1 := by decide

/-- The board-only container with a slot selected. -/
def boardSlot (ctrl : Byte) : State := { withFrame board with ctrl := ctrl }

theorem boardSlot_valid (ctrl : Byte) : headerValid (boardSlot ctrl) := by
  change headerValid (withFrame board) 
  unfold headerValid
  decide

theorem witness_HdrchkReportsFirstFailure : headerValid (withFrame board) := boardSlot_valid 0x00

theorem witness_ArealookupRefusesBeforeTheArea_slot :
    (boardSlot 0x50).frameLen.toNat ≤ 4096 ∧ 4 < (boardSlot 0x50).slot ∧ 4 < (boardSlot 0x70).slot := by decide
theorem witness_ArealookupRefusesBeforeTheArea_frame_length :
    4096 < ({ boardSlot 0x70 with frameLen := 4097 } : State).frameLen.toNat := by decide
/-- The board-only container with its header checksum corrupted (section 1.10). -/
def corrupt : State := { withFrame (board.set 7 0xFF) with ctrl := 0x20 }
theorem witness_ArealookupRefusesBeforeTheArea_header :
    corrupt.frameLen.toNat ≤ 4096 ∧ corrupt.slot ≤ 4 ∧ ¬headerValid corrupt := by
  unfold headerValid
  decide

theorem witness_ArealookupAbsentArea :
    headerValid (boardSlot 0x40) ∧ (boardSlot 0x40).slot ≤ 4 ∧
      (boardSlot 0x40).frame.read (1 + (boardSlot 0x40).slot) = 0x00 :=
  ⟨boardSlot_valid 0x40, by decide, by decide⟩

theorem witness_ArealookupInternalUse_ok :
    headerValid (withFrame internalUse) ∧ (withFrame internalUse).slot = 0 ∧
      (withFrame internalUse).frame.read 1 ≠ 0x00 ∧ 8 = 8 * ((withFrame internalUse).frame.read 1).toNat ∧
      8 + 1 ≤ (withFrame internalUse).frameLen.toNat ∧
      ((withFrame internalUse).frame.read 8).toNat % 16 = 1 := by
  unfold headerValid
  decide
theorem witness_ArealookupInternalUse_version :
    headerValid (withFrame (internalUse.set 8 0x02)) ∧
      8 + 1 ≤ (withFrame (internalUse.set 8 0x02)).frameLen.toNat ∧
      (withFrame (internalUse.set 8 0x02)).frame.read 1 ≠ 0x00 ∧ (withFrame (internalUse.set 8 0x02)).slot = 0 ∧
      ((withFrame (internalUse.set 8 0x02)).frame.read 8).toNat % 16 ≠ 1 := by
  unfold headerValid
  decide
theorem witness_ArealookupInternalUse_bounds :
    headerValid (withFrame (internalUse.take 8)) ∧ (withFrame (internalUse.take 8)).slot = 0 ∧
      (withFrame (internalUse.take 8)).frame.read 1 ≠ 0x00 ∧
      (withFrame (internalUse.take 8)).frameLen.toNat < 8 + 1 := by
  unfold headerValid
  decide

theorem witness_ArealookupInfoArea_valid :
    headerValid (boardSlot 0x20) ∧ (boardSlot 0x20).slot = 2 ∧
      (boardSlot 0x20).frame.read (1 + (boardSlot 0x20).slot) ≠ 0x00 ∧
      8 = 8 * ((boardSlot 0x20).frame.read (1 + (boardSlot 0x20).slot)).toNat ∧
      32 = 8 * ((boardSlot 0x20).frame.read (8 + 1)).toNat ∧
      infoAreaValid (boardSlot 0x20) 8 (boardSlot 0x20).frameLen.toNat := by
  refine ⟨boardSlot_valid 0x20, by decide, by decide, by decide, by decide, ?_⟩
  unfold infoAreaValid
  decide
/-- The chassis area with its checksum byte corrupted. -/
def badChassis : State := { withFrame (chassis.set 15 0x3E) with ctrl := 0x10 }
theorem witness_ArealookupInfoArea_invalid :
    headerValid badChassis ∧ badChassis.slot = 1 ∧ badChassis.frame.read (1 + badChassis.slot) ≠ 0x00 ∧
      8 = 8 * (badChassis.frame.read (1 + badChassis.slot)).toNat ∧
      8 = 8 * (badChassis.frame.read (8 + 1)).toNat ∧ ¬infoAreaValid badChassis 8 badChassis.frameLen.toNat := by
  unfold headerValid infoAreaValid
  decide

/-- A container with a multirecord area, slot 4 selected, and one with its record's length corrupted. -/
def recordSlot : State := { withFrame multirecord with ctrl := 0x40 }
def badRecordSlot : State := { withFrame (multirecord.set 10 0x03) with ctrl := 0x40 }

theorem witness_ArealookupMultirecord_valid :
    headerValid recordSlot ∧ recordSlot.slot = 4 ∧ recordSlot.frame.read 5 ≠ 0x00 ∧
      8 = 8 * (recordSlot.frame.read 5).toNat ∧ recordValid recordSlot 8 recordSlot.frameLen.toNat := by
  unfold headerValid recordValid
  decide
theorem witness_ArealookupMultirecord_invalid :
    headerValid badRecordSlot ∧ badRecordSlot.slot = 4 ∧ badRecordSlot.frame.read 5 ≠ 0x00 ∧
      8 = 8 * (badRecordSlot.frame.read 5).toNat ∧ ¬recordValid badRecordSlot 8 badRecordSlot.frameLen.toNat := by
  unfold headerValid recordValid
  decide

theorem witness_MrchkAdvancesPastARecord :
    (withFrame record).frameLen.toNat ≤ 4096 ∧ (withFrame record).limit.toNat ≤ (withFrame record).frameLen.toNat ∧
      recordValid (withFrame record) (withFrame record).cursor.toNat (withFrame record).limit.toNat := by
  unfold recordValid
  decide

theorem witness_MrchkFailures_frame_length :
    4096 < ({ withFrame record with frameLen := 4097 } : State).frameLen.toNat := by decide
theorem witness_MrchkFailures_limit :
    (withFrame record).frameLen.toNat ≤ 4096 ∧
      (withFrame record).frameLen.toNat < ({ withFrame record with limit := 8 } : State).limit.toNat := by decide
theorem witness_MrchkFailures_record :
    (withFrame (record.set 1 0x03)).frameLen.toNat ≤ 4096 ∧
      (withFrame (record.set 1 0x03)).limit.toNat ≤ (withFrame (record.set 1 0x03)).frameLen.toNat ∧
      ¬recordValid (withFrame (record.set 1 0x03)) (withFrame (record.set 1 0x03)).cursor.toNat
        (withFrame (record.set 1 0x03)).limit.toNat := by
  unfold recordValid
  decide

theorem witness_AreaPointerStaysInsideTheFrame_failure :
    ∃ t, exec .arealookup State.reset = .next t ∧ t.status.toNat / 16 ≠ 0 := ⟨_, rfl, by decide⟩
theorem witness_AreaPointerStaysInsideTheFrame_success :
    ∃ t, exec .mrchk (withFrame record) = .next t ∧ t.status = 0x00 := ⟨_, rfl, rfl⟩

theorem witness_BuiltAreaPasses :
    headerValid (ranged (boardSlot 0x20) 8 32) ∧ (ranged (boardSlot 0x20) 8 32).slot = 2 ∧
      (ranged (boardSlot 0x20) 8 32).frame.read (1 + (ranged (boardSlot 0x20) 8 32).slot) ≠ 0x00 ∧
      8 = 8 * ((ranged (boardSlot 0x20) 8 32).frame.read (1 + (ranged (boardSlot 0x20) 8 32).slot)).toNat ∧
      ((ranged (boardSlot 0x20) 8 32).frame.read 8).toNat % 16 = 1 ∧
      ((ranged (boardSlot 0x20) 8 32).frame.read (8 + 1)).toNat = 4 ∧
      8 + 8 * 4 ≤ (ranged (boardSlot 0x20) 8 32).frameLen.toNat ∧
      frameSum (ranged (boardSlot 0x20) 8 32) 8 (8 * 4) % 256 = 0 ∧
      (ranged (boardSlot 0x20) 8 32).rangeOff.toNat = 8 ∧
      (ranged (boardSlot 0x20) 8 32).rangeLen.toNat = 8 * 4 := by
  unfold headerValid
  decide

theorem witness_SingleByteCorruptionIsDetected_sum :
    (0xFF : Byte) ≠ (withFrame board).frame.read 39 ∧ 8 ≤ 39 ∧ 39 < 8 + 32 ∧ sum8 (withFrame board) 8 32 = 0 := by decide
theorem witness_SingleByteCorruptionIsDetected_ckchk :
    ∃ t, exec .ckchk (ranged (withFrame [1, 2, 3, 0xFA]) 0 4) = .next t ∧ t.status = 0x00 ∧
      (0xFB : Byte) ≠ (ranged (withFrame [1, 2, 3, 0xFA]) 0 4).frame.read 3 := ⟨_, rfl, rfl, by decide⟩
theorem witness_SingleByteCorruptionIsDetected_hdrchk :
    ∃ t, exec .hdrchk (withFrame (board.take 8)) = .next t ∧ t.status = 0x00 ∧
      (0xFF : Byte) ≠ (withFrame (board.take 8)).frame.read 7 := ⟨_, rfl, rfl, by decide⟩
theorem witness_SingleByteCorruptionIsDetected_mrchk :
    ∃ t, exec .mrchk (withFrame record) = .next t ∧ t.status = 0x00 ∧
      (withFrame record).cursor.toNat ≤ 6 ∧ 6 < t.cursor.toNat ∧ (0x03 : Byte) ≠ (withFrame record).frame.read 6 :=
  ⟨_, rfl, rfl, by decide, by decide, by decide⟩
theorem witness_SingleByteCorruptionIsDetected_arealookup :
    ∃ t, exec .arealookup { withFrame chassis with ctrl := 0x10 } = .next t ∧ t.status = 0x00 ∧
      ({ withFrame chassis with ctrl := 0x10 } : State).slot = 1 ∧ t.areaPtr.toNat ≤ 15 ∧
      15 < t.areaPtr.toNat + t.areaSize.toNat ∧ (0x3E : Byte) ≠ (withFrame chassis).frame.read 15 :=
  ⟨_, rfl, rfl, by decide, by decide, by decide, by decide⟩
theorem witness_SingleByteCorruptionIsDetected_arealookup_record :
    ∃ t, exec .arealookup { withFrame multirecord with ctrl := 0x40 } = .next t ∧ t.status = 0x00 ∧
      ({ withFrame multirecord with ctrl := 0x40 } : State).slot = 4 ∧ t.areaPtr.toNat ≤ 8 ∧
      14 < t.areaPtr.toNat + t.areaSize.toNat ∧ (0xC1 : Byte) ≠ (withFrame multirecord).frame.read 8 ∧
      (0x03 : Byte) ≠ (withFrame multirecord).frame.read 14 :=
  ⟨_, rfl, rfl, by decide, by decide, by decide, by decide, by decide⟩
theorem witness_SingleByteCorruptionIsDetected_arealookup_header :
    (∃ t, exec .arealookup { withFrame chassis with ctrl := 0x10 } = .next t ∧ t.status = 0x00) ∧
      (∃ t, exec .arealookup { withFrame chassis with ctrl := 0x20 } = .next t ∧ t.status = 0x01) ∧
      (0xFF : Byte) ≠ (withFrame chassis).frame.read 7 := ⟨⟨_, rfl, rfl⟩, ⟨_, rfl, rfl⟩, by decide⟩

end Sys2Proof.Tests
end

section
/-! PROOF. Once for all twelve commands: what a command can have written when it ends, and with which code. The facts
about commands below follow from `exec_ends` and do not go through the commands again. -/

namespace Sys2Proof.Machine

/-- The state `u` that command `i` can have made of `s` by the writes before its last, that of STATUS, with what the
command's checks say of the values written. A command that fails has made none (00_scope.md R14). -/
inductive CommandWrites (s : State) : Instr → State → Prop where
  | nothing (i : Instr) : CommandWrites s i s
  | classify (t : Byte) : CommandWrites s .classify (s.setTagTl t)
  | encode (t : Byte) {p : List Byte} (hp : p.length ≤ 64) : CommandWrites s .encode ((s.setTagTl t).setField t p)
  | decode {d : List Byte} (hd : d.length ≤ 126) : CommandWrites s .decode (s.setOut d)
  | tagparse (t : Byte) : CommandWrites s .tagparse (s.setTag t)
  | sentinel (t : Byte) : CommandWrites s .tlstep (s.setTagTl t)
  | field (t : Byte) {p : List Byte} (c : Nat) (hp : p.length ≤ 64) :
      CommandWrites s .tlstep (((s.setTagTl t).setField t p).setCursor c)
  | ckgen (v : Nat) : CommandWrites s .ckgen (s.setCk v)
  | ckchk (v : Nat) : CommandWrites s .ckchk (s.setCk v)
  | area {b n : Nat} (hb : b + n ≤ 4096) : CommandWrites s .arealookup (s.setArea b n)
  | firstRecord {b n : Nat} (hb : b + n ≤ 4096) (hv : (s.frameByte (b + 1)).extractLsb' 0 3 = (2 : BitVec 3)) :
      CommandWrites s .arealookup ((s.setMr b).setArea b n)
  | record {b n : Nat} (c : Nat) (hb : b + n ≤ 4096)
      (hv : (s.frameByte (b + 1)).extractLsb' 0 3 = (2 : BitVec 3)) :
      CommandWrites s .mrchk (((s.setMr b).setArea b n).setCursor c)

/-- `t` is a state in which command `i` can end when it starts in `s`: its writes, then one of its codes in STATUS. -/
def CommandEnds (i : Instr) (s t : State) : Prop :=
  ∃ c ∈ statusesOf i, ∃ u, CommandWrites s i u ∧ t = u.setStatus c.toByte

section
variable {i : Instr} {s t : State}

/-- A command that writes nothing but STATUS. -/
theorem CommandEnds.statusOnly {c : StatusCode} (hc : c ∈ statusesOf i) : CommandEnds i s (s.setStatus c.toByte) :=
  ⟨c, hc, s, .nothing i, rfl⟩

/-- A command that ends after writes, with the code it gives for success. -/
theorem CommandEnds.after {c : StatusCode} {u : State} (hc : c ∈ statusesOf i) (hu : CommandWrites s i u) :
    CommandEnds i s (u.setStatus c.toByte) :=
  ⟨c, hc, u, hu, rfl⟩

/-! ## The field codec and the tag parser -/

theorem pack_length_le {g : Typelen} (h : s.plan = .ok g) : (pack g.type s.value).length ≤ 64 := by
  obtain ⟨-, hlen, hmax⟩ := plan_ok.1 h
  rw [pack_length, State.value, Memory.readBytes_length, ← hlen]
  omega

theorem unpack_fieldPayload_length_le (s : State) : (unpack s.fieldTag.type s.fieldPayload).length ≤ 126 := by
  have hpay : s.fieldPayload.length = s.fieldTag.len := Memory.readBytes_length ..
  have hlen : s.fieldTag.len < 64 := decodeTypelen_len_lt s.fieldTl
  exact (unpack_length_le _ _).trans (dlen_le _ _ (by omega))

theorem plan_error_mem {c : StatusCode} (h : s.plan = .error c) :
    c ∈ [StatusCode.ok, .errBadMode, .errBadChar, .errLengthExceeded] := by
  rcases plan_error_code h with rfl | rfl | rfl <;> decide

theorem execClassify_ends (h : execClassify s = .next t) : CommandEnds .classify s t := by
  rcases execClassify_cases h with ⟨c, hc, rfl⟩ | ⟨g, -, rfl⟩
  · exact .statusOnly (plan_error_mem hc)
  · exact .after (c := .ok) (by decide) (.classify _)

theorem execEncode_ends (h : execEncode s = .next t) : CommandEnds .encode s t := by
  rcases execEncode_cases h with ⟨c, hc, rfl⟩ | ⟨g, hg, rfl⟩
  · exact .statusOnly (plan_error_mem hc)
  · exact .after (c := .ok) (by decide) (.encode _ (pack_length_le hg))

theorem execDecode_ends (h : execDecode s = .next t) : CommandEnds .decode s t := by
  rcases execDecode_cases h with ⟨-, rfl⟩ | ⟨-, rfl⟩
  · exact .statusOnly (c := .errCapacity) (by decide)
  · exact .after (c := .ok) (by decide) (.decode (unpack_fieldPayload_length_le s))

theorem execTlstep_ends (h : execTlstep s = .next t) : CommandEnds .tlstep s t := by
  rcases execTlstep_cases h with ⟨-, rfl⟩ | ⟨-, rfl, -⟩ | ⟨-, -, -, -, rfl⟩ | ⟨-, -, -, -, rfl⟩
  · exact .statusOnly (c := .errBadFrameLen) (by decide)
  · exact .statusOnly (c := .errBounds) (by decide)
  · exact .after (c := .eof) (by decide) (.sentinel _)
  · refine .after (c := .ok) (by decide) (.field _ _ ?_)
    rw [State.frameBytes, Memory.readBytes_length]
    omega

/-! ## The validator -/

theorem execCkgen_ends (h : execCkgen s = .next t) : CommandEnds .ckgen s t := by
  rcases execCkgen_cases h with ⟨-, rfl⟩ | ⟨-, -, rfl⟩ | ⟨-, -, rfl⟩
  · exact .statusOnly (c := .errBadFrameLen) (by decide)
  · exact .statusOnly (c := .errBounds) (by decide)
  · exact .after (c := .ok) (by decide) (.ckgen _)

theorem execCkchk_ends (h : execCkchk s = .next t) : CommandEnds .ckchk s t := by
  rcases execCkchk_cases h with ⟨-, rfl⟩ | ⟨-, -, rfl⟩ | ⟨-, -, -, rfl⟩ | ⟨-, -, -, rfl⟩
  · exact .statusOnly (c := .errBadFrameLen) (by decide)
  · exact .statusOnly (c := .errBounds) (by decide)
  · exact .statusOnly (c := .errChecksum) (by decide)
  · exact .after (c := .ok) (by decide) (.ckchk _)

theorem execBounds_ends (h : execBounds s = .next t) : CommandEnds .bounds s t := by
  rcases execBounds_cases h with ⟨-, rfl⟩ | ⟨-, -, rfl⟩ | ⟨-, -, rfl⟩
  · exact .statusOnly (c := .errBadFrameLen) (by decide)
  · exact .statusOnly (c := .errBounds) (by decide)
  · exact .statusOnly (c := .ok) (by decide)

theorem execHdrchk_ends (h : execHdrchk s = .next t) : CommandEnds .hdrchk s t := by
  rcases execHdrchk_cases h with ⟨-, rfl⟩ | ⟨-, c, hc, rfl⟩ | ⟨-, -, rfl⟩
  · exact .statusOnly (c := .errBadFrameLen) (by decide)
  · refine .statusOnly ?_
    rcases hdrCheck_error hc with rfl | rfl | rfl | rfl | rfl <;> decide
  · exact .statusOnly (c := .ok) (by decide)

/-- A record that passes has version 2 in its flags byte (42_validator.md R311). -/
theorem mrCheck_version {c lim size : Nat} (h : mrCheck s c lim = .ok size) :
    (s.frameByte (c + 1)).extractLsb' 0 3 = (2 : BitVec 3) := by
  obtain ⟨-, hversion, -⟩ := mrCheck_ok.1 h
  exact (versionBits_eq_two _).2 hversion

/-- A record that passes ends inside its bound (42_validator.md R311). -/
theorem mrCheck_inside {c lim size : Nat} (h : mrCheck s c lim = .ok size) : c + size ≤ lim := by
  obtain ⟨-, -, -, -, hinside, -⟩ := mrCheck_ok.1 h
  exact hinside

theorem execArealookup_ends (h : execArealookup s = .next t) : CommandEnds .arealookup s t := by
  rcases execArealookup_cases h with ⟨-, rfl⟩ | ⟨-, -, rfl⟩ | ⟨-, -, c, hc, rfl⟩ | ⟨-, -, -, -, rfl⟩ |
    ⟨-, -, -, -, c, hc, rfl⟩ | ⟨hfl, -, -, -, size, hok, ⟨hslot, rfl⟩ | ⟨-, rfl⟩⟩
  · exact .statusOnly (c := .errBadFrameLen) (by decide)
  · exact .statusOnly (c := .errBadSlot) (by decide)
  · refine .statusOnly ?_
    rcases hdrCheck_error hc with rfl | rfl | rfl | rfl | rfl <;> decide
  · exact .after (c := .absent) (by decide) (.area (by decide))
  · refine .statusOnly ?_
    rcases areaCheck_error hc with rfl | rfl | rfl | rfl <;> decide
  · rw [hslot] at hok ⊢
    exact .after (c := .ok) (by decide) (.firstRecord ((areaCheck_inside hok).trans hfl) (mrCheck_version hok))
  · exact .after (c := .ok) (by decide) (.area ((areaCheck_inside hok).trans hfl))

theorem execMrchk_ends (h : execMrchk s = .next t) : CommandEnds .mrchk s t := by
  rcases execMrchk_cases h with ⟨-, rfl⟩ | ⟨-, -, rfl⟩ | ⟨-, -, c, hc, rfl⟩ | ⟨hfl, hlim, size, hok, rfl⟩
  · exact .statusOnly (c := .errBadFrameLen) (by decide)
  · exact .statusOnly (c := .errBounds) (by decide)
  · refine .statusOnly ?_
    rcases mrCheck_error hc with rfl | rfl | rfl <;> decide
  · have hinside := mrCheck_inside hok
    exact .after (c := .ok) (by decide) (.record _ (by omega) (mrCheck_version hok))

/-! ## Every command -/

/-- Everything a command can do, said once for all of them. -/
theorem exec_ends (h : exec i s = .next t) : CommandEnds i s t := by
  cases i with
  | nop => exact execNop_cases h ▸ .statusOnly (c := .ok) (by decide)
  | classify => exact execClassify_ends h
  | encode => exact execEncode_ends h
  | decode => exact execDecode_ends h
  | tagparse => exact execTagparse_cases h ▸ .after (c := .ok) (by decide) (.tagparse _)
  | tlstep => exact execTlstep_ends h
  | ckgen => exact execCkgen_ends h
  | ckchk => exact execCkchk_ends h
  | bounds => exact execBounds_ends h
  | hdrchk => exact execHdrchk_ends h
  | arealookup => exact execArealookup_ends h
  | mrchk => exact execMrchk_ends h

end

end Sys2Proof.Machine
end

section
/-! PROOF. Every step keeps `State.Inv`: each operation on the state keeps it, a command is a list of such operations
(`exec_ends`), and a step is a command, a host access or a reset (`step_cases`). -/

namespace Sys2Proof.Machine

/-! ## Facts about buffers and tags -/

/-- A buffer reads 0x00 past its size. -/
theorem Memory.read_of_within {m : Memory} {cap a : Nat} (h : m.within cap = true) (ha : cap ≤ a) :
    m.read a = 0x00 := by
  rw [Memory.within_iff] at h
  induction m with
  | nil => rfl
  | cons c m ih =>
    have hc : c.1 < cap := h c List.mem_cons_self
    rw [Memory.read_cons, if_neg (by omega)]
    exact ih fun d hd => h d (List.mem_cons_of_mem _ hd)

/-- After a fill a buffer reads 0x00 from the end of the string on. -/
theorem Memory.read_fill_past {m : Memory} {cap k : Nat} {bs : List Byte} (h : m.within cap = true)
    (hl : bs.length ≤ cap) (hk : bs.length ≤ k) : (m.fill cap bs).read k = 0x00 := by
  rw [Memory.read_fill _ _ _ _ hl]
  split
  · exact List.getD_eq_default _ _ hk
  · exact Memory.read_of_within h (by omega)

theorem tagTypeOf_toNat (t : Byte) : (tagTypeOf t).toNat = t.toNat / 64 := by
  rw [tagTypeOf_eq, BitVec.toNat_ofNat]
  omega

theorem tagLenOf_toNat (t : Byte) : (tagLenOf t).toNat = t.toNat % 64 := by
  rw [tagLenOf_eq, BitVec.toNat_ofNat]
  omega

/-- TAG_TYPE and TAG_LEN are those of the sentinel for the sentinel only. -/
theorem tagOf_sentinel_iff (t : Byte) : tagTypeOf t = 3 ∧ tagLenOf t = 1 ↔ t = 0xC1 := by
  simp only [← BitVec.toNat_inj, tagTypeOf_toNat, tagLenOf_toNat, BitVec.reduceToNat]
  omega

/-- TAG_DLEN is the decoded length for the type in TAG_TYPE and the wire length in TAG_LEN, and does not wrap. -/
theorem tagDlenOf_toNat (t : Byte) :
    (tagDlenOf t).toNat = dlen (FieldType.ofCode ((tagTypeOf t).setWidth 2)) (tagLenOf t).toNat := by
  have htype : FieldType.ofCode ((tagTypeOf t).setWidth 2) = (decodeTypelen t).type := by
    simp [tagTypeOf, decodeTypelen]
  have hle := dlen_le (decodeTypelen t).type (decodeTypelen t).len (by have := decodeTypelen_len_lt t; omega)
  rw [htype, tagLenOf_toNat, ← decodeTypelen_len, tagDlenOf, BitVec.toNat_ofNat]
  omega

/-! ## The operations of commands keep the invariant -/

namespace State.Inv
variable {s : State}

theorem setPending (h : s.Inv) (es : List HostEvent) : (s.setPending es).Inv :=
  { h with }

/-- A new command byte keeps the invariant when STATUS takes a code of that command with it. -/
theorem setCmd_setStatus (h : s.Inv) {b : Byte} {c : StatusCode} (hc : c ∈ statusesOfByte b) :
    ((s.setCmd b).setStatus c.toByte).Inv :=
  { h with status := List.mem_map_of_mem hc }

theorem setTag (h : s.Inv) (t : Byte) : (s.setTag t).Inv :=
  { h with
    tag := ⟨by have := t.isLt; rw [State.setTag_tagType, tagTypeOf_toNat]; omega,
      by rw [State.setTag_tagLen, tagLenOf_toNat]; omega⟩
    tagFlags := by
      simp only [State.setTag_tagFlags, State.setTag_tagType, State.setTag_tagLen, tagOf_sentinel_iff, tagFlagsOf_eq]
    tagDlen := tagDlenOf_toNat t }

theorem setTagTl (h : s.Inv) (t : Byte) : (s.setTagTl t).Inv :=
  { h.setTag t with }

theorem setField (h : s.Inv) (t : Byte) {p : List Byte} (hp : p.length ≤ 64) : (s.setField t p).Inv :=
  { h with fieldBuf := ⟨Memory.wf_fill _ _ _ h.fieldBuf.1, Memory.within_fill _ _ _ h.fieldBuf.2 hp⟩ }

theorem setOut (h : s.Inv) {d : List Byte} (hd : d.length ≤ 126) : (s.setOut d).Inv := by
  obtain ⟨hwf, hwithin⟩ := h.outBuf
  have hcap : d.length ≤ 128 := by omega
  have hlen : (s.setOut d).outLen.toNat = d.length := by
    rw [State.setOut_outLen, BitVec.toNat_ofNat]
    omega
  exact { h with
    outBuf := ⟨Memory.wf_fill _ _ _ hwf, Memory.within_fill _ _ _ hwithin hcap⟩
    out := ⟨by omega, fun k hk => Memory.read_fill_past hwithin hcap (hlen ▸ hk)⟩ }

theorem setCk (h : s.Inv) (v : Nat) : (s.setCk v).Inv :=
  { h with }

theorem setCursor (h : s.Inv) (c : Nat) : (s.setCursor c).Inv :=
  { h with }

theorem setArea (h : s.Inv) {b n : Nat} (hb : b + n ≤ 4096) : (s.setArea b n).Inv :=
  { h with area := by simp only [State.setArea_areaPtr, State.setArea_areaSize, BitVec.toNat_ofNat]; omega }

theorem setMr (h : s.Inv) {b : Nat} (hv : (s.frameByte (b + 1)).extractLsb' 0 3 = (2 : BitVec 3)) :
    (s.setMr b).Inv :=
  { h with mrFlags := .inr hv }

end State.Inv

/-- A command's writes keep the invariant. STATUS stands in `s` already with the code the command will end with, since
the writes before it leave STATUS alone. -/
theorem CommandWrites.keeps_inv {i : Instr} {s u : State} {b : Byte} (hw : CommandWrites s i u)
    (h : (s.setStatus b).Inv) : (u.setStatus b).Inv := by
  cases hw with
  | nothing => exact h
  | classify t => exact h.setTagTl t
  | encode t hp => exact (h.setTagTl t).setField t hp
  | decode hd => exact h.setOut hd
  | tagparse t => exact h.setTag t
  | sentinel t => exact h.setTagTl t
  | field t c hp => exact ((h.setTagTl t).setField t hp).setCursor c
  | ckgen v => exact h.setCk v
  | ckchk v => exact h.setCk v
  | area hb => exact h.setArea hb
  | firstRecord hb hv => exact (h.setMr hv).setArea hb
  | record c hb hv => exact ((h.setMr hv).setArea hb).setCursor c

/-! ## A command started by its byte keeps the invariant -/

theorem statusesOfByte_ok {b : Byte} {i : Instr} (h : decodeByte b = .ok i) : statusesOfByte b = statusesOf i := by
  simp only [statusesOfByte, h]

theorem statusesOfByte_error {b : Byte} {e : DecodeError} (h : decodeByte b = .error e) :
    statusesOfByte b = [.errBadCmd] := by
  simp only [statusesOfByte, h]

/-- A command that runs on its own byte in CMD ends in a state that meets the invariant. -/
theorem exec_keeps_inv {b : Byte} {i : Instr} {s t : State} (hd : decodeByte b = .ok i) (h : s.Inv)
    (he : exec i (s.setCmd b) = .next t) : t.Inv := by
  obtain ⟨c, hc, u, hu, rfl⟩ := exec_ends he
  exact hu.keeps_inv (h.setCmd_setStatus (statusesOfByte_ok hd ▸ hc))

/-! ## Host writes and reset keep the invariant -/

namespace State.Inv
variable {s : State}

/-- A host write to an 8-bit register other than CMD keeps the invariant: of those it can reach, only CTRL has
hardwired bits. -/
theorem set8 (h : s.Inv) {r : Reg8} (hw : Reg8.hostWritable r = true) (hr : r ≠ .cmd) (b : Byte) :
    (s.set8 r (b &&& Reg8.mask r)).Inv := by
  cases r with
  | cmd => exact absurd rfl hr
  | ctrl => exact { h with ctrl := by simp [State.set8, Reg8.mask] }
  | inLen => exact { h with }
  | outCap => exact { h with }
  | fieldTl => exact { h with }
  | tagTl => exact { h with }
  | _ => cases hw

theorem set16 (h : s.Inv) {r : Reg16} (hw : Reg16.hostWritable r = true) (v : Half) : (s.set16 r v).Inv := by
  cases r with
  | areaPtr => cases hw
  | areaSize => cases hw
  | _ => exact { h with }

theorem setBuf_write (h : s.Inv) {k : Buffer} {i : Nat} (hw : Buffer.hostWritable k = true)
    (hi : i < Buffer.capacity k) (b : Byte) :
    (s.setBuf k ((s.getBuf k).write i b)).Inv := by
  cases k with
  | outBuf => cases hw
  | fieldBuf => exact { h with
      fieldBuf := ⟨Memory.wf_write _ _ _ h.fieldBuf.1, Memory.within_write _ _ _ _ h.fieldBuf.2 hi⟩ }
  | inBuf => exact { h with
      inBuf := ⟨Memory.wf_write _ _ _ h.inBuf.1, Memory.within_write _ _ _ _ h.inBuf.2 hi⟩ }
  | frame => exact { h with
      frame := ⟨Memory.wf_write _ _ _ h.frame.1, Memory.within_write _ _ _ _ h.frame.2 hi⟩ }

/-- A host write to an offset other than CMD's keeps the invariant. -/
theorem hostStore (h : s.Inv) {off : Offset} (hoff : off ≠ 0x000) (b : Byte) : (mmioStore s off b).Inv := by
  have hplace := placeAt_offset off.toNat
  unfold mmioStore
  cases hp : placeAt off.toNat with
  | reg8 r =>
    simp only [hp] at hplace ⊢
    split
    · next hw =>
      refine h.set8 hw (fun hr => hoff (BitVec.eq_of_toNat_eq ?_)) b
      rw [hplace, hr]
      rfl
    · exact h
  | low r =>
    simp only []
    split
    · next hw => exact h.set16 hw _
    · exact h
  | high r =>
    simp only []
    split
    · next hw => exact h.set16 hw _
    · exact h
  | buf k i =>
    simp only [hp] at hplace ⊢
    split
    · next hw => exact h.setBuf_write hw hplace.2 b
    · exact h
  | reserved => exact h

end State.Inv

theorem inv_reset : State.Inv State.reset where
  fieldBuf := by decide
  outBuf := by decide
  inBuf := by decide
  frame := by decide
  ctrl := by decide
  tag := by decide
  tagFlags := by decide
  tagDlen := by decide
  status := by decide
  out := ⟨by decide, fun _ _ => rfl⟩
  area := by decide
  mrFlags := by decide

/-- Settles O14, by cases on what the step does: hold, a host read, a store, a command, an illegal byte, a reset. -/
theorem everyStepKeepsInvariant : Obligations.EveryStepKeepsInvariant := by
  unfold Obligations.EveryStepKeepsInvariant
  intro s t h hstep
  rcases step_cases hstep with ⟨-, rfl⟩ | ⟨es, ⟨off, -, rfl⟩ | ⟨off, b, -, hoff, rfl⟩ | ⟨b, i, -, hd, he⟩ |
    ⟨b, e, -, hd, rfl⟩ | ⟨-, rfl⟩⟩
  · exact h
  · exact { h with }
  · exact (h.setPending es).hostStore hoff b
  · exact exec_keeps_inv hd (h.setPending es) he
  · have hcode : StatusCode.errBadCmd ∈ statusesOfByte b := by rw [statusesOfByte_error hd]; decide
    exact (h.setPending es).setCmd_setStatus hcode
  · exact { inv_reset with }

end Sys2Proof.Machine
end

section
/-! PROOF. What a command leaves unchanged (10_state.md R31): every named update of the state is a list of writes to
single registers and buffers, and those of a command are in its list. -/

namespace Sys2Proof.Machine

/-- `t` is `s` but for registers and buffers that command `i` is listed to write. -/
def WritesOnly (i : Instr) (s t : State) : Prop :=
  (∀ r, r ∉ writes8 i → t.get8 r = s.get8 r) ∧ (∀ r, r ∉ writes16 i → t.get16 r = s.get16 r) ∧
    (∀ b, b ∉ writesBuf i → t.getBuf b = s.getBuf b) ∧ t.pending = s.pending ∧ t.hostReads = s.hostReads

namespace WritesOnly
variable {i : Instr} {s t : State}

theorem refl (i : Instr) (s : State) : WritesOnly i s s :=
  ⟨fun _ _ => rfl, fun _ _ => rfl, fun _ _ => rfl, rfl, rfl⟩

/-! ## One register or buffer -/

theorem set8 (h : WritesOnly i s t) {r : Reg8} (hr : r ∈ writes8 i) (b : Byte) : WritesOnly i s (t.set8 r b) := by
  obtain ⟨h8, h16, hbuf, hpend, hreads⟩ := h
  refine ⟨fun q hq => ?_, fun q hq => ?_, fun k hk => ?_, ?_, ?_⟩
  · rw [get8_set8, if_neg (ne_of_mem_of_not_mem hr hq).symm, h8 q hq]
  · rw [get16_set8, h16 q hq]
  · rw [getBuf_set8, hbuf k hk]
  · cases r <;> exact hpend
  · cases r <;> exact hreads

theorem set16 (h : WritesOnly i s t) {r : Reg16} (hr : r ∈ writes16 i) (v : Half) : WritesOnly i s (t.set16 r v) := by
  obtain ⟨h8, h16, hbuf, hpend, hreads⟩ := h
  refine ⟨fun q hq => ?_, fun q hq => ?_, fun k hk => ?_, ?_, ?_⟩
  · rw [get8_set16, h8 q hq]
  · rw [get16_set16, if_neg (ne_of_mem_of_not_mem hr hq).symm, h16 q hq]
  · rw [getBuf_set16, hbuf k hk]
  · cases r <;> exact hpend
  · cases r <;> exact hreads

theorem setBuf (h : WritesOnly i s t) {k : Buffer} (hk : k ∈ writesBuf i) (m : Memory) :
    WritesOnly i s (t.setBuf k m) := by
  obtain ⟨h8, h16, hbuf, hpend, hreads⟩ := h
  refine ⟨fun q hq => ?_, fun q hq => ?_, fun j hj => ?_, ?_, ?_⟩
  · rw [get8_setBuf, h8 q hq]
  · rw [get16_setBuf, h16 q hq]
  · rw [getBuf_setBuf, if_neg (ne_of_mem_of_not_mem hk hj).symm, hbuf j hj]
  · cases k <;> exact hpend
  · cases k <;> exact hreads

/-! ## The named updates -/

/-- Every command is listed to write STATUS. -/
theorem setStatus (h : WritesOnly i s t) (b : Byte) : WritesOnly i s (t.setStatus b) :=
  h.set8 (r := .status) (by cases i <;> decide) b

theorem setTag (h : WritesOnly i s t) (hw : [.tagType, .tagLen, .tagFlags, .tagDlen] ⊆ writes8 i) (b : Byte) :
    WritesOnly i s (t.setTag b) :=
  (((h.set8 (r := .tagType) (hw (by decide)) (tagTypeOf b)).set8 (r := .tagLen) (hw (by decide)) (tagLenOf b)).set8
    (r := .tagFlags) (hw (by decide)) (tagFlagsOf b)).set8 (r := .tagDlen) (hw (by decide)) (tagDlenOf b)

theorem setTagTl (h : WritesOnly i s t) (hw : [.tagTl, .tagType, .tagLen, .tagFlags, .tagDlen] ⊆ writes8 i)
    (b : Byte) : WritesOnly i s (t.setTagTl b) :=
  (h.set8 (r := .tagTl) (hw (by decide)) b).setTag (List.Subset.trans (List.subset_cons_self ..) hw) b

theorem setField (h : WritesOnly i s t) (h8 : .fieldTl ∈ writes8 i) (hbuf : .fieldBuf ∈ writesBuf i) (b : Byte)
    (p : List Byte) : WritesOnly i s (t.setField b p) :=
  (h.set8 h8 b).setBuf hbuf (t.fieldBuf.fill Config.fieldCap p)

theorem setOut (h : WritesOnly i s t) (h8 : .outLen ∈ writes8 i) (hbuf : .outBuf ∈ writesBuf i) (d : List Byte) :
    WritesOnly i s (t.setOut d) :=
  (h.set8 h8 (BitVec.ofNat 8 d.length)).setBuf hbuf (t.outBuf.fill Config.outCapMax d)

theorem setCk (h : WritesOnly i s t) (h8 : .ckResult ∈ writes8 i) (v : Nat) : WritesOnly i s (t.setCk v) :=
  h.set8 h8 (BitVec.ofNat 8 v)

theorem setArea (h : WritesOnly i s t) (hptr : .areaPtr ∈ writes16 i) (hsize : .areaSize ∈ writes16 i) (b n : Nat) :
    WritesOnly i s (t.setArea b n) :=
  (h.set16 hptr (BitVec.ofNat 16 b)).set16 hsize (BitVec.ofNat 16 n)

theorem setMr (h : WritesOnly i s t) (htype : .mrType ∈ writes8 i) (hflags : .mrFlags ∈ writes8 i) (b : Nat) :
    WritesOnly i s (t.setMr b) :=
  (h.set8 htype (t.frameByte b)).set8 hflags (t.frameByte (b + 1))

theorem setCursor (h : WritesOnly i s t) (h16 : .cursor ∈ writes16 i) (c : Nat) : WritesOnly i s (t.setCursor c) :=
  h.set16 h16 (BitVec.ofNat 16 c)

end WritesOnly

/-- The writes of a command are to registers and buffers in its list. -/
theorem CommandWrites.writesOnly {i : Instr} {s u : State} (hw : CommandWrites s i u) : WritesOnly i s u := by
  have h := WritesOnly.refl i s
  cases hw with
  | nothing => exact h
  | classify t => exact h.setTagTl (by decide) t
  | encode t hp => exact (h.setTagTl (by decide) t).setField (by decide) (by decide) t _
  | decode hd => exact h.setOut (by decide) (by decide) _
  | tagparse t => exact h.setTag (by decide) t
  | sentinel t => exact h.setTagTl (by decide) t
  | field t c hp => exact ((h.setTagTl (by decide) t).setField (by decide) (by decide) t _).setCursor (by decide) c
  | ckgen v => exact h.setCk (by decide) v
  | ckchk v => exact h.setCk (by decide) v
  | area hb => exact h.setArea (by decide) (by decide) _ _
  | firstRecord hb hv => exact (h.setMr (by decide) (by decide) _).setArea (by decide) (by decide) _ _
  | record c hb hv =>
    exact ((h.setMr (by decide) (by decide) _).setArea (by decide) (by decide) _ _).setCursor (by decide) c

/-- Settles O18, from what a command can have written when it ends. -/
theorem commandsWriteOnlyTheirRegisters : Obligations.CommandsWriteOnlyTheirRegisters := by
  unfold Obligations.CommandsWriteOnlyTheirRegisters
  intro i s t h
  obtain ⟨c, -, u, hu, rfl⟩ := exec_ends h
  exact hu.writesOnly.setStatus c.toByte

end Sys2Proof.Machine
end

section
/-! PROOF. The window from the host's side (20_memory.md): what a read gives at each offset of the map, and where a
write is kept or dropped. -/

namespace Sys2Proof.Machine

/-! ## Reads -/

theorem step_idle {s : State} (h : s.pending = []) : step s = .next s := by
  simp only [step, h]

/-- Settles O6, from what a step does with its first pending event and with none. -/
theorem readsAndIdlingChangeNothing : Obligations.ReadsAndIdlingChangeNothing := by
  unfold Obligations.ReadsAndIdlingChangeNothing
  exact ⟨fun _ _ _ h => step_cons h, fun _ h => step_idle h⟩

section
variable (s : State)

/-- The byte a read gives does not depend on what the host has still to do. -/
@[simp] theorem mmioRead_setPending (es : List HostEvent) (off : Offset) :
    mmioRead (s.setPending es) off = mmioRead s off := by
  unfold mmioRead
  cases placeAt off.toNat with
  | buf k i => cases k <;> rfl
  | reg8 r => cases r <;> rfl
  | low r => cases r <;> rfl
  | high r => cases r <;> rfl
  | reserved => rfl

theorem mmioRead_reg8 (r : Reg8) : mmioRead s (BitVec.ofNat 13 (Reg8.offset r)) = s.get8 r &&& Reg8.mask r := by
  have hoff : (BitVec.ofNat 13 (Reg8.offset r)).toNat = Reg8.offset r := by cases r <;> rfl
  simp only [mmioRead, hoff, placeAt_reg8]

/-- An 8-bit register with no hardwired bit is read as it stands. -/
theorem mmioRead_reg8_whole (r : Reg8) (h : Reg8.mask r = 0xFF) :
    mmioRead s (BitVec.ofNat 13 (Reg8.offset r)) = s.get8 r := by
  rw [mmioRead_reg8, h]
  exact BitVec.and_allOnes

theorem mmioRead_low (r : Reg16) : mmioRead s (BitVec.ofNat 13 (Reg16.offset r)) = lowByte (s.get16 r) := by
  have hoff : (BitVec.ofNat 13 (Reg16.offset r)).toNat = Reg16.offset r := by cases r <;> rfl
  simp only [mmioRead, hoff, placeAt_low]

theorem mmioRead_high (r : Reg16) : mmioRead s (BitVec.ofNat 13 (Reg16.offset r + 1)) = highByte (s.get16 r) := by
  have hoff : (BitVec.ofNat 13 (Reg16.offset r + 1)).toNat = Reg16.offset r + 1 := by cases r <;> rfl
  simp only [mmioRead, hoff, placeAt_high]

/-- Every buffer ends inside the window. -/
theorem Buffer.end_le_window (k : Buffer) : Buffer.base k + Buffer.capacity k ≤ 2 ^ 13 := by
  cases k <;> decide

theorem mmioRead_buf (k : Buffer) {i : Nat} (h : i < Buffer.capacity k) :
    mmioRead s (BitVec.ofNat 13 (Buffer.base k + i)) = (s.getBuf k).read i := by
  have hoff : (BitVec.ofNat 13 (Buffer.base k + i)).toNat = Buffer.base k + i := by
    have hend := Buffer.end_le_window k
    rw [BitVec.toNat_ofNat, Nat.mod_eq_of_lt (by omega)]
  simp only [mmioRead, hoff, placeAt_buf k i h]

theorem mmioRead_reserved {off : Offset} (h : placeAt off.toNat = .reserved) : mmioRead s off = 0x00 := by
  simp only [mmioRead, h]

/-- A 16-bit register in the window, little-endian (20_memory.md R106). -/
theorem get16_toNat (r : Reg16) :
    (s.get16 r).toNat = (mmioRead s (BitVec.ofNat 13 (Reg16.offset r))).toNat +
      256 * (mmioRead s (BitVec.ofNat 13 (Reg16.offset r + 1))).toNat := by
  rw [mmioRead_low, mmioRead_high]
  exact half_toNat _

end

/-- Settles O9, register by register from `get16_toNat`. -/
theorem sixteenBitRegistersAreLittleEndian : Obligations.SixteenBitRegistersAreLittleEndian := by
  unfold Obligations.SixteenBitRegistersAreLittleEndian
  exact fun s => ⟨get16_toNat s .frameLen, get16_toNat s .rangeOff, get16_toNat s .rangeLen, get16_toNat s .cursor,
    get16_toNat s .limit, get16_toNat s .areaPtr, get16_toNat s .areaSize⟩

/-! ## Writes -/

/-- A write to an offset other than CMD's is a step that stores and no more. -/
theorem step_write {s : State} {off : Offset} {b : Byte} {es : List HostEvent} (h : s.pending = .write off b :: es)
    (hoff : off ≠ 0x000) : step s = .next (mmioStore (s.setPending es) off b) :=
  (step_cons h).trans (hostWrite_store hoff b _)

section
variable (s : State) {off : Offset} (b : Byte)

/-- A store at an offset that is not host-writable is dropped (20_memory.md R102). -/
theorem mmioStore_dropped (hoff : off ≠ 0x000) (h : storedOffset off.toNat = false) : mmioStore s off b = s := by
  rw [storedOffset_eq _ off.isLt (BitVec.toNat_ne.1 hoff)] at h
  unfold mmioStore
  cases hp : placeAt off.toNat with
  | reserved => rfl
  | _ =>
    simp only [hp] at h
    simp [h]

/-- CTRL stands at its offset only. -/
theorem placeAt_ctrl_iff : placeAt off.toNat = .reg8 .ctrl ↔ off = 0x002 := by
  constructor
  · intro h
    have hplace := placeAt_offset off.toNat
    rw [h] at hplace
    exact BitVec.eq_of_toNat_eq hplace
  · rintro rfl
    exact placeAt_reg8 .ctrl

/-- Of the 8-bit registers the host may write, CTRL alone has a hardwired bit. -/
theorem and_mask_of_hostWritable {r : Reg8} (h : Reg8.hostWritable r = true) :
    b &&& Reg8.mask r = if r = .ctrl then b &&& 0x7F else b := by
  have hwhole : b &&& 0xFF = b := BitVec.and_allOnes
  cases r with
  | ctrl => rfl
  | cmd | inLen | outCap | fieldTl | tagTl => exact hwhole
  | _ => cases h

/-- A store at a host-writable offset is read back there (20_memory.md R105), CTRL[7] apart (10_state.md R35). -/
theorem mmioRead_mmioStore_stored (hoff : off ≠ 0x000) (h : storedOffset off.toNat = true) :
    mmioRead (mmioStore s off b) off = if off = 0x002 then b &&& 0x7F else b := by
  rw [storedOffset_eq _ off.isLt (BitVec.toNat_ne.1 hoff)] at h
  rw [mmioRead_mmioStore_self]
  simp only [← placeAt_ctrl_iff]
  cases hp : placeAt off.toNat <;> simp only [hp] at h ⊢
  case reg8 r => simp [h, and_mask_of_hostWritable b h]
  case reserved => cases h
  all_goals simp [h]

end

/-- Settles O7: the map read place by place, then a store seen at its own offset or dropped. -/
theorem hostWriteIsReadBack : Obligations.HostWriteIsReadBack := by
  unfold Obligations.HostWriteIsReadBack
  refine ⟨fun s => ?_, fun s off b es hp hoff => ?_⟩
  · exact ⟨mmioRead_reg8_whole s .cmd rfl, mmioRead_reg8_whole s .status rfl, mmioRead_reg8 s .ctrl,
      mmioRead_reg8_whole s .inLen rfl, mmioRead_reg8_whole s .outCap rfl, mmioRead_reg8_whole s .outLen rfl,
      mmioRead_reg8_whole s .fieldTl rfl, mmioRead_reg8_whole s .tagTl rfl, mmioRead_reg8 s .tagType,
      mmioRead_reg8 s .tagLen, mmioRead_reg8 s .tagFlags, mmioRead_reg8_whole s .tagDlen rfl,
      mmioRead_reg8_whole s .ckResult rfl, mmioRead_reg8_whole s .mrType rfl, mmioRead_reg8_whole s .mrFlags rfl,
      fun _ hk => mmioRead_buf s .fieldBuf hk, fun _ hk => mmioRead_buf s .outBuf hk,
      fun _ hk => mmioRead_buf s .inBuf hk, fun _ hk => mmioRead_buf s .frame hk⟩
  · obtain ⟨hpend, hreads⟩ := mmioStore_port (s.setPending es) off b
    refine ⟨_, step_write hp hoff, hpend, hreads, fun a => ?_⟩
    cases hst : storedOffset off.toNat with
    | false => simp [mmioStore_dropped _ _ hoff hst]
    | true =>
      by_cases ha : a = off
      · simp [ha, mmioRead_mmioStore_stored _ _ hoff hst]
      · simp [ha, mmioRead_mmioStore_ne _ b ha]

/-- Settles O8: at a reserved offset nothing stands, and a store that is not host-writable is dropped. -/
theorem reservedAndReadOnlyIgnoreWrites : Obligations.ReservedAndReadOnlyIgnoreWrites := by
  unfold Obligations.ReservedAndReadOnlyIgnoreWrites
  refine ⟨fun s off h => mmioRead_reserved s ((reservedOffset_iff _ off.isLt).1 h), fun s off b es hp hoff hst => ?_⟩
  rw [step_write hp hoff, mmioStore_dropped _ _ hoff hst]
  rfl

end Sys2Proof.Machine
end

section
/-! PROOF. Nothing FFCV does sees or changes the accesses still pending (log entry 1), so that a list of them runs as
its events one after another (20_memory.md R113). -/

namespace Sys2Proof.Machine

/-- From every state `f` ends in a next state, and in the same one whatever is pending, which it leaves pending. -/
def IgnoresPending (f : State → Result) : Prop :=
  ∀ s : State, ∃ t : State, ∀ es, f (s.setPending es) = .next (t.setPending es)

namespace IgnoresPending

/-! ## What commands are built of

That a command's tests, checks and updates do not see the pending events holds by `rfl`, which is filled in. -/

variable {f g : State → Result} {u : State → State}

theorem next (hu : ∀ s es, u (s.setPending es) = (u s).setPending es := by intros; rfl) :
    IgnoresPending fun s => .next (u s) :=
  fun s => ⟨u s, fun es => congrArg _ (hu s es)⟩

theorem after (hf : IgnoresPending f) (hu : ∀ s es, u (s.setPending es) = (u s).setPending es := by intros; rfl) :
    IgnoresPending fun s => f (u s) := by
  intro s
  obtain ⟨t, ht⟩ := hf (u s)
  exact ⟨t, fun es => (congrArg f (hu s es)).trans (ht es)⟩

theorem raised (c : StatusCode) : IgnoresPending (raise c) :=
  next (u := fun s => s.setStatus c.toByte)

theorem finished (c : StatusCode) (hu : ∀ s es, u (s.setPending es) = (u s).setPending es := by intros; rfl) :
    IgnoresPending fun s => finish c (u s) :=
  after (raised c) hu

theorem branch {c : State → Prop} {hdec : DecidablePred c} (hf : IgnoresPending f) (hg : IgnoresPending g)
    (hc : ∀ s es, c (s.setPending es) = c s := by intros; rfl) :
    IgnoresPending fun s => if c s then f s else g s := by
  intro s
  by_cases h : c s
  · obtain ⟨t, ht⟩ := hf s
    exact ⟨t, fun es => (if_pos (hc s es ▸ h)).trans (ht es)⟩
  · obtain ⟨t, ht⟩ := hg s
    exact ⟨t, fun es => (if_neg (hc s es ▸ h)).trans (ht es)⟩

/-- A check `e` that does not see the pending events, with what follows on each of its answers. -/
theorem checked {ε α : Type} (e : State → Except ε α)
    (herror : ∀ c, ∃ g, (∀ s, e s = .error c → f s = g s) ∧ IgnoresPending g)
    (hok : ∀ a, ∃ g, (∀ s, e s = .ok a → f s = g s) ∧ IgnoresPending g)
    (he : ∀ s es, e (s.setPending es) = e s := by intros; rfl) : IgnoresPending f := by
  intro s
  have hanswer : ∃ g, (∀ s', e s' = e s → f s' = g s') ∧ IgnoresPending g := by
    cases h : e s with
    | error c => exact herror c
    | ok a => exact hok a
  obtain ⟨g, hfg, hg⟩ := hanswer
  obtain ⟨t, ht⟩ := hg s
  exact ⟨t, fun es => (hfg _ (he s es)).trans (ht es)⟩

end IgnoresPending

/-! ## The commands -/

theorem execClassify_ignoresPending : IgnoresPending execClassify :=
  .checked State.plan (fun c => ⟨_, fun s h => by rw [execClassify, h], .raised c⟩)
    fun _ => ⟨_, fun s h => by rw [execClassify, h], .finished .ok⟩

theorem execEncode_ignoresPending : IgnoresPending execEncode :=
  .checked State.plan (fun c => ⟨_, fun s h => by rw [execEncode, h], .raised c⟩)
    fun _ => ⟨_, fun s h => by rw [execEncode, h], .finished .ok⟩

theorem execDecode_ignoresPending : IgnoresPending execDecode :=
  .branch (.raised .errCapacity) (.finished .ok)

theorem execTlstep_ignoresPending : IgnoresPending execTlstep :=
  .branch (.raised .errBadFrameLen) <| .branch (.raised .errBounds) <| .branch (.raised .errBounds) <|
    .branch (.finished .eof) <| .branch (.raised .errBounds) (.finished .ok)

theorem execCkgen_ignoresPending : IgnoresPending execCkgen :=
  .branch (.raised .errBadFrameLen) <| .branch (.raised .errBounds) (.finished .ok)

theorem execCkchk_ignoresPending : IgnoresPending execCkchk :=
  .branch (.raised .errBadFrameLen) <| .branch (.raised .errBounds) <|
    .branch (.raised .errChecksum) (.finished .ok)

theorem execBounds_ignoresPending : IgnoresPending execBounds :=
  .branch (.raised .errBadFrameLen) <| .branch (.raised .errBounds) (.finished .ok)

theorem execHdrchk_ignoresPending : IgnoresPending execHdrchk :=
  .branch (.raised .errBadFrameLen) <|
    .checked (fun s => hdrCheck s s.frameLen.toNat) (fun c => ⟨_, fun s h => by rw [h], .raised c⟩)
      fun _ => ⟨_, fun s h => by rw [h], .finished .ok⟩

theorem execArealookup_ignoresPending : IgnoresPending execArealookup :=
  .branch (.raised .errBadFrameLen) <| .branch (.raised .errBadSlot) <|
    .checked (fun s => hdrCheck s s.frameLen.toNat) (fun c => ⟨_, fun s h => by rw [h], .raised c⟩)
      fun _ => ⟨_, fun s h => by rw [h], .branch (.finished .absent) <|
        .checked (fun s => areaCheck s s.slot (blocks (s.frameByte (1 + s.slot))) s.frameLen.toNat)
          (fun c => ⟨_, fun s h => by rw [h], .raised c⟩)
          fun _ => ⟨_, fun s h => by rw [h], .branch (.finished .ok) (.finished .ok)⟩⟩

theorem execMrchk_ignoresPending : IgnoresPending execMrchk :=
  .branch (.raised .errBadFrameLen) <| .branch (.raised .errBounds) <|
    .checked (fun s => mrCheck s s.cursor.toNat s.limit.toNat) (fun c => ⟨_, fun s h => by rw [h], .raised c⟩)
      fun _ => ⟨_, fun s h => by rw [h], .finished .ok⟩

theorem exec_ignoresPending (i : Instr) : IgnoresPending (exec i) := by
  cases i with
  | nop => exact .finished .ok
  | classify => exact execClassify_ignoresPending
  | encode => exact execEncode_ignoresPending
  | decode => exact execDecode_ignoresPending
  | tagparse => exact .finished .ok
  | tlstep => exact execTlstep_ignoresPending
  | ckgen => exact execCkgen_ignoresPending
  | ckchk => exact execCkchk_ignoresPending
  | bounds => exact execBounds_ignoresPending
  | hdrchk => exact execHdrchk_ignoresPending
  | arealookup => exact execArealookup_ignoresPending
  | mrchk => exact execMrchk_ignoresPending

/-! ## The host's events -/

theorem runCommand_ignoresPending (b : Byte) : IgnoresPending (runCommand b) :=
  .checked (fun _ => decodeByte b) (fun _ => ⟨_, fun s h => by rw [runCommand, h]; rfl, .raised .errBadCmd⟩)
    fun i => ⟨_, fun s h => by rw [runCommand, h], exec_ignoresPending i⟩

theorem mmioStore_setPending (s : State) (es : List HostEvent) (off : Offset) (b : Byte) :
    mmioStore (s.setPending es) off b = (mmioStore s off b).setPending es := by
  unfold mmioStore
  cases placeAt off.toNat with
  | reg8 r => cases r <;> rfl
  | low r => cases r <;> rfl
  | high r => cases r <;> rfl
  | buf k i => cases k <;> rfl
  | reserved => rfl

theorem hostEvent_ignoresPending (e : HostEvent) : IgnoresPending (hostEvent e) := by
  cases e with
  | read off => exact .next
  | write off b =>
    exact .branch (.after (runCommand_ignoresPending b)) (.next fun s es => mmioStore_setPending s es off b)
  | reset => exact .next

/-! ## Lists of events -/

/-- The first of several steps. -/
theorem run_succ_of_step {s t : State} (k : Nat) (h : step s = .next t) :
    Sys2Proof.core.run (k + 1) s = Sys2Proof.core.run k t := by
  have hcore : Sys2Proof.core.step s = .next t := h
  simp only [Host.Core.run, hcore]

theorem eventsAll_cons {e : HostEvent} {s t : State} (es : List HostEvent) (h : hostEvent e s = .next t) :
    eventsAll (e :: es) s = eventsAll es t := by
  simp only [eventsAll, h, nextOf, Option.bind_some]

/-- Settles O10, by induction on the list of events. -/
theorem pendingAccessesRunInOrder : Obligations.PendingAccessesRunInOrder := by
  unfold Obligations.PendingAccessesRunInOrder
  intro es rest s
  induction es generalizing s with
  | nil => exact ⟨s, rfl, rfl, rfl⟩
  | cons e es ih =>
    obtain ⟨u, hu⟩ := hostEvent_ignoresPending e s
    obtain ⟨t, hall, hpend, hrun⟩ := ih (u.setPending s.pending)
    have hstep : step (s.setPending (e :: es ++ rest)) = .next (u.setPending (es ++ rest)) :=
      (step_cons rfl).trans (hu _)
    exact ⟨t, (eventsAll_cons es (hu s.pending)).trans hall, hpend, (run_succ_of_step es.length hstep).trans hrun⟩

end Sys2Proof.Machine
end

section
/-! PROOF. The encodings: a command byte's fields and the opcode map (30_encoding.md R150 to R152), the typelen byte
(R153, R154). -/

namespace Sys2Proof.Machine

/-! ## The fields of a command byte -/

theorem CmdFields.ofByte_rsv_toNat (b : Byte) : (CmdFields.ofByte b).rsv.toNat = b.toNat / 16 := by
  have := b.isLt
  simp only [CmdFields.ofByte, BitVec.extractLsb'_toNat, Nat.shiftRight_eq_div_pow]
  omega

theorem CmdFields.ofByte_opc_toNat (b : Byte) : (CmdFields.ofByte b).opc.toNat = b.toNat % 16 := by
  simp [CmdFields.ofByte]

/-- RSV is 0 in the lower 16 bytes and in no other. -/
theorem CmdFields.ofByte_rsv_eq_zero (b : Byte) : (CmdFields.ofByte b).rsv = 0 ↔ b.toNat < 16 := by
  rw [← BitVec.toNat_inj, CmdFields.ofByte_rsv_toNat]
  exact Nat.div_eq_zero_iff_lt (by decide)

/-- The fields a byte is put together from are those it splits into. -/
theorem CmdFields.ofByte_toByte (c : CmdFields) : CmdFields.ofByte c.toByte = c := by
  have hrsv : (c.rsv ++ c.opc).extractLsb' 4 4 = c.rsv := BitVec.extractLsb'_append_eq_left
  have hopc : (c.rsv ++ c.opc).extractLsb' 0 4 = c.opc := BitVec.extractLsb'_append_eq_right
  rw [CmdFields.toByte, CmdFields.ofByte, hrsv, hopc]

/-! ## The opcode map -/

theorem Instr.ofOpcode_opcode (i : Instr) : Instr.ofOpcode i.opcode = some i := by
  cases i <;> rfl

/-- The opcodes from 0xC on are reserved. -/
theorem Instr.ofOpcode_eq_none {opc : BitVec 4} (h : 0xC ≤ opc.toNat) : Instr.ofOpcode opc = none := by
  unfold Instr.ofOpcode
  split
  case h_13 => rfl
  all_goals omega

/-! ## The command byte -/

theorem decodeByte_reservedBits {b : Byte} (h : 0x10 ≤ b.toNat) : decodeByte b = .error .reservedBits := by
  have hrsv : (CmdFields.ofByte b).rsv ≠ 0 := fun h0 => by
    have := (CmdFields.ofByte_rsv_eq_zero b).1 h0
    omega
  exact if_pos hrsv

/-- With RSV 0, the opcode map decides. -/
theorem decodeByte_of_lt {b : Byte} (h : b.toNat < 0x10) :
    decodeByte b = (Instr.ofOpcode (CmdFields.ofByte b).opc).elim (.error .reservedOpcode) .ok := by
  have hrsv : ¬(CmdFields.ofByte b).rsv ≠ 0 := not_not.2 ((CmdFields.ofByte_rsv_eq_zero b).2 h)
  simp only [decodeByte, if_neg hrsv]
  cases Instr.ofOpcode (CmdFields.ofByte b).opc <;> rfl

theorem decodeByte_reservedOpcode {b : Byte} (hlo : 0x0C ≤ b.toNat) (hhi : b.toNat ≤ 0x0F) :
    decodeByte b = .error .reservedOpcode := by
  have hopc : 0xC ≤ (CmdFields.ofByte b).opc.toNat := by
    rw [CmdFields.ofByte_opc_toNat]; omega
  rw [decodeByte_of_lt (by omega), Instr.ofOpcode_eq_none hopc]
  rfl

theorem decodeByte_encodeByte (i : Instr) : decodeByte (encodeByte i) = .ok i := by
  have hfields : CmdFields.ofByte (encodeByte i) = ⟨0, i.opcode⟩ := CmdFields.ofByte_toByte _
  have hlt : (encodeByte i).toNat < 0x10 := by
    rw [← CmdFields.ofByte_rsv_eq_zero, hfields]
  rw [decodeByte_of_lt hlt, hfields, Instr.ofOpcode_opcode]
  rfl

theorem decode_cons_ok {b : Byte} {i : Instr} (h : decodeByte b = .ok i) (rest : List Byte) :
    decode (b :: rest) = .ok (i, rest) := by
  simp only [decode, h]

/-- Settles O1: each defined byte is the encoding of its command, and the bytes above are refused. -/
theorem opcodeMapDecodes : Obligations.OpcodeMapDecodes := by
  unfold Obligations.OpcodeMapDecodes
  exact ⟨decodeByte_encodeByte .nop, decodeByte_encodeByte .classify, decodeByte_encodeByte .encode,
    decodeByte_encodeByte .decode, decodeByte_encodeByte .tagparse, decodeByte_encodeByte .tlstep,
    decodeByte_encodeByte .ckgen, decodeByte_encodeByte .ckchk, decodeByte_encodeByte .bounds,
    decodeByte_encodeByte .hdrchk, decodeByte_encodeByte .arealookup, decodeByte_encodeByte .mrchk,
    fun _ => ⟨decodeByte_reservedOpcode, decodeByte_reservedBits⟩⟩

/-- Settles O2: an encoding is one byte, which decodes to its command. -/
theorem decodeEncodeGivesBack : Obligations.DecodeEncodeGivesBack := by
  unfold Obligations.DecodeEncodeGivesBack
  exact fun i rest _ => decode_cons_ok (decodeByte_encodeByte i) rest

/-! ## The typelen byte -/

/-- The four 2-bit codes name four representations, each with the code it is named by. -/
theorem FieldType.code_ofCode : ∀ c : BitVec 2, (FieldType.ofCode c).code = c.toNat := by
  decide

theorem decodeTypelen_type_code (t : Byte) : (decodeTypelen t).type.code = t.toNat / 64 :=
  (FieldType.code_ofCode _).trans (typelenTypeBits_toNat t)

/-- Every byte is a well-formed tag (30_encoding.md R154). -/
theorem decodeTypelen_wf (t : Byte) : (decodeTypelen t).wf = true :=
  decide_eq_true (Nat.le_of_lt_succ (decodeTypelen_len_lt t))

theorem Typelen.len_le_of_wf {g : Typelen} (h : g.wf = true) : g.len ≤ 63 :=
  of_decide_eq_true h

/-- A byte is 64 times its type code and its length, so that the tag it splits into builds it again. -/
theorem encodeTypelen_decodeTypelen (t : Byte) : encodeTypelen (decodeTypelen t) = t := by
  apply BitVec.eq_of_toNat_eq
  rw [encodeTypelen_toNat _ (Typelen.len_le_of_wf (decodeTypelen_wf t)), decodeTypelen_type_code, decodeTypelen_len]
  exact Nat.div_add_mod _ _

/-- Settles O3: the byte of a tag is a number in base 64, and splitting it is division with remainder by 64. -/
theorem typelenRoundTrips : Obligations.TypelenRoundTrips := by
  unfold Obligations.TypelenRoundTrips
  refine ⟨⟨rfl, rfl, rfl, rfl⟩, fun t => ?_, fun g hg => ?_⟩
  · exact ⟨decodeTypelen_wf t, decodeTypelen_len t, decodeTypelen_type_code t, encodeTypelen_decodeTypelen t⟩
  · have hlen := Typelen.len_le_of_wf hg
    exact ⟨decodeTypelen_encodeTypelen g hlen, encodeTypelen_toNat g hlen⟩

end Sys2Proof.Machine
end

section
/-! PROOF. Classification (40_field_codec.md R200 to R202): the class of a byte, the class of a string as the upper
bound of its bytes' classes in the order of ranks, and the effective type under each mode and policy. -/

namespace Sys2Proof.Machine

/-! ## The class of a byte -/

theorem isControl_iff (b : Byte) :
    isControl b = true ↔ (b.toNat ≤ 0x1F ∧ b ≠ 0x09 ∧ b ≠ 0x0A ∧ b ≠ 0x0D) ∨ b = 0x7F := by
  simp [isControl, and_assoc]

/-- The BCD+ characters stand in the 6-bit range. -/
theorem isSixChar_of_isBcdChar {b : Byte} (h : isBcdChar b = true) : isSixChar b = true := by
  rw [isSixChar_iff]
  rcases (isBcdChar_iff b).1 h with ⟨hlo, hhi⟩ | rfl | rfl | rfl
  · omega
  all_goals decide

/-- No control byte stands in the 6-bit range. -/
theorem not_isSixChar_of_isControl {b : Byte} (h : isControl b = true) : ¬isSixChar b = true := by
  rw [isSixChar_iff]
  rcases (isControl_iff b).1 h with ⟨hhi, -⟩ | rfl
  · omega
  · decide

theorem cls_sixbit_iff (b : Byte) : cls b = .sixbit ↔ ¬isBcdChar b = true ∧ isSixChar b = true := by
  unfold cls
  split
  · simp [*]
  split
  · simp [*]
  split <;> simp [*]

theorem cls_binary_iff (b : Byte) : cls b = .binary ↔ isControl b = true := by
  by_cases hc : isControl b = true
  · have hsix := not_isSixChar_of_isControl hc
    have hbcd : ¬isBcdChar b = true := fun h => hsix (isSixChar_of_isBcdChar h)
    simp [cls, hbcd, hsix, hc]
  · unfold cls
    split
    · simp [hc]
    split <;> simp [hc]

theorem cls_text_iff (b : Byte) : cls b = .text ↔ ¬isSixChar b = true ∧ ¬isControl b = true := by
  by_cases hbcd : isBcdChar b = true
  · simp [cls, hbcd, isSixChar_of_isBcdChar hbcd]
  · unfold cls
    rw [if_neg hbcd]
    split
    · simp [*]
    split <;> simp [*]

/-- A byte is in the 6-bit range when its class is BCD+ or 6-bit. -/
theorem rank_cls_le_one_iff (b : Byte) : rank (cls b) ≤ 1 ↔ isSixChar b = true := by
  by_cases hbcd : isBcdChar b = true
  · simp [(cls_bcdplus b).2 hbcd, isSixChar_of_isBcdChar hbcd, rank]
  by_cases hsix : isSixChar b = true
  · simp [(cls_sixbit_iff b).2 ⟨hbcd, hsix⟩, hsix, rank]
  · unfold cls
    rw [if_neg hbcd, if_neg hsix]
    split <;> simp [hsix, rank]

/-- Settles O23: each class is the set the classifier's tests leave to it, and these sets are disjoint. -/
theorem characterClasses : Obligations.CharacterClasses := by
  unfold Obligations.CharacterClasses
  intro b
  refine ⟨(cls_bcdplus b).trans (isBcdChar_iff b), ?_, (cls_binary_iff b).trans (isControl_iff b), ?_⟩
  · rw [cls_sixbit_iff, ne_eq, cls_bcdplus, isSixChar_iff]
  · have hlt := b.isLt
    rw [cls_text_iff, isSixChar_iff, isControl_iff]
    simp only [ne_eq, ← BitVec.toNat_inj, BitVec.reduceToNat]
    omega

/-! ## The class of a string -/

theorem rank_injective {a b : FieldType} (h : rank a = rank b) : a = b := by
  revert h
  cases a <;> cases b <;> decide

theorem rank_widest (a b : FieldType) : rank (widest a b) = max (rank a) (rank b) := by
  unfold widest
  split <;> omega

theorem widest_eq_or (a b : FieldType) : widest a b = a ∨ widest a b = b := by
  unfold widest
  split
  · exact .inr rfl
  · exact .inl rfl

/-- The scan of R201 started at type t: its result is the least upper bound of t and the classes of the bytes. -/
theorem rank_foldl_widest_le_iff (d : List Byte) (t : FieldType) (n : Nat) :
    rank (d.foldl (fun t b => widest t (cls b)) t) ≤ n ↔ rank t ≤ n ∧ ∀ b ∈ d, rank (cls b) ≤ n := by
  induction d generalizing t with
  | nil => simp
  | cons b d ih => simp [ih, rank_widest, and_assoc]

/-- The class of a string is the least upper bound of its bytes' classes. -/
theorem rank_autoType_le_iff (d : List Byte) (n : Nat) : rank (autoType d) ≤ n ↔ ∀ b ∈ d, rank (cls b) ≤ n :=
  (rank_foldl_widest_le_iff d .bcdplus n).trans (and_iff_right (Nat.zero_le n))

theorem rank_cls_le_autoType {d : List Byte} {b : Byte} (hb : b ∈ d) : rank (cls b) ≤ rank (autoType d) :=
  (rank_autoType_le_iff d _).1 le_rfl b hb

/-- Some byte attains the class of its string: were every byte's class below it, so would be the least upper bound. -/
theorem exists_cls_eq_autoType {d : List Byte} (h : d ≠ []) : ∃ b ∈ d, cls b = autoType d := by
  by_contra hnone
  have hlt : ∀ b ∈ d, rank (cls b) < rank (autoType d) := fun b hb =>
    lt_of_le_of_ne (rank_cls_le_autoType hb) fun heq => hnone ⟨b, hb, rank_injective heq⟩
  obtain ⟨b₀, hb₀⟩ := List.exists_mem_of_ne_nil d h
  have hpos := hlt b₀ hb₀
  have hbound := (rank_autoType_le_iff d (rank (autoType d) - 1)).2 fun b hb => Nat.le_sub_one_of_lt (hlt b hb)
  omega

theorem autoType_perm {d d' : List Byte} (h : d.Perm d') : autoType d = autoType d' :=
  rank_injective <| eq_of_forall_ge_iff fun n => by simp only [rank_autoType_le_iff, h.mem_iff]

theorem autoType_eq_bcdplus {d : List Byte} (h : ∀ b ∈ d, isBcdChar b = true) : autoType d = .bcdplus := by
  have hle := (rank_autoType_le_iff d 0).2 fun b hb => by simp [(cls_bcdplus b).2 (h b hb), rank]
  exact rank_injective (Nat.le_zero.1 hle)

theorem autoType_eq_sixbit {d : List Byte} (h : ∀ b ∈ d, isSixChar b = true) (hsix : ∃ b ∈ d, cls b ≠ .bcdplus) :
    autoType d = .sixbit := by
  obtain ⟨b, hb, hne⟩ := hsix
  have hle := (rank_autoType_le_iff d 1).2 fun b hb => (rank_cls_le_one_iff b).2 (h b hb)
  have hpos : rank (cls b) ≠ 0 := fun hzero => hne (rank_injective hzero)
  have hge := rank_cls_le_autoType hb
  have hrank : rank (autoType d) = 1 := by omega
  exact rank_injective hrank

theorem autoType_eq_binary {d : List Byte} (h : ∃ b ∈ d, cls b = .binary) : autoType d = .binary := by
  obtain ⟨b, hb, hbin⟩ := h
  have hge := rank_cls_le_autoType hb
  rw [hbin] at hge
  revert hge
  cases autoType d <;> decide

/-- Settles O24: the class of a string is a least upper bound, which fixes it whatever the order of the bytes. -/
theorem autoTypeIsTheWidestClass : Obligations.AutoTypeIsTheWidestClass := by
  unfold Obligations.AutoTypeIsTheWidestClass
  exact ⟨⟨rfl, rfl, rfl, rfl⟩, fun a b => ⟨widest_eq_or a b, rank_widest a b⟩, rfl,
    fun d hd => ⟨fun b hb => rank_cls_le_autoType hb, exists_cls_eq_autoType hd⟩, fun d d' => autoType_perm⟩

/-! ## The effective type -/

theorem encMode_eq (s : State) : s.encMode = s.ctrl.toNat % 8 := by
  simp [State.encMode]

theorem policy_iff (s : State) : s.policy = true ↔ s.ctrl.toNat / 8 % 2 = 1 := by
  simp [State.policy, BitVec.getLsbD, Nat.testBit_eq_decide_div_mod_eq]

theorem effType_badMode {mode : Nat} (h : 5 ≤ mode) (pol : Bool) (d : List Byte) :
    effType mode pol d = .error .errBadMode := by
  obtain ⟨k, rfl⟩ := Nat.exists_eq_add_of_le' h
  rfl

theorem effType_auto (d : List Byte) : effType 0 false d = .ok (autoType d) :=
  rfl

theorem effType_policy (d : List Byte) : effType 0 true d = .ok .text :=
  rfl

theorem effType_forceBinary (pol : Bool) (d : List Byte) : effType 1 pol d = .ok .binary :=
  rfl

theorem effType_forceText (pol : Bool) (d : List Byte) : effType 4 pol d = .ok .text :=
  rfl

theorem effType_forceBcd (pol : Bool) {d : List Byte} (h : ∀ b ∈ d, isBcdChar b = true) :
    effType 2 pol d = .ok .bcdplus :=
  if_pos (List.all_eq_true.2 h)

theorem effType_forceBcd_badChar (pol : Bool) {d : List Byte} (h : ∃ b ∈ d, cls b ≠ .bcdplus) :
    effType 2 pol d = .error .errBadChar := by
  obtain ⟨b, hb, hne⟩ := h
  exact if_neg fun hall => hne ((cls_bcdplus b).2 (List.all_eq_true.1 hall b hb))

theorem effType_forceSix (pol : Bool) {d : List Byte} (h : ∀ b ∈ d, isSixChar b = true) :
    effType 3 pol d = .ok .sixbit :=
  if_pos (List.all_eq_true.2 h)

theorem effType_forceSix_badChar (pol : Bool) {d : List Byte}
    (h : ∃ b ∈ d, ¬(0x20 ≤ b.toNat ∧ b.toNat ≤ 0x5F)) : effType 3 pol d = .error .errBadChar := by
  obtain ⟨b, hb, hout⟩ := h
  exact if_neg fun hall => hout ((isSixChar_iff b).1 (List.all_eq_true.1 hall b hb))

/-- Settles O25: one equation per mode and policy. -/
theorem effectiveTypePerMode : Obligations.EffectiveTypePerMode := by
  unfold Obligations.EffectiveTypePerMode
  refine ⟨fun s => ⟨encMode_eq s, policy_iff s⟩, fun mode pol d => ⟨fun h => effType_badMode h pol d, ?_⟩⟩
  refine ⟨?auto, ?policy, ?binary, ?bcd, ?bcdBad, ?six, ?sixBad, ?text⟩
  case auto => rintro rfl rfl; exact effType_auto d
  case policy => rintro rfl rfl; exact effType_policy d
  case binary => rintro rfl; exact effType_forceBinary pol d
  case bcd => rintro rfl h; exact effType_forceBcd pol fun b hb => (cls_bcdplus b).1 (h b hb)
  case bcdBad => rintro rfl h; exact effType_forceBcd_badChar pol h
  case six => rintro rfl h; exact effType_forceSix pol fun b hb => (isSixChar_iff b).2 (h b hb)
  case sixBad => rintro rfl h; exact effType_forceSix_badChar pol h
  case text => rintro rfl; exact effType_forceText pol d

end Sys2Proof.Machine
end

section
/-! PROOF. The packers and unpackers, byte for byte and bit for bit (40_field_codec.md R203 to R213). The bit string of
a payload is the number its bytes are the digits of in base 256; the codes of a 6-bit string are the digits of the same
number in base 64, and `testBit_valueOf` reads both. -/

namespace Sys2Proof.Machine

/-! ## Lengths -/

/-- Settles O30: the spec's closed forms of the lengths. -/
theorem decodedLengths : Obligations.DecodedLengths := by
  unfold Obligations.DecodedLengths
  exact ⟨fun l => ⟨rfl, rfl, rfl, plen_sixbit l⟩, fun n => ⟨rfl, rfl, rfl, dlen_sixbit n⟩, dlen_le, rfl, rfl, rfl, rfl,
    dlen_plen_sixbit⟩

/-! ## Strip -/

/-- Settles O34: what strip takes off is spaces, and it leaves no string that ends in one. -/
theorem stripRemovesTrailingSpaces : Obligations.StripRemovesTrailingSpaces := by
  unfold Obligations.StripRemovesTrailingSpaces
  exact ⟨fun d => ⟨strip_append_spaces d, strip_getLast d⟩, fun _ => ⟨rfl, rfl, rfl, rfl⟩⟩

/-! ## BCD+ -/

theorem nib_digit {b : Byte} (hlo : 0x30 ≤ b.toNat) (hhi : b.toNat ≤ 0x39) : nib b = b.toNat - 0x30 := by
  simp [nib, isDigit, hlo, hhi]

theorem unnibWith_digit (ph : Byte) {v : Nat} (h : v ≤ 9) : (unnibWith ph v).toNat = 0x30 + v := by
  rw [unnibWith, if_pos h, BitVec.toNat_ofNat]
  omega

theorem nib_lt {b : Byte} (h : isBcdChar b = true) : nib b < 13 :=
  (unnib_nib Config.bcdPlaceholder b h).1

/-- A byte of two nibbles does not wrap. -/
theorem twoNibbles_toNat {a b : Nat} (ha : a < 13) (hb : b < 13) : (BitVec.ofNat 8 (16 * a + b)).toNat = 16 * a + b := by
  rw [BitVec.toNat_ofNat]
  omega

/-- Byte i of a packed BCD+ string holds characters 2i and 2i+1, with a space for a missing last one (R209). -/
theorem bcdPack_getD_toNat : ∀ (d : List Byte), (∀ b ∈ d, isBcdChar b = true) → ∀ i, i < (d.length + 1) / 2 →
    ((bcdPack d).getD i 0x00).toNat =
      16 * nib (d.getD (2 * i) 0x00) + if 2 * i + 1 < d.length then nib (d.getD (2 * i + 1) 0x00) else 0xA
  | [], _, i, hi => by simp at hi
  | [a], h, i, hi => by
    have ha := nib_lt (h a (by simp))
    have hzero : i = 0 := by simp at hi; omega
    subst hzero
    simpa [bcdPack] using twoNibbles_toNat ha (by decide : 0xA < 13)
  | a :: b :: d, h, 0, _ => by
    simpa [bcdPack] using twoNibbles_toNat (nib_lt (h a (by simp))) (nib_lt (h b (by simp)))
  | a :: b :: d, h, i + 1, hi => by
    have hi' : i < (d.length + 1) / 2 := by simp only [List.length_cons] at hi; omega
    have ih := bcdPack_getD_toNat d (fun x hx => h x (by simp [hx])) i hi'
    have hiff : 2 * (i + 1) + 1 < (a :: b :: d).length ↔ 2 * i + 1 < d.length := by
      simp only [List.length_cons]; omega
    simp only [hiff]
    exact ih

/-- Characters 2i and 2i+1 of an unpacked payload are those of the two nibbles of byte i (R210). -/
theorem bcdUnpackWith_getD (ph : Byte) (p : List Byte) (i : Nat) (hi : i < p.length) :
    (bcdUnpackWith ph p).getD (2 * i) 0x00 = unnibWith ph ((p.getD i 0x00).toNat / 16) ∧
      (bcdUnpackWith ph p).getD (2 * i + 1) 0x00 = unnibWith ph ((p.getD i 0x00).toNat % 16) := by
  induction p generalizing i with
  | nil => simp at hi
  | cons b p ih =>
    cases i with
    | zero =>
      have hhigh : (b.extractLsb' 4 4).toNat = b.toNat / 16 := by
        have := b.isLt
        simp only [BitVec.extractLsb'_toNat, Nat.shiftRight_eq_div_pow]
        omega
      have hlow : (b.extractLsb' 0 4).toNat = b.toNat % 16 := by simp
      simp [bcdUnpackWith, hhigh, hlow]
    | succ i => exact ih i (Nat.lt_of_succ_lt_succ hi)

/-- Settles O31: by recursion over the string, two characters to a byte. -/
theorem bcdPackingRule : Obligations.BcdPackingRule := by
  unfold Obligations.BcdPackingRule
  refine ⟨fun b => nib_digit, rfl, rfl, rfl, fun v => unnibWith_digit _, rfl, rfl, rfl, rfl, rfl, rfl, ?_, ?_⟩
  · exact fun d h => ⟨pack_length .bcdplus d,
      bcdPack_getD_toNat d fun b hb => (cls_bcdplus b).1 (h b hb)⟩
  · exact fun p => ⟨bcdUnpackWith_length _ p, bcdUnpackWith_getD _ p⟩

/-! ## The bits of a number given by its digits -/

/-- Bit m of a number is bit m mod w of its digit m / w in base 2^w. -/
theorem testBit_valueOf {w : Nat} (hw : 0 < w) (ds : List Nat) (h : ∀ d ∈ ds, d < 2 ^ w) (m : Nat) :
    (valueOf (2 ^ w) ds).testBit m = (ds.getD (m / w) 0).testBit (m % w) := by
  induction ds generalizing m with
  | nil => simp [valueOf]
  | cons d ds ih =>
    have hd : d < 2 ^ w := h d (by simp)
    have ih' := ih fun x hx => h x (by simp [hx])
    rw [valueOf, Nat.add_comm, Nat.testBit_two_pow_mul_add _ hd]
    split <;> rename_i hm
    · simp [Nat.div_eq_of_lt hm, Nat.mod_eq_of_lt hm]
    · have hge : w ≤ m := Nat.le_of_not_lt hm
      rw [ih', Nat.div_eq_sub_div hw hge, Nat.mod_eq_sub_mod hge, List.getD_cons_succ]

/-- A payload's bit string is that of the number its bytes make in base 256. -/
theorem payloadBit_eq_testBit (p : List Byte) (m : Nat) :
    payloadBit p m = (valueOf 256 (p.map BitVec.toNat)).testBit m := by
  have hlt : ∀ n ∈ p.map BitVec.toNat, n < 2 ^ 8 := by
    intro n hn
    obtain ⟨b, -, rfl⟩ := List.mem_map.1 hn
    exact b.isLt
  have hget : (p.map BitVec.toNat).getD (m / 8) 0 = (p.getD (m / 8) 0x00).toNat :=
    List.getD_map p 0x00 BitVec.toNat
  rw [show (256 : Nat) = 2 ^ 8 from rfl, testBit_valueOf (by decide) _ hlt, hget]
  rfl

/-! ## 6-bit ASCII -/

theorem sixCodes_lt {d : List Byte} (h : ∀ b ∈ d, isSixChar b = true) : ∀ c ∈ d.map sixCode, c < 2 ^ 6 := by
  intro c hc
  obtain ⟨b, hb, rfl⟩ := List.mem_map.1 hc
  obtain ⟨hlo, hhi⟩ := (isSixChar_iff b).1 (h b hb)
  simp only [sixCode]
  omega

/-- The payload of a 6-bit string makes in base 256 the number that its codes make in base 64 (R211): the number fits,
since plen bytes hold 6 bits for each character. -/
theorem valueOf_sixPack {d : List Byte} (h : ∀ b ∈ d, isSixChar b = true) :
    valueOf 256 ((sixPack d).map BitVec.toNat) = valueOf (2 ^ 6) (d.map sixCode) := by
  have hbytes : (sixPack d).map BitVec.toNat = digitsOf 256 (plen .sixbit d.length) (valueOf 64 (d.map sixCode)) :=
    map_toNat_ofNat _ (digitsOf_lt _ _ _ (by decide))
  have hfit : valueOf (2 ^ 6) (d.map sixCode) < 256 ^ plen .sixbit d.length :=
    calc valueOf (2 ^ 6) (d.map sixCode) < (2 ^ 6) ^ (d.map sixCode).length := valueOf_lt _ _ (sixCodes_lt h)
      _ = 2 ^ (6 * d.length) := by rw [List.length_map, ← Nat.pow_mul]
      _ ≤ 2 ^ (8 * plen .sixbit d.length) := Nat.pow_le_pow_right (by decide) (by rw [plen_sixbit]; omega)
      _ = 256 ^ plen .sixbit d.length := Nat.pow_mul 2 8 _
  rw [hbytes, valueOf_digitsOf]
  exact Nat.mod_eq_of_lt hfit

/-- Bit m of a packed 6-bit string is a bit of the code of character m / 6; the bits past the last code are 0 (R211). -/
theorem payloadBit_sixPack {d : List Byte} (h : ∀ b ∈ d, isSixChar b = true) (m : Nat) :
    payloadBit (sixPack d) m =
      (decide (m < 6 * d.length) && ((d.getD (m / 6) 0x00).toNat - 0x20).testBit (m % 6)) := by
  have hcode : (d.map sixCode).getD (m / 6) 0 = (d.getD (m / 6) 0x00).toNat - 0x20 :=
    List.getD_map d 0x00 sixCode
  rw [payloadBit_eq_testBit, valueOf_sixPack h, testBit_valueOf (by decide) _ (sixCodes_lt h), hcode]
  by_cases hm : m < 6 * d.length
  · simp [hm]
  · have hpast : d.length ≤ m / 6 := by omega
    rw [List.getD_eq_default _ _ hpast]
    simp [hm]

/-- Character i of an unpacked payload is 0x20 plus digit i in base 64 of the number the payload makes (R212). -/
theorem sixUnpack_getD_toNat (p : List Byte) {i : Nat} (hi : i < dlen .sixbit p.length) :
    ((sixUnpack p).getD i 0x00).toNat = 0x20 + valueOf 256 (p.map BitVec.toNat) / 2 ^ (6 * i) % 2 ^ 6 := by
  have hlen : i < (sixUnpack p).length := by rwa [sixUnpack_length]
  have hpow : (64 : Nat) ^ i = 2 ^ (6 * i) := (Nat.pow_mul 2 6 i).symm
  rw [List.getD_eq_getElem _ _ hlen]
  simp only [sixUnpack, List.getElem_map, digitsOf_getElem, hpow, BitVec.toNat_ofNat]
  omega

theorem sixUnpack_testBit (p : List Byte) {i j : Nat} (hi : i < dlen .sixbit p.length) (hj : j < 6) :
    (((sixUnpack p).getD i 0x00).toNat - 0x20).testBit j = payloadBit p (6 * i + j) := by
  rw [sixUnpack_getD_toNat p hi, Nat.add_sub_cancel_left, payloadBit_eq_testBit, Nat.testBit_mod_two_pow,
    Nat.testBit_div_two_pow]
  simp [hj, Nat.add_comm]

/-- Settles O32: the payload and the codes are digits of one number, whose bits both are. -/
theorem sixbitPackingRule : Obligations.SixbitPackingRule := by
  unfold Obligations.SixbitPackingRule
  refine ⟨fun d h => ⟨?_, payloadBit_sixPack fun b hb => (isSixChar_iff b).2 (h b hb)⟩, fun p => ⟨?_, fun i hi => ?_⟩⟩
  · rw [pack_length, plen_sixbit]
  · rw [sixUnpack_length, dlen_sixbit]
  · rw [← dlen_sixbit] at hi
    have hchar := sixUnpack_getD_toNat p hi
    exact ⟨by omega, by omega, fun j hj => sixUnpack_testBit p hi hj⟩

end Sys2Proof.Machine
end

section
/-! PROOF. CLASSIFY, ENCODE and DECODE (40_field_codec.md section 2): what each answers when its checks pass and when
they fail, and the laws of ENCODE followed by DECODE (section 3). -/

namespace Sys2Proof.Machine

/-! ## The rest of a filled buffer -/

theorem Memory.read_fill_zeros (m : Memory) {cap k : Nat} {bs : List Byte} (hcap : bs.length ≤ cap)
    (hlo : bs.length ≤ k) (hhi : k < cap) : (m.fill cap bs).read k = 0x00 := by
  rw [Memory.read_fill _ _ _ _ hcap, if_pos hhi, List.getD_eq_default _ _ hlo]

theorem Memory.read_fill_outside (m : Memory) {cap k : Nat} {bs : List Byte} (hcap : bs.length ≤ cap) (hk : cap ≤ k) :
    (m.fill cap bs).read k = m.read k := by
  rw [Memory.read_fill _ _ _ _ hcap, if_neg (Nat.not_lt.2 hk)]

/-! ## The operands -/

theorem value_length (s : State) : s.value.length = s.inLen.toNat :=
  Memory.readBytes_length ..

theorem Memory.readBytes_getD (m : Memory) {n k : Nat} (h : k < n) : (m.readBytes 0 n).getD k 0x00 = m.read k := by
  have hlen : k < (m.readBytes 0 n).length := by rwa [Memory.readBytes_length]
  rw [List.getD_eq_getElem _ _ hlen, Memory.readBytes_getElem, Nat.zero_add]

/-- A value of an effective type whose payload fits has a tag. -/
theorem plan_of_effType {s : State} {ty : FieldType} (heff : effType s.encMode s.policy s.value = .ok ty)
    (hfit : plen ty s.inLen.toNat ≤ 63) : s.plan = .ok ⟨ty, plen ty s.inLen.toNat⟩ :=
  plan_ok.2 ⟨heff, rfl, hfit⟩

/-! ## The commands' answers -/

theorem exec_classify_of_plan {s : State} {g : Typelen} (h : s.plan = .ok g) :
    exec .classify s = .next ((s.setTagTl (encodeTypelen g)).setStatus 0x00) := by
  change execClassify s = _
  rw [execClassify, h]
  rfl

theorem exec_encode_of_plan {s : State} {g : Typelen} (h : s.plan = .ok g) :
    exec .encode s = .next
      (((s.setTagTl (encodeTypelen g)).setField (encodeTypelen g) (pack g.type s.value)).setStatus 0x00) := by
  change execEncode s = _
  rw [execEncode, h]
  rfl

theorem exec_of_plan_error {i : Instr} (hi : i = .classify ∨ i = .encode) {s : State} {c : StatusCode}
    (h : s.plan = .error c) : exec i s = .next (s.setStatus c.toByte) := by
  rcases hi with rfl | rfl
  · change execClassify s = _
    rw [execClassify, h]
    rfl
  · change execEncode s = _
    rw [execEncode, h]
    rfl

theorem exec_decode_of_fits {s : State} (h : dlen s.fieldTag.type s.fieldTag.len ≤ s.outCap.toNat) :
    exec .decode s = .next ((s.setOut (unpack s.fieldTag.type s.fieldPayload)).setStatus 0x00) :=
  if_neg (Nat.not_lt.2 h)

theorem exec_decode_of_overflow {s : State} (h : s.outCap.toNat < dlen s.fieldTag.type s.fieldTag.len) :
    exec .decode s = .next (s.setStatus 0x40) :=
  if_pos h

/-! ## CLASSIFY and ENCODE -/

/-- Settles O26: CLASSIFY writes the tag registers of the tag it computes. -/
theorem classifyWritesTheTag : Obligations.ClassifyWritesTheTag := by
  unfold Obligations.ClassifyWritesTheTag
  refine ⟨fun s => ⟨value_length s, fun k => Memory.readBytes_getD s.inBuf⟩, fun s ty heff hfit => ?_⟩
  rw [exec_classify_of_plan (plan_of_effType heff hfit), setTagTl_encodeTypelen _ _ hfit]
  rfl

/-- Settles O27: ENCODE writes the tag registers as CLASSIFY does, and fills FIELD_BUF with the packed value. -/
theorem encodeWritesTheField : Obligations.EncodeWritesTheField := by
  unfold Obligations.EncodeWritesTheField
  intro s ty heff hfit
  have hlen : (pack ty s.value).length = plen ty s.inLen.toNat := by rw [pack_length, value_length]
  have hcap : (pack ty s.value).length ≤ 64 := by omega
  refine ⟨_, exec_encode_of_plan (plan_of_effType heff hfit), ?_, ?_, fun k hlo hhi => ?_, fun k hk => ?_⟩
  · rw [setTagTl_encodeTypelen _ _ hfit]
    rfl
  · rw [← hlen]
    exact Memory.readBytes_fill s.fieldBuf 64 _ hcap
  · exact Memory.read_fill_zeros s.fieldBuf hcap (hlen ▸ hlo) hhi
  · exact Memory.read_fill_outside s.fieldBuf hcap hk

/-- Settles O28: the four failures are the failures of the plan. -/
theorem classifyAndEncodeFailures : Obligations.ClassifyAndEncodeFailures := by
  unfold Obligations.ClassifyAndEncodeFailures
  intro i s hi
  refine ⟨fun hmode => ?_, fun hmode hbad => ?_, fun hmode hbad => ?_, fun ty heff hlong => ?_⟩
  · exact exec_of_plan_error hi (plan_error.2 (.inl (effType_badMode hmode _ _)))
  · have heff := effType_forceBcd_badChar s.policy hbad
    exact exec_of_plan_error hi (plan_error.2 (.inl (hmode ▸ heff)))
  · have heff := effType_forceSix_badChar s.policy hbad
    exact exec_of_plan_error hi (plan_error.2 (.inl (hmode ▸ heff)))
  · exact exec_of_plan_error hi (plan_error.2 (.inr ⟨ty, heff, hlong, rfl⟩))

theorem exec_status_of_plan {i : Instr} (hi : i = .classify ∨ i = .encode) {s : State} {g : Typelen}
    (h : s.plan = .ok g) : ∃ t, exec i s = .next t ∧ t.status = 0x00 := by
  rcases hi with rfl | rfl
  · exact ⟨_, exec_classify_of_plan h, rfl⟩
  · exact ⟨_, exec_encode_of_plan h, rfl⟩

/-- Settles O29: the wire length alone decides, on either side of 63. -/
theorem lengthBoundary : Obligations.LengthBoundary := by
  unfold Obligations.LengthBoundary
  intro i s ty hi heff
  by_cases hfit : plen ty s.inLen.toNat ≤ 63
  · obtain ⟨t, ht, hstatus⟩ := exec_status_of_plan hi (plan_of_effType heff hfit)
    have hok : t.status = 0x00 ↔ plen ty s.inLen.toNat ≤ 63 := iff_of_true hstatus hfit
    have hlong : t.status = 0x10 ↔ 64 ≤ plen ty s.inLen.toNat :=
      iff_of_false (by rw [hstatus]; decide) (Nat.not_le.2 (Nat.lt_succ_of_le hfit))
    exact ⟨t, ht, hok, hlong, hok.trans (plen_le ty _)⟩
  · have hover : 63 < plen ty s.inLen.toNat := Nat.lt_of_not_le hfit
    have ht := exec_of_plan_error hi (plan_error.2 (.inr ⟨ty, heff, hover, rfl⟩))
    have hok : StatusCode.errLengthExceeded.toByte = 0x00 ↔ plen ty s.inLen.toNat ≤ 63 := iff_of_false (by decide) hfit
    exact ⟨_, ht, hok, iff_of_true rfl hover, hok.trans (plen_le ty _)⟩

/-! ## DECODE -/

theorem setOut_outLen_toNat (s : State) {d : List Byte} (h : d.length ≤ 126) :
    (s.setOut d).outLen.toNat = d.length := by
  rw [State.setOut_outLen, BitVec.toNat_ofNat]
  omega

/-- The string written is read back from OUT_BUF by its length in OUT_LEN. -/
theorem setOut_readBytes (s : State) {d : List Byte} (h : d.length ≤ 126) :
    (s.setOut d).outBuf.readBytes 0 (s.setOut d).outLen.toNat = d := by
  rw [setOut_outLen_toNat s h]
  exact Memory.readBytes_fill s.outBuf 128 d (by omega)

/-- Settles O33: the decoded length is compared with OUT_CAP, and a string that passes fills OUT_BUF. -/
theorem decodeWritesTheString : Obligations.DecodeWritesTheString := by
  unfold Obligations.DecodeWritesTheString
  intro s
  have hlen : s.fieldTag.len = s.fieldTl.toNat % 64 := decodeTypelen_len s.fieldTl
  refine ⟨⟨rfl, ?_, fun k hk => ?_⟩, exec_decode_of_overflow, fun hfit => ?_⟩
  · exact (Memory.readBytes_length ..).trans hlen
  · exact Memory.readBytes_getD s.fieldBuf (hlen ▸ hk)
  · have hmax := unpack_fieldPayload_length_le s
    have hout := setOut_outLen_toNat s hmax
    have hcap : (unpack s.fieldTag.type s.fieldPayload).length ≤ 128 := by omega
    exact ⟨_, exec_decode_of_fits hfit, rfl, hout, setOut_readBytes s hmax,
      fun k hlo hhi => Memory.read_fill_zeros s.outBuf hcap (hout ▸ hlo) hhi,
      fun k hk => Memory.read_fill_outside s.outBuf hcap hk⟩

/-! ## ENCODE, then DECODE -/

/-- ENCODE leaves a field whose tag is the one it computed and whose payload is the packed value. -/
theorem exec_encode_field {s : State} {ty : FieldType} (heff : effType s.encMode s.policy s.value = .ok ty)
    (hfit : plen ty s.inLen.toNat ≤ 63) :
    ∃ t, exec .encode s = .next t ∧ t.status = 0x00 ∧ t.outCap = s.outCap ∧
      t.fieldTag = ⟨ty, plen ty s.inLen.toNat⟩ ∧ t.fieldPayload = pack ty s.value := by
  have hlen : (pack ty s.value).length = plen ty s.inLen.toNat := by rw [pack_length, value_length]
  have htag := decodeTypelen_encodeTypelen ⟨ty, plen ty s.inLen.toNat⟩ hfit
  have hn : (decodeTypelen (encodeTypelen ⟨ty, plen ty s.inLen.toNat⟩)).len = (pack ty s.value).length := by
    rw [htag, hlen]
  have hfill := Memory.readBytes_fill s.fieldBuf 64 (pack ty s.value) (by omega)
  exact ⟨_, exec_encode_of_plan (plan_of_effType heff hfit), rfl, rfl, htag,
    (congrArg (Memory.readBytes _ 0) hn).trans hfill⟩

/-- DECODE of a field that fits leaves its string in OUT_BUF. -/
theorem exec_decode_string {t : State} (h : dlen t.fieldTag.type t.fieldTag.len ≤ t.outCap.toNat) :
    ∃ u, exec .decode t = .next u ∧ u.status = 0x00 ∧
      u.outLen.toNat = (unpack t.fieldTag.type t.fieldPayload).length ∧
      u.outBuf.readBytes 0 u.outLen.toNat = unpack t.fieldTag.type t.fieldPayload :=
  have hmax := unpack_fieldPayload_length_le t
  ⟨_, exec_decode_of_fits h, rfl, setOut_outLen_toNat t hmax, setOut_readBytes t hmax⟩

/-- ENCODE then DECODE, for every type: both complete, and OUT_BUF holds what the unpacker makes of the packed value. -/
theorem exec_encode_decode {s : State} {ty : FieldType} (heff : effType s.encMode s.policy s.value = .ok ty)
    (hfit : plen ty s.inLen.toNat ≤ 63) (hcap : dlen ty (plen ty s.inLen.toNat) ≤ s.outCap.toNat) :
    ∃ t u, exec .encode s = .next t ∧ exec .decode t = .next u ∧ t.status = 0x00 ∧ u.status = 0x00 ∧
      u.outLen.toNat = (unpack ty (pack ty s.value)).length ∧
      u.outBuf.readBytes 0 u.outLen.toNat = unpack ty (pack ty s.value) := by
  obtain ⟨t, ht, hts, htcap, htag, hpayload⟩ := exec_encode_field heff hfit
  obtain ⟨u, hu, hus, hlen, hstr⟩ := exec_decode_string (t := t) (by rwa [htag, htcap])
  rw [htag, hpayload] at hlen hstr
  exact ⟨t, u, ht, hu, hts, hus, hlen, hstr⟩

/-! ## The round trips -/

theorem unpack_pack_bcdplus {d : List Byte} (h : ∀ b ∈ d, isBcdChar b = true) :
    unpack .bcdplus (pack .bcdplus d) = strip d := by
  change strip (bcdUnpackWith _ (bcdPack d)) = strip d
  rw [bcdUnpack_bcdPack _ d h, strip_append_replicate]

theorem unpack_pack_sixbit {d : List Byte} (h : ∀ b ∈ d, isSixChar b = true) :
    unpack .sixbit (pack .sixbit d) = strip d := by
  change strip (sixUnpack (sixPack d)) = strip d
  rw [sixUnpack_sixPack d h, strip_append_replicate]

/-- Settles O35: the effective type is BCD+, whose unpacker gives the value back up to trailing spaces. -/
theorem bcdRoundTrip : Obligations.BcdRoundTrip := by
  unfold Obligations.BcdRoundTrip
  intro s hmode hlen hchars hcap
  have hbcd : ∀ b ∈ s.value, isBcdChar b = true := fun b hb => (isBcdChar_iff b).2 (hchars b hb)
  have heff : effType s.encMode s.policy s.value = .ok .bcdplus := by
    rcases hmode with ⟨hm, hp⟩ | hm
    · rw [hm, hp, effType_auto, autoType_eq_bcdplus hbcd]
    · rw [hm, effType_forceBcd _ hbcd]
  obtain ⟨t, u, ht, hu, hts, hus, -, hout⟩ := exec_encode_decode heff ((plen_le .bcdplus _).2 hlen) hcap
  rw [unpack_pack_bcdplus hbcd] at hout
  exact ⟨t, u, ht, hu, hts, hus, hout, fun hlast => hout.trans (strip_eq_self _ hlast)⟩

/-- Settles O36: the effective type is 6-bit, whose unpacker gives the value back up to trailing spaces. -/
theorem sixbitRoundTrip : Obligations.SixbitRoundTrip := by
  unfold Obligations.SixbitRoundTrip
  intro s hlen hchars hmode hcap
  have hsix : ∀ b ∈ s.value, isSixChar b = true := fun b hb => (isSixChar_iff b).2 (hchars b hb)
  have heff : effType s.encMode s.policy s.value = .ok .sixbit := by
    rcases hmode with hm | ⟨hm, hp, hne⟩
    · rw [hm, effType_forceSix _ hsix]
    · rw [hm, hp, effType_auto, autoType_eq_sixbit hsix hne]
  obtain ⟨t, u, ht, hu, hts, hus, -, hout⟩ := exec_encode_decode heff ((plen_le .sixbit _).2 hlen) hcap
  exact ⟨t, u, ht, hu, hts, hus, hout.trans (unpack_pack_sixbit hsix)⟩

/-- The modes under which a value is stored verbatim: its effective type is Binary or Text. -/
theorem effType_verbatim {s : State}
    (h : (s.encMode = 0 ∧ (s.policy = true ∨ ∃ b ∈ s.value, cls b = .binary)) ∨ s.encMode = 1 ∨ s.encMode = 4) :
    effType s.encMode s.policy s.value = .ok .binary ∨ effType s.encMode s.policy s.value = .ok .text := by
  rcases h with ⟨hm, hauto⟩ | hm | hm <;> rw [hm]
  · cases hp : s.policy
    · refine .inl ?_
      rw [effType_auto, autoType_eq_binary (hauto.resolve_left (by simp [hp]))]
    · exact .inr (effType_policy _)
  · exact .inl (effType_forceBinary _ _)
  · exact .inr (effType_forceText _ _)

/-- Settles O37: Binary and Text are stored as they are. -/
theorem verbatimRoundTrip : Obligations.VerbatimRoundTrip := by
  unfold Obligations.VerbatimRoundTrip
  intro s hlen hmode hcap
  rcases effType_verbatim hmode with heff | heff
  all_goals
    obtain ⟨t, u, ht, hu, hts, hus, hout, hbytes⟩ := exec_encode_decode heff hlen hcap
    exact ⟨t, u, ht, hu, hts, hus, hout.trans (value_length s), hbytes⟩

end Sys2Proof.Machine
end

section
/-! PROOF. TAGPARSE and TLSTEP (41_tag_parser.md section 2): what each answers when its checks pass and when they fail;
and the laws of the walk that repeats TLSTEP over a field stream (section 3). -/

namespace Sys2Proof.Machine

/-! ## The tag registers -/

/-- The tag registers of a byte, in the statements' arithmetic (40_field_codec.md R214). -/
theorem setTag_eq (s : State) (t : Byte) :
    s.setTag t = { s with
      tagType := BitVec.ofNat 8 (t.toNat / 64)
      tagLen := BitVec.ofNat 8 (t.toNat % 64)
      tagFlags := if t = 0xC1 then 1 else 0
      tagDlen := BitVec.ofNat 8 (dlen (decodeTypelen t).type (t.toNat % 64)) } := by
  rw [State.setTag, tagTypeOf_eq, tagLenOf_eq, tagFlagsOf_eq, tagDlenOf, decodeTypelen_len]

/-- The tag registers of a byte other than the sentinel. -/
theorem setTagTl_of_ne_eof (s : State) {t : Byte} (h : t ≠ 0xC1) :
    s.setTagTl t = { s with
      tagTl := t
      tagType := BitVec.ofNat 8 (t.toNat / 64)
      tagLen := BitVec.ofNat 8 (t.toNat % 64)
      tagFlags := 0
      tagDlen := BitVec.ofNat 8 (dlen (decodeTypelen t).type (t.toNat % 64)) } := by
  rw [State.setTagTl, setTag_eq, if_neg h]

theorem setTagTl_eof (s : State) :
    s.setTagTl 0xC1 = { s with tagTl := 0xC1, tagType := 3, tagLen := 1, tagFlags := 1, tagDlen := 1 } :=
  rfl

theorem exec_tagparse (s : State) : exec .tagparse s = .next ((s.setTag s.tagTl).setStatus 0x00) :=
  rfl

/-- Settles O39: TAGPARSE sets the tag registers to those of TAG_TL. -/
theorem tagparseSplitsTheByte : Obligations.TagparseSplitsTheByte := by
  unfold Obligations.TagparseSplitsTheByte
  intro s
  rw [exec_tagparse, setTag_eq]
  rfl

/-! ## The field at CURSOR -/

theorem Memory.read_fill_string (m : Memory) {cap k : Nat} {bs : List Byte} (hcap : bs.length ≤ cap)
    (hk : k < bs.length) : (m.fill cap bs).read k = bs[k] := by
  rw [Memory.read_fill _ _ _ _ hcap, if_pos (hk.trans_le hcap), List.getD_eq_getElem _ _ hk]

/-- The bytes of the field at CURSOR: a typelen byte and as many payload bytes as it says. -/
def State.fieldAtCursor (s : State) : StreamField :=
  ⟨s.frame.read s.cursor.toNat,
    s.frame.readBytes (s.cursor.toNat + 1) ((s.frame.read s.cursor.toNat).toNat % 64)⟩

/-- The state after TLSTEP takes the field at CURSOR off the stream (41_tag_parser.md R263). -/
def State.takeField (s : State) : State :=
  (((s.setTagTl s.fieldAtCursor.tl).setField s.fieldAtCursor.tl s.fieldAtCursor.payload).setCursor
    (fieldEnd s s.cursor.toNat)).setStatus 0x00

/-- A bound check of TLSTEP fails: LIMIT lies past the frame, or no typelen byte or no whole field fits below LIMIT
(41_tag_parser.md R261). -/
def State.outOfBound (s : State) : Prop :=
  s.frameLen.toNat < s.limit.toNat ∨ s.limit.toNat < s.cursor.toNat + 1 ∨
    (s.frame.read s.cursor.toNat ≠ 0xC1 ∧ s.limit.toNat < fieldEnd s s.cursor.toNat)

section
variable {s : State}

theorem fieldAtCursor_payload_length : s.fieldAtCursor.payload.length = (s.frame.read s.cursor.toNat).toNat % 64 :=
  Memory.readBytes_length ..

theorem fieldAtCursor_payload_length_le : s.fieldAtCursor.payload.length ≤ 64 := by
  rw [fieldAtCursor_payload_length]
  omega

theorem fieldEnd_gt (c : Nat) : c < fieldEnd s c := by
  unfold fieldEnd
  omega

/-- CURSOR does not wrap: the field ends at or before LIMIT, a 16-bit register. -/
theorem takeField_cursor_toNat (hend : fieldEnd s s.cursor.toNat ≤ s.limit.toNat) :
    s.takeField.cursor.toNat = fieldEnd s s.cursor.toNat :=
  (BitVec.toNat_ofNat ..).trans (Nat.mod_eq_of_lt (hend.trans_lt s.limit.isLt))

/-- FIELD_TL and FIELD_BUF hold the field taken. -/
theorem takeField_currentField (s : State) : s.takeField.currentField = s.fieldAtCursor := by
  have hn : s.takeField.fieldTag.len = s.fieldAtCursor.payload.length :=
    (decodeTypelen_len _).trans fieldAtCursor_payload_length.symm
  have hpayload : s.takeField.fieldPayload = s.fieldAtCursor.payload :=
    (congrArg (Memory.readBytes _ 0) hn).trans (Memory.readBytes_fill s.fieldBuf 64 _ fieldAtCursor_payload_length_le)
  exact congrArg (StreamField.mk s.fieldAtCursor.tl) hpayload

theorem not_outOfBound_of_sentinel (hlimit : s.limit.toNat ≤ s.frameLen.toNat)
    (hcur : s.cursor.toNat + 1 ≤ s.limit.toNat) (heof : s.frame.read s.cursor.toNat = 0xC1) : ¬s.outOfBound := by
  rintro (h | h | ⟨hne, -⟩)
  · omega
  · omega
  · exact hne heof

theorem not_outOfBound_of_field (hlimit : s.limit.toNat ≤ s.frameLen.toNat)
    (hend : fieldEnd s s.cursor.toNat ≤ s.limit.toNat) : ¬s.outOfBound := by
  have hgt := fieldEnd_gt (s := s) s.cursor.toNat
  rintro (h | h | ⟨-, h⟩) <;> omega

/-! ## The answers of TLSTEP -/

/-- TLSTEP ends in one of four ways: the frame length is illegal, a bound is passed, the sentinel stands at CURSOR, or
a field is taken (41_tag_parser.md R263). -/
theorem exec_tlstep_cases (s : State) :
    (4096 < s.frameLen.toNat ∧ exec .tlstep s = .next (s.setStatus 0x15)) ∨
    (s.frameLen.toNat ≤ 4096 ∧ s.outOfBound ∧ exec .tlstep s = .next (s.setStatus 0x34)) ∨
    (s.frameLen.toNat ≤ 4096 ∧ s.limit.toNat ≤ s.frameLen.toNat ∧ s.cursor.toNat + 1 ≤ s.limit.toNat ∧
      s.frame.read s.cursor.toNat = 0xC1 ∧ exec .tlstep s = .next ((s.setTagTl 0xC1).setStatus 0x02)) ∨
    (s.frameLen.toNat ≤ 4096 ∧ s.limit.toNat ≤ s.frameLen.toNat ∧ s.frame.read s.cursor.toNat ≠ 0xC1 ∧
      fieldEnd s s.cursor.toNat ≤ s.limit.toNat ∧ exec .tlstep s = .next s.takeField) := by
  obtain ⟨t, ht⟩ : ∃ t, execTlstep s = .next t := by
    unfold execTlstep
    simp only []
    split_ifs <;> exact ⟨_, rfl⟩
  change exec .tlstep s = .next t at ht
  rw [ht]
  rcases execTlstep_cases ht with
    ⟨hfl, rfl⟩ | ⟨hfl, rfl, hbound⟩ | ⟨hfl, hlim, hcur, heof, rfl⟩ | ⟨hfl, hlim, hne, hend, rfl⟩
  · exact .inl ⟨hfl, rfl⟩
  · exact .inr (.inl ⟨hfl, hbound, rfl⟩)
  · exact .inr (.inr (.inl ⟨hfl, hlim, hcur, heof, rfl⟩))
  · exact .inr (.inr (.inr ⟨hfl, hlim, hne, hend, rfl⟩))

theorem exec_tlstep_of_longFrame (h : 4096 < s.frameLen.toNat) : exec .tlstep s = .next (s.setStatus 0x15) := by
  rcases exec_tlstep_cases s with ⟨-, hexec⟩ | ⟨hfl, -⟩ | ⟨hfl, -⟩ | ⟨hfl, -⟩
  · exact hexec
  all_goals exact absurd h (Nat.not_lt.2 hfl)

theorem exec_tlstep_of_outOfBound (hframe : s.frameLen.toNat ≤ 4096) (h : s.outOfBound) :
    exec .tlstep s = .next (s.setStatus 0x34) := by
  rcases exec_tlstep_cases s with ⟨hfl, -⟩ | ⟨-, -, hexec⟩ | ⟨-, hlim, hcur, heof, -⟩ | ⟨-, hlim, -, hend, -⟩
  · exact absurd hfl (Nat.not_lt.2 hframe)
  · exact hexec
  · exact absurd h (not_outOfBound_of_sentinel hlim hcur heof)
  · exact absurd h (not_outOfBound_of_field hlim hend)

/-- A TLSTEP that ends with OK has taken a field. -/
theorem exec_tlstep_ok {t : State} (h : exec .tlstep s = .next t) (hok : t.status = 0x00) :
    fieldEnd s s.cursor.toNat ≤ s.limit.toNat ∧ t = s.takeField := by
  rcases exec_tlstep_cases s with ⟨-, hexec⟩ | ⟨-, -, hexec⟩ | ⟨-, -, -, -, hexec⟩ | ⟨-, -, -, hend, hexec⟩
  all_goals obtain rfl := next_inj.1 (hexec.symm.trans h)
  case inr.inr.inr => exact ⟨hend, rfl⟩
  all_goals exact absurd hok (by simp)

section
variable (hframe : s.frameLen.toNat ≤ 4096) (hlimit : s.limit.toNat ≤ s.frameLen.toNat)
include hframe hlimit

theorem exec_tlstep_of_sentinel (hcur : s.cursor.toNat + 1 ≤ s.limit.toNat)
    (heof : s.frame.read s.cursor.toNat = 0xC1) :
    exec .tlstep s = .next ((s.setTagTl 0xC1).setStatus 0x02) := by
  rcases exec_tlstep_cases s with ⟨hfl, -⟩ | ⟨-, hbound, -⟩ | ⟨-, -, -, -, hexec⟩ | ⟨-, -, hne, -⟩
  · exact absurd hfl (Nat.not_lt.2 hframe)
  · exact absurd hbound (not_outOfBound_of_sentinel hlimit hcur heof)
  · exact hexec
  · exact absurd heof hne

theorem exec_tlstep_of_field (hne : s.frame.read s.cursor.toNat ≠ 0xC1)
    (hend : fieldEnd s s.cursor.toNat ≤ s.limit.toNat) : exec .tlstep s = .next s.takeField := by
  rcases exec_tlstep_cases s with ⟨hfl, -⟩ | ⟨-, hbound, -⟩ | ⟨-, -, -, heof, -⟩ | ⟨-, -, -, -, hexec⟩
  · exact absurd hfl (Nat.not_lt.2 hframe)
  · exact absurd hbound (not_outOfBound_of_field hlimit hend)
  · exact absurd heof hne
  · exact hexec

end

/-- Settles O40: the field at CURSOR fills FIELD_TL and FIELD_BUF, and CURSOR passes it. -/
theorem tlstepTakesAField : Obligations.TlstepTakesAField := by
  unfold Obligations.TlstepTakesAField
  intro s hframe hlimit hne hend
  have hlen := fieldAtCursor_payload_length (s := s)
  have hcap := fieldAtCursor_payload_length_le (s := s)
  refine ⟨_, exec_tlstep_of_field hframe hlimit hne hend, ?_, takeField_cursor_toNat hend, fun k hk => ?_,
    fun k hlo hhi => ?_, fun k hk => ?_⟩
  · rw [State.takeField, setTagTl_of_ne_eof (t := s.fieldAtCursor.tl) s hne]
    rfl
  · have hin : k < s.fieldAtCursor.payload.length := hk.trans_eq hlen.symm
    exact (Memory.read_fill_string s.fieldBuf hcap hin).trans (Memory.readBytes_getElem _ _ _ k hin)
  · exact Memory.read_fill_zeros s.fieldBuf hcap (hlen.trans_le hlo) hhi
  · exact Memory.read_fill_outside s.fieldBuf hcap hk

/-- Settles O41: the sentinel's tag registers are those of 0xC1, and nothing is taken. -/
theorem tlstepReportsEof : Obligations.TlstepReportsEof := by
  unfold Obligations.TlstepReportsEof
  intro s hframe hlimit hcur heof
  rw [exec_tlstep_of_sentinel hframe hlimit hcur heof, setTagTl_eof]
  rfl

/-- Settles O42: each failure is an illegal frame length or a passed bound. -/
theorem tlstepFailures : Obligations.TlstepFailures := by
  unfold Obligations.TlstepFailures
  intro s
  refine ⟨exec_tlstep_of_longFrame, fun hframe hlim => ?_, fun hframe _ hcur => ?_, fun hframe _ _ hne hend => ?_⟩
  · exact exec_tlstep_of_outOfBound hframe (.inl hlim)
  · exact exec_tlstep_of_outOfBound hframe (.inr (.inl hcur))
  · exact exec_tlstep_of_outOfBound hframe (.inr (.inr ⟨hne, hend⟩))

/-! ## One step of a walk -/

theorem streamWalk_of_end {u : State} {code : Byte} (n : Nat) (h : exec .tlstep s = .next (u.setStatus code))
    (hcode : code ≠ 0x00) : streamWalk (n + 1) s = ([], some code) := by
  simp only [streamWalk, h, nextOf]
  exact if_neg hcode

theorem streamWalk_of_field (n : Nat) (h : exec .tlstep s = .next s.takeField) :
    streamWalk (n + 1) s =
      (s.fieldAtCursor :: (streamWalk n s.takeField).1, (streamWalk n s.takeField).2) := by
  simp only [streamWalk, h, nextOf, takeField_currentField]
  exact if_pos rfl

/-! ## Termination -/

/-- A walk given a command for each byte below LIMIT and one more ends: `LIMIT - CURSOR` falls with each field taken
(41_tag_parser.md R265). -/
theorem streamWalk_ends (n : Nat) : ∀ s : State, s.limit.toNat - s.cursor.toNat + 1 ≤ n →
    ∃ code, (streamWalk n s).2 = some code ∧ code ≠ 0x00 ∧ (code = 0x02 ∨ code = 0x34 ∨ code = 0x15) := by
  induction n with
  | zero => intro s hn; omega
  | succ n ih =>
    intro s hn
    rcases exec_tlstep_cases s with ⟨-, hexec⟩ | ⟨-, -, hexec⟩ | ⟨-, -, -, -, hexec⟩ | ⟨-, -, -, hend, hexec⟩
    · rw [streamWalk_of_end n hexec (by decide)]
      exact ⟨0x15, rfl, by decide, .inr (.inr rfl)⟩
    · rw [streamWalk_of_end n hexec (by decide)]
      exact ⟨0x34, rfl, by decide, .inr (.inl rfl)⟩
    · rw [streamWalk_of_end n hexec (by decide)]
      exact ⟨0x02, rfl, by decide, .inl rfl⟩
    · rw [streamWalk_of_field n hexec]
      have hgt := fieldEnd_gt (s := s) s.cursor.toNat
      have hcur := takeField_cursor_toNat hend
      have hlim : s.takeField.limit = s.limit := rfl
      exact ih s.takeField (by rw [hcur, hlim]; omega)

/-- Settles O43: a TLSTEP with OK has taken a field, which lies below LIMIT and has its typelen byte at least. -/
theorem streamWalkTerminates : Obligations.StreamWalkTerminates := by
  unfold Obligations.StreamWalkTerminates
  refine ⟨fun s t h hok => ?_, fun s n => streamWalk_ends n s⟩
  obtain ⟨hend, rfl⟩ := exec_tlstep_ok h hok
  rw [takeField_cursor_toNat hend]
  exact ⟨fieldEnd_gt _, hend, rfl⟩

end

/-! ## A walk over the fields laid out in FRAME -/

/-- A walk has come from `s` to `t`: CURSOR is at `e`, and the frame and its bounds are those of `s`. -/
structure WalkedTo (s : State) (e : Nat) (t : State) : Prop where
  frame : t.frame = s.frame
  frameLen : t.frameLen = s.frameLen
  limit : t.limit = s.limit
  cursor : t.cursor.toNat = e

theorem streamField_wf_iff (f : StreamField) : f.wf = true ↔ f.tl ≠ 0xC1 ∧ f.payload.length = f.tl.toNat % 64 := by
  rw [ne_eq, ← isEof_iff]
  simp [StreamField.wf]

/-- A range that holds fields holds the first field, then the others. -/
theorem readBytes_streamBytes_cons {m : Memory} {a : Nat} {f : StreamField} {fs : List StreamField}
    (h : m.readBytes a (streamBytes (f :: fs)).length = streamBytes (f :: fs)) :
    m.read a = f.tl ∧ m.readBytes (a + 1) f.payload.length = f.payload ∧
      m.readBytes (a + 1 + f.payload.length) (streamBytes fs).length = streamBytes fs := by
  have hlen : (streamBytes (f :: fs)).length = f.payload.length + (streamBytes fs).length + 1 := by
    simp [streamBytes]
  rw [hlen, Memory.readBytes, Memory.readBytes_add, streamBytes, List.cons_append, List.cons.injEq] at h
  obtain ⟨htl, hrest⟩ := h
  exact ⟨htl, List.append_inj hrest (Memory.readBytes_length ..)⟩

/-- A walk takes the fields that lie at CURSOR below LIMIT, in order, and goes on from the byte after them. -/
theorem streamWalk_over_fields (fs : List StreamField) : ∀ s : State, s.frameLen.toNat ≤ 4096 →
    s.limit.toNat ≤ s.frameLen.toNat → (∀ f ∈ fs, f.wf = true) →
    s.cursor.toNat + (streamBytes fs).length ≤ s.limit.toNat →
    s.frame.readBytes s.cursor.toNat (streamBytes fs).length = streamBytes fs →
    ∃ t, WalkedTo s (s.cursor.toNat + (streamBytes fs).length) t ∧
      ∀ n, streamWalk (fs.length + n) s = (fs ++ (streamWalk n t).1, (streamWalk n t).2) := by
  induction fs with
  | nil =>
    intro s _ _ _ _ _
    exact ⟨s, ⟨rfl, rfl, rfl, rfl⟩, fun n => by simp⟩
  | cons f fs ih =>
    intro s hframe hlimit hwf hfit hbytes
    obtain ⟨hne, hlen⟩ := (streamField_wf_iff f).1 (hwf f (by simp))
    obtain ⟨htl, hpayload, hrest⟩ := readBytes_streamBytes_cons hbytes
    have hfield : s.fieldAtCursor = f := by
      simp only [State.fieldAtCursor, htl, ← hlen, hpayload]
    have hend : fieldEnd s s.cursor.toNat = s.cursor.toNat + 1 + f.payload.length := by
      rw [fieldEnd, htl, hlen]
    have hsplit : s.cursor.toNat + (streamBytes (f :: fs)).length =
        fieldEnd s s.cursor.toNat + (streamBytes fs).length := by
      rw [hend, streamBytes, List.cons_append, List.length_cons, List.length_append]
      omega
    have hcur := takeField_cursor_toNat (s := s) (by omega)
    obtain ⟨t, ⟨hf, hfl, hlim, hc⟩, hwalk⟩ := ih s.takeField hframe hlimit (fun g hg => hwf g (by simp [hg]))
      (by rw [hcur, ← hsplit]; exact hfit) (by rw [hcur, hend]; exact hrest)
    refine ⟨t, ⟨hf, hfl, hlim, by rw [hc, hcur, hsplit]⟩, fun n => ?_⟩
    have hexec := exec_tlstep_of_field hframe hlimit (htl ▸ hne) (by omega)
    rw [List.length_cons, Nat.add_right_comm, streamWalk_of_field _ hexec, hwalk, hfield, List.cons_append]

/-- Settles O44: the walk takes the fields, and finds the sentinel after them. -/
theorem streamWalkVisitsEveryField : Obligations.StreamWalkVisitsEveryField := by
  unfold Obligations.StreamWalkVisitsEveryField
  intro fs s n hframe hlimit hwf hfit hbytes hn
  rw [Memory.readBytes_add] at hbytes
  obtain ⟨hfields, hlast⟩ := List.append_inj hbytes (Memory.readBytes_length ..)
  obtain ⟨t, ⟨hf, hfl, hlim, hc⟩, hwalk⟩ := streamWalk_over_fields fs s hframe hlimit hwf (by omega) hfields
  have heof : t.frame.read t.cursor.toNat = 0xC1 := by
    rw [hf, hc]
    exact List.head_eq_of_cons_eq hlast
  have hexec := exec_tlstep_of_sentinel (s := t) (by rwa [hfl]) (by rwa [hlim, hfl]) (by rw [hc, hlim]; omega) heof
  obtain ⟨k, rfl⟩ := Nat.exists_eq_add_of_lt hn
  rw [Nat.add_assoc, hwalk, streamWalk_of_end k hexec (by decide), List.append_nil]

/-- Settles O45: the walk takes the fields, and passes the bound after them. -/
theorem streamWalkWithoutSentinelEndsInBounds : Obligations.StreamWalkWithoutSentinelEndsInBounds := by
  unfold Obligations.StreamWalkWithoutSentinelEndsInBounds
  intro fs s n e hframe hlimit hwf he hfit hbytes hbound hn
  obtain ⟨t, ⟨hf, hfl, hlim, hc⟩, hwalk⟩ := streamWalk_over_fields fs s hframe hlimit hwf (he ▸ hfit) hbytes
  rw [← he] at hc
  have hexec : exec .tlstep t = .next (t.setStatus 0x34) := by
    refine exec_tlstep_of_outOfBound (by rwa [hfl]) (.inr ?_)
    rw [fieldEnd, hf, hc, hlim]
    exact hbound.imp_left fun h => by omega
  obtain ⟨k, rfl⟩ := Nat.exists_eq_add_of_lt hn
  rw [Nat.add_assoc, hwalk, streamWalk_of_end k hexec (by decide), List.append_nil]

end Sys2Proof.Machine
end

section
/-! PROOF. The checks of the validator (42_validator.md): the range checks that CKGEN, CKCHK and BOUNDS share, and the
status that a check of a header, an area or a record ends a command with. -/

namespace Sys2Proof.Machine

/-! ## The checks of a range -/

/-- A command on the range RANGE_OFF, RANGE_LEN: the frame length and the bound are checked, then it answers `r`
(42_validator.md R302, R303). -/
def State.onRange (s : State) (r : Result) : Result :=
  if s.frameLen.toNat > Config.frameCap then raise .errBadFrameLen s
  else if !inBound s.rangeOff.toNat s.rangeLen.toNat s.frameLen.toNat then raise .errBounds s
  else r

theorem exec_ckgen (s : State) :
    exec .ckgen s = s.onRange (finish .ok (s.setCk (ck8 s s.rangeOff.toNat s.rangeLen.toNat))) := rfl

theorem exec_ckchk (s : State) :
    exec .ckchk s = s.onRange
      (if sum8 s s.rangeOff.toNat s.rangeLen.toNat ≠ 0 then raise .errChecksum s else finish .ok (s.setCk 0x00)) := rfl

theorem exec_bounds (s : State) : exec .bounds s = s.onRange (finish .ok s) := rfl

section
variable {s : State} {r : Result}

theorem onRange_of_longFrame (hlong : 4096 < s.frameLen.toNat) : s.onRange r = .next (s.setStatus 0x15) :=
  if_pos hlong

theorem onRange_of_outside (hframe : s.frameLen.toNat ≤ 4096)
    (hout : s.frameLen.toNat < s.rangeOff.toNat + s.rangeLen.toNat) : s.onRange r = .next (s.setStatus 0x34) := by
  have hbound : inBound s.rangeOff.toNat s.rangeLen.toNat s.frameLen.toNat = false := by
    rw [Bool.eq_false_iff, ne_eq, inBound_iff]
    omega
  refine (if_neg (Nat.not_lt.2 hframe)).trans ?_
  rw [hbound]
  rfl

theorem onRange_of_inside (hframe : s.frameLen.toNat ≤ 4096)
    (hin : s.rangeOff.toNat + s.rangeLen.toNat ≤ s.frameLen.toNat) : s.onRange r = r := by
  refine (if_neg (Nat.not_lt.2 hframe)).trans ?_
  rw [(inBound_iff ..).2 hin]
  rfl

end

/-! ## The status of a check -/

/-- The byte a check leaves in STATUS: the code of the condition that failed, or that of OK. -/
def checkStatus {α : Type} : Except StatusCode α → Byte
  | .error c => c.toByte
  | .ok _ => StatusCode.toByte .ok

/-- A check that fails ends its command with a code of class 3 (60_exceptions.md R400). -/
def FailsInClass3 {α : Type} (e : Except StatusCode α) : Prop :=
  ∀ c, e = .error c → c.toByte.toNat / 16 = 3

theorem hdrCheck_failsInClass3 (s : State) (fl : Nat) : FailsInClass3 (hdrCheck s fl) := by
  intro c hc
  rcases hdrCheck_error hc with rfl | rfl | rfl | rfl | rfl <;> rfl

theorem areaCheck_failsInClass3 (s : State) (slot b fl : Nat) : FailsInClass3 (areaCheck s slot b fl) := by
  intro c hc
  rcases areaCheck_error hc with rfl | rfl | rfl | rfl <;> rfl

theorem mrCheck_failsInClass3 (s : State) (c lim : Nat) : FailsInClass3 (mrCheck s c lim) :=
  areaCheck_failsInClass3 s 4 c lim

section
variable {α : Type} {e : Except StatusCode α}

/-- A code of class 3 is that of no success. -/
theorem ne_success_of_class3 {b : Byte} (h : b.toNat / 16 = 3) : b ≠ 0x00 ∧ b ≠ 0x01 := by
  constructor <;> rintro rfl <;> exact absurd h (by decide)

/-- A check that does not accept fails, with the code in its status. -/
theorem FailsInClass3.exists_error (hclass : FailsInClass3 e) (h : ∀ a, e ≠ .ok a) :
    ∃ c, e = .error c ∧ checkStatus e = c.toByte ∧ c.toByte.toNat / 16 = 3 := by
  cases e with
  | error c => exact ⟨c, rfl, rfl, hclass c rfl⟩
  | ok a => exact absurd rfl (h a)

theorem checkStatus_class3 (hclass : FailsInClass3 e) (hbad : ∀ a, e ≠ .ok a) : (checkStatus e).toNat / 16 = 3 := by
  obtain ⟨c, -, hstatus, hc⟩ := hclass.exists_error hbad
  rwa [hstatus]

/-- A check whose status is not that of OK accepts nothing. -/
theorem ne_ok_of_checkStatus {b : Byte} (h : checkStatus e = b) (hb : b ≠ 0x00) (a : α) : e ≠ .ok a := by
  rintro rfl
  exact hb h.symm

end

/-- The first condition of a header that fails, in the order of 60_exceptions.md R410. -/
theorem checkStatus_hdrCheck (s : State) (fl : Nat) : checkStatus (hdrCheck s fl) =
    if fl < 8 then 0x34
    else if (s.frame.read 0).toNat % 16 ≠ 1 then 0x30
    else if (s.frame.read 0).toNat / 16 ≠ 0 then 0x31
    else if s.frame.read 6 ≠ 0x00 then 0x32
    else if frameSum s 0 8 % 256 ≠ 0 then 0x33
    else 0x00 := by
  unfold hdrCheck State.frameByte
  simp only [ne_eq, lowNibble_eq_one, highNibble_eq_zero, sum8_eq_frameSum]
  split_ifs <;> rfl

theorem checkStatus_iuCheck (s : State) (b fl : Nat) : checkStatus (iuCheck s b fl) =
    if fl < b + 1 then 0x34 else if (s.frame.read b).toNat % 16 ≠ 1 then 0x30 else 0x00 := by
  unfold iuCheck State.frameByte inBound
  simp only [ne_eq, lowNibble_eq_one, Bool.not_eq_true', decide_eq_false_iff_not, Nat.not_le]
  split_ifs <;> rfl

theorem checkStatus_infoCheck (s : State) (b fl : Nat) : checkStatus (infoCheck s b fl) =
    if fl < b + 2 then 0x34
    else if (s.frame.read b).toNat % 16 ≠ 1 then 0x30
    else if 8 * (s.frame.read (b + 1)).toNat = 0 then 0x35
    else if fl < b + 8 * (s.frame.read (b + 1)).toNat then 0x34
    else if frameSum s b (8 * (s.frame.read (b + 1)).toNat) % 256 ≠ 0 then 0x33
    else 0x00 := by
  unfold infoCheck State.frameByte inBound blocks Config.block
  simp only [ne_eq, lowNibble_eq_one, Bool.not_eq_true', decide_eq_false_iff_not, Nat.not_le, sum8_eq_frameSum]
  split_ifs <;> rfl

theorem checkStatus_mrCheck (s : State) (c lim : Nat) : checkStatus (mrCheck s c lim) = recordStatus s c lim := by
  unfold mrCheck recordStatus State.frameByte inBound
  simp only [ne_eq, versionBits_eq_two, Bool.not_eq_true', decide_eq_false_iff_not, Nat.not_le, gt_iff_lt,
    sum8_eq_frameSum, Nat.add_mod_mod]
  split_ifs <;> rfl

/-! ## Checks that accept nothing -/

section
variable {s : State}

theorem hdrCheck_ne_ok (hframe : s.frameLen.toNat ≤ 4096) (h : ¬headerValid s) (a : Unit) :
    hdrCheck s s.frameLen.toNat ≠ .ok a :=
  fun hok => h ((headerValid_iff s).2 ⟨hframe, hok⟩)

theorem infoCheck_ne_ok {b fl : Nat} (h : ¬infoAreaValid s b fl) (size : Nat) : infoCheck s b fl ≠ .ok size := by
  intro hok
  obtain ⟨-, -, hsize, -⟩ := infoCheck_ok.1 hok
  exact h ((infoAreaValid_iff s b fl).2 (hsize ▸ hok))

theorem mrCheck_ne_ok {c lim : Nat} (h : ¬recordValid s c lim) (size : Nat) : mrCheck s c lim ≠ .ok size := by
  intro hok
  obtain ⟨-, -, -, hsize, -⟩ := mrCheck_ok.1 hok
  exact h ((recordValid_iff s c lim).2 (hsize ▸ hok))

/-- A record that is not valid has the status of its first failing condition, which is not OK. -/
theorem recordStatus_ne_ok {c lim : Nat} (h : ¬recordValid s c lim) : recordStatus s c lim ≠ 0x00 := by
  rw [← checkStatus_mrCheck]
  exact (ne_success_of_class3 (checkStatus_class3 (mrCheck_failsInClass3 s c lim) (mrCheck_ne_ok h))).1

/-- In an info area that is not valid and passes every other condition, the checksum is what fails. -/
theorem checkStatus_infoCheck_of_invalid {b fl : Nat} (h : ¬infoAreaValid s b fl) : checkStatus (infoCheck s b fl) =
    if fl < b + 2 then 0x34
    else if (s.frame.read b).toNat % 16 ≠ 1 then 0x30
    else if 8 * (s.frame.read (b + 1)).toNat = 0 then 0x35
    else if fl < b + 8 * (s.frame.read (b + 1)).toNat then 0x34
    else 0x33 := by
  rw [checkStatus_infoCheck]
  split_ifs with hhead hversion hsize hbound hsum
  case neg => exact absurd ⟨by omega, by simpa using hversion, by omega, by omega, by simpa using hsum⟩ h
  all_goals rfl

end

end Sys2Proof.Machine
end

section
/-! PROOF. What commands do with FRAME: none writes it (42_validator.md R316), and none reads it at or past its bound
(R300, 41_tag_parser.md R261). Two runs whose frames agree below the bound take the same branch at every check, since
each check reads below the bound only. -/

namespace Sys2Proof.Machine

/-! ## No command writes FRAME -/

theorem exec_frame {i : Instr} {s t : State} (h : exec i s = .next t) : t.frame = s.frame := by
  obtain ⟨-, -, hbuf, -⟩ := commandsWriteOnlyTheirRegisters i s t h
  exact hbuf .frame (by cases i <;> decide)

/-- A host write below the offsets of FRAME leaves FRAME alone. -/
theorem mmioStore_frame (s : State) {off : Offset} (hoff : off.toNat < 0x1000) (b : Byte) :
    (mmioStore s off b).frame = s.frame := by
  have hplace := placeAt_offset off.toNat
  unfold mmioStore
  cases hp : placeAt off.toNat with
  | reg8 r => cases r <;> rfl
  | low r => cases r <;> rfl
  | high r => cases r <;> rfl
  | reserved => rfl
  | buf k i =>
    rw [hp] at hplace
    obtain ⟨hbase, -⟩ := hplace
    cases k with
    | frame => exact absurd (hbase.symm.le.trans_lt hoff) (by simp [Buffer.base])
    | _ => rfl

/-- Settles O19: of what a step can do, a host write to FRAME and a reset alone change FRAME. -/
theorem noCommandWritesFrame : Obligations.NoCommandWritesFrame := by
  unfold Obligations.NoCommandWritesFrame
  refine ⟨fun i s t h a => by rw [exec_frame h], fun s t hstep => ?_⟩
  rcases step_cases hstep with ⟨-, rfl⟩ | ⟨es, ⟨off, -, rfl⟩ | ⟨off, b, hp, -, rfl⟩ | ⟨b, i, -, -, he⟩ |
    ⟨b, e, -, -, rfl⟩ | ⟨hp, -⟩⟩
  · exact .inl fun _ => rfl
  · exact .inl fun _ => rfl
  · by_cases hoff : off.toNat < 0x1000
    · exact .inl fun a => by rw [mmioStore_frame _ hoff]; rfl
    · exact .inr ⟨es, .inr ⟨off, b, hp, Nat.le_of_not_lt hoff⟩⟩
  · exact .inl fun a => by rw [exec_frame he]; rfl
  · exact .inl fun _ => rfl
  · exact .inr ⟨es, .inl hp⟩

/-! ## Two runs that differ in FRAME -/

/-- The state with FRAME replaced. -/
def State.setFrame (s : State) (m : Memory) : State :=
  { s with frame := m }

/-- Two results are next states that differ in FRAME alone, which is `m` in the second. -/
def SameButFrame (m : Memory) (r r' : Result) : Prop :=
  ∃ t, r = .next t ∧ r' = .next (t.setFrame m)

namespace SameButFrame
variable {m : Memory} {s : State} {r r' q q' : Result}

theorem finished (c : StatusCode) {u u' : State} (h : u' = u.setFrame m) :
    SameButFrame m (finish c u) (finish c u') :=
  ⟨_, rfl, by rw [h]; rfl⟩

theorem raised (c : StatusCode) : SameButFrame m (raise c s) (raise c (s.setFrame m)) :=
  finished c rfl

theorem branch {p : Prop} [Decidable p] (hr : p → SameButFrame m r r') (hq : ¬p → SameButFrame m q q') :
    SameButFrame m (if p then r else q) (if p then r' else q') := by
  split
  · next h => exact hr h
  · next h => exact hq h

/-- The checks of a range read no byte of FRAME. -/
theorem onRange (h : s.frameLen.toNat ≤ 4096 → s.rangeOff.toNat + s.rangeLen.toNat ≤ s.frameLen.toNat →
    SameButFrame m r r') : SameButFrame m (s.onRange r) ((s.setFrame m).onRange r') :=
  branch (fun _ => raised _) fun hframe => branch (fun _ => raised _) fun hbound =>
    h (Nat.not_lt.1 hframe) ((inBound_iff ..).1 (by simpa using hbound))

end SameButFrame

/-- `m` holds the bytes of FRAME below `n`. -/
def AgreesBelow (s : State) (m : Memory) (n : Nat) : Prop :=
  ∀ a, a < n → m.read a = s.frame.read a

section
variable {s : State} {m : Memory} {n : Nat} (h : AgreesBelow s m n)
include h

theorem frameByte_setFrame {a : Nat} (ha : a < n) : (s.setFrame m).frameByte a = s.frameByte a :=
  h a ha

theorem frameBytes_setFrame {a k : Nat} (hk : a + k ≤ n) : (s.setFrame m).frameBytes a k = s.frameBytes a k :=
  Memory.readBytes_congr fun j _ hj => h j (by omega)

theorem sum8_setFrame {a k : Nat} (hk : a + k ≤ n) : sum8 (s.setFrame m) a k = sum8 s a k :=
  sum8_congr fun j _ hj => h j (by omega)

theorem hdrCheck_setFrame : hdrCheck (s.setFrame m) n = hdrCheck s n :=
  hdrCheck_congr fun k _ hk => h k hk

theorem areaCheck_setFrame (slot b : Nat) : areaCheck (s.setFrame m) slot b n = areaCheck s slot b n :=
  areaCheck_congr fun k _ _ hk => h k hk

theorem mrCheck_setFrame (c : Nat) : mrCheck (s.setFrame m) c n = mrCheck s c n :=
  mrCheck_congr fun k _ _ hk => h k hk

theorem setMr_setFrame {b : Nat} (hb : b + 1 < n) : (s.setFrame m).setMr b = (s.setMr b).setFrame m := by
  unfold State.setMr
  rw [frameByte_setFrame h (by omega), frameByte_setFrame h hb]
  rfl

end

/-! ## Each command -/

section
variable {s : State} {m : Memory}

theorem execClassify_sameButFrame (s : State) (m : Memory) :
    SameButFrame m (execClassify s) (execClassify (s.setFrame m)) := by
  have hplan : (s.setFrame m).plan = s.plan := rfl
  unfold execClassify
  rw [hplan]
  cases s.plan with
  | error c => exact .raised c
  | ok g => exact .finished .ok rfl

theorem execEncode_sameButFrame (s : State) (m : Memory) :
    SameButFrame m (execEncode s) (execEncode (s.setFrame m)) := by
  have hplan : (s.setFrame m).plan = s.plan := rfl
  unfold execEncode
  rw [hplan]
  cases s.plan with
  | error c => exact .raised c
  | ok g => exact .finished .ok rfl

theorem execDecode_sameButFrame (s : State) (m : Memory) :
    SameButFrame m (execDecode s) (execDecode (s.setFrame m)) :=
  .branch (fun _ => .raised _) fun _ => .finished .ok rfl

theorem execTlstep_sameButFrame (h : s.limit.toNat ≤ s.frameLen.toNat → AgreesBelow s m s.limit.toNat) :
    SameButFrame m (execTlstep s) (execTlstep (s.setFrame m)) := by
  refine .branch (fun _ => .raised _) fun _ => .branch (fun _ => .raised _) fun hlim =>
    .branch (fun _ => .raised _) fun hcur => ?_
  have hagree := h (Nat.not_lt.1 hlim)
  have hcur' : s.cursor.toNat + 1 ≤ s.limit.toNat := (inBound_iff ..).1 (by simpa using hcur)
  have hbyte : (s.setFrame m).frameByte (s.setFrame m).cursor.toNat = s.frameByte s.cursor.toNat :=
    frameByte_setFrame hagree hcur'
  rw [hbyte]
  refine .branch (fun _ => .finished .eof rfl) fun _ => .branch (fun _ => .raised _) fun hend => .finished .ok ?_
  have hend' := (inBound_iff (s.cursor.toNat + 1) (decodeTypelen (s.frameByte s.cursor.toNat)).len _).1
    (by simpa using hend)
  have hpayload := frameBytes_setFrame hagree hend'
  exact congrArg (fun p => ((((s.setFrame m).setTagTl _).setField _ p).setCursor _)) hpayload

theorem exec_ckgen_sameButFrame (h : AgreesBelow s m s.frameLen.toNat) :
    SameButFrame m (exec .ckgen s) (exec .ckgen (s.setFrame m)) := by
  rw [exec_ckgen, exec_ckgen]
  refine .onRange fun _ hin => .finished .ok ?_
  have hsum : ck8 (s.setFrame m) s.rangeOff.toNat s.rangeLen.toNat = ck8 s s.rangeOff.toNat s.rangeLen.toNat := by
    rw [ck8, ck8, sum8_setFrame h hin]
  exact congrArg (s.setFrame m).setCk hsum

theorem exec_ckchk_sameButFrame (h : AgreesBelow s m s.frameLen.toNat) :
    SameButFrame m (exec .ckchk s) (exec .ckchk (s.setFrame m)) := by
  rw [exec_ckchk, exec_ckchk]
  refine .onRange fun _ hin => ?_
  have hsum : sum8 (s.setFrame m) (s.setFrame m).rangeOff.toNat (s.setFrame m).rangeLen.toNat =
      sum8 s s.rangeOff.toNat s.rangeLen.toNat := sum8_setFrame h hin
  rw [hsum]
  exact .branch (fun _ => .raised _) fun _ => .finished .ok rfl

theorem exec_bounds_sameButFrame (s : State) (m : Memory) :
    SameButFrame m (exec .bounds s) (exec .bounds (s.setFrame m)) :=
  .onRange fun _ _ => .finished .ok rfl

theorem execHdrchk_sameButFrame (h : AgreesBelow s m s.frameLen.toNat) :
    SameButFrame m (execHdrchk s) (execHdrchk (s.setFrame m)) := by
  have hhdr : hdrCheck (s.setFrame m) (s.setFrame m).frameLen.toNat = hdrCheck s s.frameLen.toNat :=
    hdrCheck_setFrame h
  refine .branch (fun _ => .raised _) fun _ => ?_
  rw [hhdr]
  cases hdrCheck s s.frameLen.toNat with
  | error c => exact .raised c
  | ok a => exact .finished .ok rfl

theorem execArealookup_sameButFrame (h : AgreesBelow s m s.frameLen.toNat) :
    SameButFrame m (execArealookup s) (execArealookup (s.setFrame m)) := by
  have hhdr : hdrCheck (s.setFrame m) (s.setFrame m).frameLen.toNat = hdrCheck s s.frameLen.toNat :=
    hdrCheck_setFrame h
  have harea (b : Nat) : areaCheck (s.setFrame m) (s.setFrame m).slot b (s.setFrame m).frameLen.toNat =
      areaCheck s s.slot b s.frameLen.toNat := areaCheck_setFrame h s.slot b
  refine .branch (fun _ => .raised _) fun _ => .branch (fun _ => .raised _) fun hslot => ?_
  rw [hhdr]
  cases hok : hdrCheck s s.frameLen.toNat with
  | error c => exact .raised c
  | ok a =>
    obtain ⟨hlen, -⟩ := hdrCheck_ok.1 hok
    have hfour : s.slot ≤ 4 := Nat.not_lt.1 hslot
    have hptr : (s.setFrame m).frameByte (1 + (s.setFrame m).slot) = s.frameByte (1 + s.slot) :=
      frameByte_setFrame h (a := 1 + s.slot) (by omega)
    simp only [hptr, harea]
    refine .branch (fun _ => .finished .absent rfl) fun _ => ?_
    cases hsize : areaCheck s s.slot (blocks (s.frameByte (1 + s.slot))) s.frameLen.toNat with
    | error c => exact .raised c
    | ok size =>
      refine .branch (fun hrecord => .finished .ok ?_) fun _ => .finished .ok rfl
      rw [hrecord] at hsize ⊢
      obtain ⟨hhead, -⟩ := mrCheck_ok.1 hsize
      rw [setMr_setFrame h (by omega)]
      rfl

theorem execMrchk_sameButFrame (h : s.limit.toNat ≤ s.frameLen.toNat → AgreesBelow s m s.limit.toNat) :
    SameButFrame m (execMrchk s) (execMrchk (s.setFrame m)) := by
  refine .branch (fun _ => .raised _) fun _ => .branch (fun _ => .raised _) fun hlim => ?_
  have hagree := h (Nat.not_lt.1 hlim)
  have hmr : mrCheck (s.setFrame m) (s.setFrame m).cursor.toNat (s.setFrame m).limit.toNat =
      mrCheck s s.cursor.toNat s.limit.toNat := mrCheck_setFrame hagree s.cursor.toNat
  rw [hmr]
  cases hok : mrCheck s s.cursor.toNat s.limit.toNat with
  | error c => exact .raised c
  | ok size =>
    refine .finished .ok ?_
    obtain ⟨hhead, -⟩ := mrCheck_ok.1 hok
    have hset : (s.setFrame m).setMr (s.setFrame m).cursor.toNat = (s.setMr s.cursor.toNat).setFrame m :=
      setMr_setFrame hagree (b := s.cursor.toNat) (by omega)
    rw [hset]
    rfl

end

/-- Settles O21: command by command, the checks of two runs give the same answer on frames that agree below the
bound, and the bytes a success takes off FRAME lie below it. -/
theorem frameIsReadBelowTheBoundOnly : Obligations.FrameIsReadBelowTheBoundOnly := by
  unfold Obligations.FrameIsReadBelowTheBoundOnly
  intro i s m h
  change SameButFrame m (exec i s) (exec i (s.setFrame m))
  have below (hi : ¬(i = .tlstep ∨ i = .mrchk)) : AgreesBelow s m s.frameLen.toNat :=
    fun a ha => h a ha fun hlim => absurd hlim hi
  have belowLimit (hlim : s.limit.toNat ≤ s.frameLen.toNat) : AgreesBelow s m s.limit.toNat :=
    fun a ha => h a (ha.trans_le hlim) fun _ => ha
  cases i with
  | nop => exact .finished .ok rfl
  | classify => exact execClassify_sameButFrame s m
  | encode => exact execEncode_sameButFrame s m
  | decode => exact execDecode_sameButFrame s m
  | tagparse => exact .finished .ok rfl
  | tlstep => exact execTlstep_sameButFrame belowLimit
  | ckgen => exact exec_ckgen_sameButFrame (below (by decide))
  | ckchk => exact exec_ckchk_sameButFrame (below (by decide))
  | bounds => exact exec_bounds_sameButFrame s m
  | hdrchk => exact execHdrchk_sameButFrame (below (by decide))
  | arealookup => exact execArealookup_sameButFrame (below (by decide))
  | mrchk => exact execMrchk_sameButFrame belowLimit

end Sys2Proof.Machine
end

section
/-! PROOF. The commands on a range and on the header (42_validator.md R304 to R308). -/

namespace Sys2Proof.Machine

/-! ## Checksums -/

theorem ck8_eq_frameSum (s : State) (a n : Nat) : ck8 s a n = (256 - frameSum s a n % 256) % 256 := by
  rw [ck8, sum8_eq_frameSum]

/-- Settles O49: both halves are arithmetic modulo 256, on the sum and on the sum without its last byte. -/
theorem checksumLaw : Obligations.ChecksumLaw := by
  unfold Obligations.ChecksumLaw
  intro s a n
  have hbyte := (s.frame.read (a + n)).isLt
  rw [sum8_eq_frameSum, frameSum_succ, ck8_eq_frameSum]
  omega

/-! ## CKGEN, CKCHK and BOUNDS -/

/-- Settles O46: the checks of a range, then its checksum byte. -/
theorem ckgenRule : Obligations.CkgenRule := by
  unfold Obligations.CkgenRule
  intro s
  rw [exec_ckgen, ck8_eq_frameSum]
  exact ⟨onRange_of_longFrame, onRange_of_outside, onRange_of_inside⟩

/-- Settles O47: the checks of a range, then its sum. -/
theorem ckchkRule : Obligations.CkchkRule := by
  unfold Obligations.CkchkRule
  intro s
  rw [exec_ckchk, sum8_eq_frameSum]
  refine ⟨onRange_of_longFrame, onRange_of_outside, fun hframe hin hsum => ?_, fun hframe hin hsum => ?_⟩
  · rw [onRange_of_inside hframe hin, if_pos hsum]
    rfl
  · rw [onRange_of_inside hframe hin, if_neg (not_not.2 hsum)]
    rfl

/-- Settles O48: BOUNDS is the checks of a range alone. -/
theorem boundsRule : Obligations.BoundsRule := by
  unfold Obligations.BoundsRule
  intro s
  rw [exec_bounds]
  exact ⟨onRange_of_longFrame, onRange_of_outside, onRange_of_inside⟩

/-! ## HDRCHK -/

theorem exec_hdrchk_of_longFrame {s : State} (hlong : 4096 < s.frameLen.toNat) :
    exec .hdrchk s = .next (s.setStatus 0x15) :=
  if_pos hlong

/-- HDRCHK reports the header check, and writes nothing else. -/
theorem exec_hdrchk_of_frame {s : State} (hframe : s.frameLen.toNat ≤ 4096) :
    exec .hdrchk s = .next (s.setStatus (checkStatus (hdrCheck s s.frameLen.toNat))) := by
  refine (if_neg (Nat.not_lt.2 hframe)).trans ?_
  cases hdrCheck s s.frameLen.toNat <;> rfl

/-- Settles O50: the header check's conditions, after that on the frame length. -/
theorem hdrchkReportsFirstFailure : Obligations.HdrchkReportsFirstFailure := by
  unfold Obligations.HdrchkReportsFirstFailure
  refine ⟨fun s hvalid => ?_, fun s => ?_⟩
  · obtain ⟨hframe, hok⟩ := (headerValid_iff s).1 hvalid
    rw [exec_hdrchk_of_frame hframe, hok]
    rfl
  · by_cases hlong : 4096 < s.frameLen.toNat
    · rw [exec_hdrchk_of_longFrame hlong, if_pos hlong]
      rfl
    · rw [exec_hdrchk_of_frame (Nat.not_lt.1 hlong), if_neg hlong, checkStatus_hdrCheck]
      rfl

end Sys2Proof.Machine
end

section
/-! PROOF. AREALOOKUP (42_validator.md R310): what it answers once the frame length, the slot and the header have
passed is the answer of the check of its slot's area. -/

namespace Sys2Proof.Machine

/-- A number that fits a 16-bit register is read back from it. -/
theorem half_toNat_ofNat {n : Nat} (h : n < 65536) : (BitVec.ofNat 16 n).toNat = n :=
  (BitVec.toNat_ofNat ..).trans (Nat.mod_eq_of_lt h)

/-! ## Before the area -/

theorem slot_eq (s : State) : s.slot = s.ctrl.toNat / 16 % 8 := by
  simp [State.slot, Nat.shiftRight_eq_div_pow]

section
variable {s : State}

theorem exec_arealookup_of_longFrame (hlong : 4096 < s.frameLen.toNat) :
    exec .arealookup s = .next (s.setStatus 0x15) :=
  if_pos hlong

theorem exec_arealookup_of_badSlot (hframe : s.frameLen.toNat ≤ 4096) (hslot : 4 < s.slot) :
    exec .arealookup s = .next (s.setStatus 0x14) :=
  (if_neg (Nat.not_lt.2 hframe)).trans (if_pos hslot)

theorem exec_arealookup_of_badHeader (hframe : s.frameLen.toNat ≤ 4096) (hslot : s.slot ≤ 4) {c : StatusCode}
    (hheader : hdrCheck s s.frameLen.toNat = .error c) : exec .arealookup s = .next (s.setStatus c.toByte) := by
  refine (if_neg (Nat.not_lt.2 hframe)).trans ((if_neg (Nat.not_lt.2 hslot)).trans ?_)
  rw [hheader]
  rfl

end

/-- Settles O51: the checks before the area, the header's being the one HDRCHK reports. -/
theorem arealookupRefusesBeforeTheArea : Obligations.ArealookupRefusesBeforeTheArea := by
  unfold Obligations.ArealookupRefusesBeforeTheArea
  intro s
  refine ⟨slot_eq s, exec_arealookup_of_longFrame, exec_arealookup_of_badSlot, fun hframe hslot hinvalid => ?_⟩
  obtain ⟨c, hc, hstatus, hclass⟩ :=
    (hdrCheck_failsInClass3 s s.frameLen.toNat).exists_error (hdrCheck_ne_ok hframe hinvalid)
  have hhdrchk : exec .hdrchk s = .next (s.setStatus c.toByte) := by rw [exec_hdrchk_of_frame hframe, hstatus]
  exact ⟨_, hhdrchk, (ne_success_of_class3 hclass).1, exec_arealookup_of_badHeader hframe hslot hc⟩

/-! ## At the area -/

/-- How AREALOOKUP ends on the answer of the check of the area at `b`. -/
def State.endLookup (s : State) (b : Nat) : Except StatusCode Nat → Result
  | .error c => raise c s
  | .ok size =>
    if s.slot = 4 then finish .ok ((s.setMr b).setArea b size) else finish .ok (s.setArea b size)

/-- Once the header has passed, the offset byte of the slot decides, then the check of the area there. -/
theorem exec_arealookup_of_header {s : State} (hvalid : headerValid s) (hslot : s.slot ≤ 4) :
    exec .arealookup s =
      if s.frame.read (1 + s.slot) = 0x00 then finish .absent (s.setArea 0 0)
      else s.endLookup (8 * (s.frame.read (1 + s.slot)).toNat)
        (areaCheck s s.slot (8 * (s.frame.read (1 + s.slot)).toNat) s.frameLen.toNat) := by
  obtain ⟨hframe, hok⟩ := (headerValid_iff s).1 hvalid
  refine (if_neg (Nat.not_lt.2 hframe)).trans ((if_neg (Nat.not_lt.2 hslot)).trans ?_)
  rw [hok]
  refine congrArg (ite _ _) ?_
  change _ = s.endLookup _ (areaCheck s s.slot (blocks (s.frameByte (1 + s.slot))) s.frameLen.toNat)
  cases areaCheck s s.slot (blocks (s.frameByte (1 + s.slot))) s.frameLen.toNat <;> rfl

/-- Settles O52: an offset byte of 0 ends AREALOOKUP with ABSENT. -/
theorem arealookupAbsentArea : Obligations.ArealookupAbsentArea := by
  unfold Obligations.ArealookupAbsentArea
  intro s hvalid hslot habsent
  rw [exec_arealookup_of_header hvalid hslot, if_pos habsent]
  rfl

/-- AREALOOKUP reaches the area of its slot, which stands at byte offset `b` (42_validator.md R301). -/
structure AreaAt (s : State) (b : Nat) : Prop where
  header : headerValid s
  slot : s.slot ≤ 4
  present : s.frame.read (1 + s.slot) ≠ 0x00
  offset : b = 8 * (s.frame.read (1 + s.slot)).toNat

namespace AreaAt
variable {s : State} {b : Nat} (h : AreaAt s b)
include h

theorem exec_eq : exec .arealookup s = s.endLookup b (areaCheck s s.slot b s.frameLen.toNat) := by
  rw [exec_arealookup_of_header h.header h.slot, if_neg h.present, ← h.offset]

theorem exec_of_refused (hbad : ∀ size, areaCheck s s.slot b s.frameLen.toNat ≠ .ok size) :
    exec .arealookup s = .next (s.setStatus (checkStatus (areaCheck s s.slot b s.frameLen.toNat))) := by
  obtain ⟨c, hc, -⟩ := (areaCheck_failsInClass3 s s.slot b s.frameLen.toNat).exists_error hbad
  rw [h.exec_eq, hc]
  rfl

theorem exec_of_area (hslot : s.slot ≠ 4) {size : Nat} (hok : areaCheck s s.slot b s.frameLen.toNat = .ok size) :
    exec .arealookup s = .next ((s.setArea b size).setStatus 0x00) := by
  rw [h.exec_eq, hok]
  exact if_neg hslot

theorem exec_of_record (hslot : s.slot = 4) {size : Nat} (hok : areaCheck s s.slot b s.frameLen.toNat = .ok size) :
    exec .arealookup s = .next (((s.setMr b).setArea b size).setStatus 0x00) := by
  rw [h.exec_eq, hok]
  exact if_pos hslot

/-- No area stands in the header: its offset is at least one block. -/
theorem past_header : 8 ≤ b := by
  have hpos : (s.frame.read (1 + s.slot)).toNat ≠ 0 := fun h0 => h.present (BitVec.eq_of_toNat_eq h0)
  have hoffset := h.offset
  omega

end AreaAt

/-- Settles O53: slot 0 is checked as an internal-use area. -/
theorem arealookupInternalUse : Obligations.ArealookupInternalUse := by
  unfold Obligations.ArealookupInternalUse
  intro s b hvalid hslot hpresent hb
  have harea : AreaAt s b := ⟨hvalid, by omega, by rwa [hslot], by rwa [hslot]⟩
  have hcheck : areaCheck s s.slot b s.frameLen.toNat = iuCheck s b s.frameLen.toNat := by rw [hslot]; rfl
  have hrefused {code : Byte} (hstatus : checkStatus (iuCheck s b s.frameLen.toNat) = code) (hcode : code ≠ 0x00) :
      exec .arealookup s = .next (s.setStatus code) := by
    rw [harea.exec_of_refused (hcheck ▸ ne_ok_of_checkStatus hstatus hcode), hcheck, hstatus]
  refine ⟨fun hout => hrefused ?_ (by decide), fun hin hversion => hrefused ?_ (by decide), fun hin hversion => ?_⟩
  · rw [checkStatus_iuCheck, if_pos hout]
  · rw [checkStatus_iuCheck, if_neg (Nat.not_lt.2 hin), if_pos hversion]
  · exact harea.exec_of_area (by omega) (hcheck.trans (iuCheck_ok.2 ⟨hin, hversion, rfl⟩))

/-- Settles O54: slots 1 to 3 are checked as info areas. -/
theorem arealookupInfoArea : Obligations.ArealookupInfoArea := by
  unfold Obligations.ArealookupInfoArea
  rintro s b _ hvalid hslot hpresent hb rfl
  have harea : AreaAt s b := ⟨hvalid, by omega, hpresent, hb⟩
  have hcheck := areaCheck_info (s := s) (b := b) (fl := s.frameLen.toNat) hslot
  refine ⟨fun hinfo => ?_, fun hinfo => ?_⟩
  · exact harea.exec_of_area (by omega) (hcheck.trans ((infoAreaValid_iff ..).1 hinfo))
  · rw [harea.exec_of_refused (hcheck ▸ infoCheck_ne_ok hinfo), hcheck, checkStatus_infoCheck_of_invalid hinfo]
    rfl

/-- Settles O55: slot 4 is checked as a record under the frame's bound. -/
theorem arealookupMultirecord : Obligations.ArealookupMultirecord := by
  unfold Obligations.ArealookupMultirecord
  intro s b hvalid hslot hpresent hb
  have harea : AreaAt s b := ⟨hvalid, by omega, by rwa [hslot], by rwa [hslot]⟩
  have hcheck : areaCheck s s.slot b s.frameLen.toNat = mrCheck s b s.frameLen.toNat := by rw [hslot]; rfl
  refine ⟨fun hrecord => ?_, fun hrecord => ⟨?_, recordStatus_ne_ok hrecord⟩⟩
  · exact harea.exec_of_record hslot (hcheck.trans ((recordValid_iff ..).1 hrecord))
  · rw [harea.exec_of_refused (hcheck ▸ mrCheck_ne_ok hrecord), hcheck, checkStatus_mrCheck]
    rfl

/-- Settles O59: CKCHK sums the area, and the area is valid. -/
theorem builtAreaPasses : Obligations.BuiltAreaPasses := by
  unfold Obligations.BuiltAreaPasses
  rintro s b _ hvalid hslot hpresent hb hversion rfl hsize hin hsum hoff hlen
  obtain ⟨hframe, -⟩ := (headerValid_iff s).1 hvalid
  obtain ⟨-, -, -, hckchk⟩ := ckchkRule s
  obtain ⟨hlookup, -⟩ := arealookupInfoArea s b _ hvalid hslot hpresent hb rfl
  refine ⟨hckchk hframe (by omega) (by rwa [hoff, hlen]), _, hlookup ⟨by omega, hversion, by omega, hin, hsum⟩, rfl,
    ?_, ?_⟩
  · exact half_toNat_ofNat (by omega)
  · exact half_toNat_ofNat (by omega)

end Sys2Proof.Machine
end

section
/-! PROOF. MRCHK (42_validator.md R312), and the area pointer after AREALOOKUP and MRCHK (R315). -/

namespace Sys2Proof.Machine

/-! ## MRCHK -/

/-- The state after MRCHK takes the record of `size` bytes at CURSOR (42_validator.md R312). -/
def State.takeRecord (s : State) (size : Nat) : State :=
  (((s.setMr s.cursor.toNat).setArea s.cursor.toNat size).setCursor (s.cursor.toNat + size)).setStatus 0x00

theorem takeRecord_eq (s : State) (size : Nat) : s.takeRecord size =
    { s with
      mrType := s.frame.read s.cursor.toNat, mrFlags := s.frame.read (s.cursor.toNat + 1), areaPtr := s.cursor
      areaSize := BitVec.ofNat 16 size, cursor := BitVec.ofNat 16 (s.cursor.toNat + size), status := 0x00 } := by
  rw [State.takeRecord, State.setArea, BitVec.ofNat_toNat, BitVec.setWidth_eq]
  rfl

section
variable {s : State}

theorem exec_mrchk_of_longFrame (hlong : 4096 < s.frameLen.toNat) : exec .mrchk s = .next (s.setStatus 0x15) :=
  if_pos hlong

theorem exec_mrchk_of_badLimit (hframe : s.frameLen.toNat ≤ 4096) (hlimit : s.frameLen.toNat < s.limit.toNat) :
    exec .mrchk s = .next (s.setStatus 0x34) :=
  (if_neg (Nat.not_lt.2 hframe)).trans (if_pos hlimit)

section
variable (hframe : s.frameLen.toNat ≤ 4096) (hlimit : s.limit.toNat ≤ s.frameLen.toNat)
include hframe hlimit

theorem exec_mrchk_of_refused (hbad : ∀ size, mrCheck s s.cursor.toNat s.limit.toNat ≠ .ok size) :
    exec .mrchk s = .next (s.setStatus (recordStatus s s.cursor.toNat s.limit.toNat)) := by
  obtain ⟨c, hc, hstatus, -⟩ := (mrCheck_failsInClass3 s s.cursor.toNat s.limit.toNat).exists_error hbad
  rw [← checkStatus_mrCheck, hstatus]
  refine (if_neg (Nat.not_lt.2 hframe)).trans ((if_neg (Nat.not_lt.2 hlimit)).trans ?_)
  rw [hc]
  rfl

theorem exec_mrchk_of_record {size : Nat} (hok : mrCheck s s.cursor.toNat s.limit.toNat = .ok size) :
    exec .mrchk s = .next (s.takeRecord size) := by
  refine (if_neg (Nat.not_lt.2 hframe)).trans ((if_neg (Nat.not_lt.2 hlimit)).trans ?_)
  rw [hok]
  rfl

end

/-- AREA_PTR, AREA_SIZE and CURSOR do not wrap: the record ends at or before LIMIT, a 16-bit register. -/
theorem takeRecord_toNat {size : Nat} (hin : s.cursor.toNat + size ≤ s.limit.toNat) :
    (s.takeRecord size).areaPtr.toNat = s.cursor.toNat ∧ (s.takeRecord size).areaSize.toNat = size ∧
      (s.takeRecord size).cursor.toNat = s.cursor.toNat + size :=
  ⟨half_toNat_ofNat (by omega), half_toNat_ofNat (by omega), half_toNat_ofNat (by omega)⟩

end

/-- Settles O56: the record's own size is where CURSOR goes. -/
theorem mrchkAdvancesPastARecord : Obligations.MrchkAdvancesPastARecord := by
  unfold Obligations.MrchkAdvancesPastARecord
  intro s hframe hlimit hrecord
  have hok := (recordValid_iff ..).1 hrecord
  obtain ⟨-, hsize, hcursor⟩ := takeRecord_toNat (mrCheck_inside hok)
  refine ⟨_, exec_mrchk_of_record hframe hlimit hok, ?_, hsize, by rw [hcursor]; omega⟩
  rw [takeRecord_eq]

/-- Settles O57: the checks before the record, then the first failing condition of the record. -/
theorem mrchkFailures : Obligations.MrchkFailures := by
  unfold Obligations.MrchkFailures
  intro s
  exact ⟨exec_mrchk_of_longFrame, exec_mrchk_of_badLimit, fun hframe hlimit hrecord =>
    ⟨exec_mrchk_of_refused hframe hlimit (mrCheck_ne_ok hrecord), recordStatus_ne_ok hrecord⟩⟩

/-! ## The area pointer -/

/-- `t` is `s` with a failure in STATUS. -/
def EndsInError (s t : State) : Prop :=
  ∃ code : Byte, code.toNat / 16 ≠ 0 ∧ t = s.setStatus code

theorem EndsInError.of_class3 {s : State} {code : Byte} (h : code.toNat / 16 = 3) :
    EndsInError s (s.setStatus code) :=
  ⟨code, by omega, rfl⟩

/-- AREALOOKUP fails, finds no area, or returns the pointer and size of an area that its check accepts. -/
theorem exec_arealookup_ends {s t : State} (h : exec .arealookup s = .next t) :
    EndsInError s t ∨ (headerValid s ∧ s.slot ≤ 4 ∧ t = (s.setArea 0 0).setStatus 0x01) ∨
    ∃ b size, AreaAt s b ∧ areaCheck s s.slot b s.frameLen.toNat = .ok size ∧
      t.status = 0x00 ∧ t.areaPtr.toNat = b ∧ t.areaSize.toNat = size := by
  rcases execArealookup_cases h with ⟨-, rfl⟩ | ⟨-, -, rfl⟩ | ⟨-, -, c, hc, rfl⟩ | ⟨hfl, hslot, hok, -, rfl⟩ |
    ⟨-, -, -, -, c, hc, rfl⟩ | ⟨hfl, hslot, hheader, hpresent, size, hok, ht⟩
  · exact .inl ⟨_, by decide, rfl⟩
  · exact .inl ⟨_, by decide, rfl⟩
  · exact .inl (.of_class3 (hdrCheck_failsInClass3 _ _ c hc))
  · exact .inr (.inl ⟨(headerValid_iff s).2 ⟨hfl, hok⟩, hslot, rfl⟩)
  · exact .inl (.of_class3 (areaCheck_failsInClass3 _ _ _ _ c hc))
  · have hin := areaCheck_inside hok
    refine .inr (.inr ⟨_, size, ⟨(headerValid_iff s).2 ⟨hfl, hheader⟩, hslot, hpresent, rfl⟩, hok, ?_⟩)
    rcases ht with ⟨-, rfl⟩ | ⟨-, rfl⟩
    · exact ⟨rfl, half_toNat_ofNat (by omega), half_toNat_ofNat (by omega)⟩
    · exact ⟨rfl, half_toNat_ofNat (by omega), half_toNat_ofNat (by omega)⟩

/-- MRCHK fails, or takes a record that its check accepts. -/
theorem exec_mrchk_ends {s t : State} (h : exec .mrchk s = .next t) :
    EndsInError s t ∨ (s.frameLen.toNat ≤ 4096 ∧ s.limit.toNat ≤ s.frameLen.toNat ∧
      ∃ size, mrCheck s s.cursor.toNat s.limit.toNat = .ok size ∧ t = s.takeRecord size) := by
  rcases execMrchk_cases h with ⟨-, rfl⟩ | ⟨-, -, rfl⟩ | ⟨-, -, c, hc, rfl⟩ | ⟨hfl, hlim, size, hok, rfl⟩
  · exact .inl ⟨_, by decide, rfl⟩
  · exact .inl ⟨_, by decide, rfl⟩
  · exact .inl (.of_class3 (mrCheck_failsInClass3 _ _ _ c hc))
  · exact .inr ⟨hfl, hlim, size, hok, rfl⟩

theorem EndsInError.status_ne {s t : State} (h : EndsInError s t) : t.status ≠ 0x00 ∧ t.status ≠ 0x01 := by
  obtain ⟨code, hcode, rfl⟩ := h
  constructor <;> rintro rfl <;> exact hcode rfl

/-- `t` keeps the area registers of `s` on a failure, and with OK holds an area inside the frame of `s`. -/
def PointerSafe (s t : State) : Prop :=
  (t.status.toNat / 16 ≠ 0 → t.areaPtr = s.areaPtr ∧ t.areaSize = s.areaSize) ∧
    (t.status = 0x00 → t.areaPtr.toNat + t.areaSize.toNat ≤ s.frameLen.toNat)

theorem EndsInError.pointerSafe {s t : State} (h : EndsInError s t) : PointerSafe s t := by
  have hne := h.status_ne.1
  obtain ⟨code, -, rfl⟩ := h
  exact ⟨fun _ => ⟨rfl, rfl⟩, fun hok => absurd hok hne⟩

/-- With a success a pointer is safe when the area it names ends inside the frame. -/
theorem pointerSafe_of_ok {s t : State} (hok : t.status = 0x00)
    (hin : t.areaPtr.toNat + t.areaSize.toNat ≤ s.frameLen.toNat) : PointerSafe s t :=
  ⟨fun hclass => absurd (by rw [hok]; rfl) hclass, fun _ => hin⟩

/-- Settles O58: a check that accepts an area or a record has its end inside the bound. -/
theorem areaPointerStaysInsideTheFrame : Obligations.AreaPointerStaysInsideTheFrame := by
  unfold Obligations.AreaPointerStaysInsideTheFrame
  rintro i s t (rfl | rfl) h
  · rcases exec_arealookup_ends h with herror | ⟨-, -, rfl⟩ | ⟨b, size, -, hok, hstatus, hptr, hsize⟩
    · exact herror.pointerSafe
    · have hne : (0x01 : Byte) ≠ 0x00 := by decide
      exact ⟨fun hclass => absurd (rfl : (0x01 : Byte).toNat / 16 = 0) hclass, fun hok => absurd hok hne⟩
    · exact pointerSafe_of_ok hstatus (by rw [hptr, hsize]; exact areaCheck_inside hok)
  · rcases exec_mrchk_ends h with herror | ⟨-, hlim, size, hok, rfl⟩
    · exact herror.pointerSafe
    · have hin := mrCheck_inside hok
      obtain ⟨hptr, hsize, -⟩ := takeRecord_toNat hin
      exact pointerSafe_of_ok rfl (by rw [hptr, hsize]; omega)

end Sys2Proof.Machine
end

section
/-! PROOF. A single changed byte (42_validator.md R314): it changes the sum of every range that holds it, so that the
check of a range that summed to 0 fails, and every check of the validator fails with a code of class 3. -/

namespace Sys2Proof.Machine

/-- The state with byte `k` of FRAME changed to `v`. -/
def State.corrupt (s : State) (k : Nat) (v : Byte) : State :=
  { s with frame := s.frame.write k v }

/-! ## Sums -/

theorem sum8_succ (s : State) (a n : Nat) : sum8 s a (n + 1) = (sum8 s a n + (s.frame.read (a + n)).toNat) % 256 := by
  rw [sum8_eq_frameSum, sum8_eq_frameSum, frameSum_succ, Nat.mod_add_mod]

section
variable {s : State} {k : Nat} {v : Byte}

theorem corrupt_read_self : (s.corrupt k v).frame.read k = v :=
  (Memory.read_write ..).trans (if_pos rfl)

theorem corrupt_read_ne {j : Nat} (hj : j ≠ k) : (s.corrupt k v).frame.read j = s.frame.read j :=
  (Memory.read_write ..).trans (if_neg hj)

/-- The sum of a range that holds the changed byte changes by the difference of the bytes. -/
theorem sum8_corrupt {a n : Nat} (ha : a ≤ k) (hk : k < a + n) :
    (sum8 (s.corrupt k v) a n + (s.frame.read k).toNat) % 256 = (sum8 s a n + v.toNat) % 256 := by
  induction n with
  | zero => omega
  | succ n ih =>
    rw [sum8_succ, sum8_succ]
    by_cases hlast : k = a + n
    · subst hlast
      have hbefore : sum8 (s.corrupt (a + n) v) a n = sum8 s a n :=
        sum8_congr fun j _ hj => corrupt_read_ne (Nat.ne_of_lt hj)
      rw [corrupt_read_self, hbefore]
      omega
    · have hrest := ih (by omega)
      rw [corrupt_read_ne (Ne.symm hlast)]
      omega

end

section
variable {s : State} {k : Nat} {v : Byte} (hv : v ≠ s.frame.read k)
include hv

/-- A changed byte changes the sum, since bytes differ by less than 256. -/
theorem sum8_corrupt_ne {a n : Nat} (ha : a ≤ k) (hk : k < a + n) : sum8 (s.corrupt k v) a n ≠ sum8 s a n := by
  have hsum := sum8_corrupt (s := s) (v := v) ha hk
  have hne : v.toNat ≠ (s.frame.read k).toNat := BitVec.toNat_ne.1 hv
  have hlt := (s.frame.read k).isLt
  have hlt' := v.isLt
  have hsum_lt := sum8_lt s a n
  intro heq
  rw [heq] at hsum
  omega

/-! ## The checks -/

theorem hdrCheck_corrupt {fl : Nat} (hok : hdrCheck s fl = .ok ()) (hk : k < 8) (a : Unit) :
    hdrCheck (s.corrupt k v) fl ≠ .ok a := by
  intro hok'
  obtain ⟨-, -, -, -, hsum⟩ := hdrCheck_ok.1 hok
  obtain ⟨-, -, -, -, hsum'⟩ := hdrCheck_ok.1 hok'
  exact sum8_corrupt_ne hv (Nat.zero_le k) (hk.trans_eq (Nat.zero_add 8).symm) (hsum'.trans hsum.symm)

/-- The size byte apart, a changed byte leaves the range of an info area as it is. -/
theorem infoCheck_corrupt {b fl size : Nat} (hok : infoCheck s b fl = .ok size) (hb : b ≤ k) (hk : k < b + size)
    (hsize : k ≠ b + 1) (size' : Nat) : infoCheck (s.corrupt k v) b fl ≠ .ok size' := by
  intro hok'
  obtain ⟨-, -, hrange, -, -, hsum⟩ := infoCheck_ok.1 hok
  obtain ⟨-, -, hrange', -, -, hsum'⟩ := infoCheck_ok.1 hok'
  have hsame : size' = size := by
    rw [hrange', hrange, State.frameByte, corrupt_read_ne (Ne.symm hsize)]
    rfl
  rw [hsame] at hsum'
  exact sum8_corrupt_ne hv hb hk (hsum'.trans hsum.symm)

/-- A record's header has a sum of its own, so that a changed length byte is seen before it is used; a changed byte of
the payload leaves the header as it is. -/
theorem mrCheck_corrupt {c lim size : Nat} (hok : mrCheck s c lim = .ok size) (hc : c ≤ k) (hk : k < c + size)
    (size' : Nat) : mrCheck (s.corrupt k v) c lim ≠ .ok size' := by
  intro hok'
  obtain ⟨-, -, hhead, hsize, -, hpayload⟩ := mrCheck_ok.1 hok
  obtain ⟨-, -, hhead', -, -, hpayload'⟩ := mrCheck_ok.1 hok'
  by_cases hin : k < c + 5
  · exact sum8_corrupt_ne hv hc hin (hhead'.trans hhead.symm)
  · have hlen : (s.corrupt k v).frameByte (c + 2) = s.frameByte (c + 2) := corrupt_read_ne (by omega)
    have hck : (s.corrupt k v).frameByte (c + 3) = s.frameByte (c + 3) := corrupt_read_ne (by omega)
    rw [hlen, hck] at hpayload'
    have hlt := sum8_lt s (c + 5) (s.frameByte (c + 2)).toNat
    have hlt' := sum8_lt (s.corrupt k v) (c + 5) (s.frameByte (c + 2)).toNat
    exact sum8_corrupt_ne hv (n := (s.frameByte (c + 2)).toNat) (Nat.not_lt.1 hin) (by omega) (by omega)

/-- An internal-use area has no range, so that the hypotheses on the changed byte name the other slots only. -/
theorem areaCheck_corrupt {slot b fl size : Nat} (hok : areaCheck s slot b fl = .ok size) (hb : b ≤ k)
    (hk : k < b + size) (hsize : slot = 1 ∨ slot = 2 ∨ slot = 3 → k ≠ b + 1) (size' : Nat) :
    areaCheck (s.corrupt k v) slot b fl ≠ .ok size' := by
  match slot with
  | 0 =>
    obtain ⟨-, -, hzero⟩ := iuCheck_ok.1 hok
    omega
  | 1 | 2 | 3 => exact infoCheck_corrupt hv hok hb hk (hsize (by decide)) size'
  | _ + 4 => exact mrCheck_corrupt hv hok hb hk size'

end

/-- A changed byte past the header leaves AREALOOKUP's way to the area as it is. -/
theorem AreaAt.corrupt {s : State} {b k : Nat} {v : Byte} (h : AreaAt s b) (hk : 8 ≤ k) :
    AreaAt (s.corrupt k v) b := by
  obtain ⟨hvalid, hslot, hpresent, hoffset⟩ := h
  obtain ⟨hframe, hok⟩ := (headerValid_iff s).1 hvalid
  have hheader : hdrCheck (s.corrupt k v) s.frameLen.toNat = hdrCheck s s.frameLen.toNat :=
    hdrCheck_congr fun j hj _ => corrupt_read_ne (by omega)
  have hbyte : (s.corrupt k v).frame.read (1 + s.slot) = s.frame.read (1 + s.slot) := corrupt_read_ne (by omega)
  exact ⟨(headerValid_iff _).2 ⟨hframe, hheader.trans hok⟩, hslot, hbyte.symm ▸ hpresent, hbyte.symm ▸ hoffset⟩

/-! ## Commands that end in class 3 -/

/-- A command ends with an error of class 3 (60_exceptions.md R400). -/
def EndsInClass3 (r : Result) : Prop :=
  ∃ u, r = .next u ∧ u.status.toNat / 16 = 3

section
variable {s : State}

theorem EndsInClass3.of_status {r : Result} {code : Byte} (hr : r = .next (s.setStatus code))
    (hcode : code.toNat / 16 = 3) : EndsInClass3 r :=
  ⟨_, hr, hcode⟩

theorem exec_hdrchk_class3 (hframe : s.frameLen.toNat ≤ 4096) (hbad : ∀ a, hdrCheck s s.frameLen.toNat ≠ .ok a) :
    EndsInClass3 (exec .hdrchk s) :=
  .of_status (exec_hdrchk_of_frame hframe) (checkStatus_class3 (hdrCheck_failsInClass3 _ _) hbad)

theorem exec_mrchk_class3 (hframe : s.frameLen.toNat ≤ 4096) (hlimit : s.limit.toNat ≤ s.frameLen.toNat)
    (hbad : ∀ size, mrCheck s s.cursor.toNat s.limit.toNat ≠ .ok size) : EndsInClass3 (exec .mrchk s) := by
  refine .of_status (exec_mrchk_of_refused hframe hlimit hbad) ?_
  rw [← checkStatus_mrCheck]
  exact checkStatus_class3 (mrCheck_failsInClass3 _ _ _) hbad

theorem exec_arealookup_class3_of_header (hframe : s.frameLen.toNat ≤ 4096) (hslot : s.slot ≤ 4)
    (hbad : ∀ a, hdrCheck s s.frameLen.toNat ≠ .ok a) : EndsInClass3 (exec .arealookup s) := by
  obtain ⟨c, hc, -, hclass⟩ := (hdrCheck_failsInClass3 s _).exists_error hbad
  exact .of_status (exec_arealookup_of_badHeader hframe hslot hc) hclass

theorem AreaAt.exec_class3 {b : Nat} (h : AreaAt s b)
    (hbad : ∀ size, areaCheck s s.slot b s.frameLen.toNat ≠ .ok size) : EndsInClass3 (exec .arealookup s) :=
  .of_status (h.exec_of_refused hbad) (checkStatus_class3 (areaCheck_failsInClass3 _ _ _ _) hbad)

end

/-! ## Detection, command by command -/

section
variable {s t : State} {k : Nat} {v : Byte} (hv : v ≠ s.frame.read k)
include hv

theorem ckchk_detects (h : exec .ckchk s = .next t) (hok : t.status = 0x00) (hlo : s.rangeOff.toNat ≤ k)
    (hhi : k < s.rangeOff.toNat + s.rangeLen.toNat) :
    exec .ckchk (s.corrupt k v) = .next ((s.corrupt k v).setStatus 0x33) := by
  rcases execCkchk_cases h with ⟨-, rfl⟩ | ⟨-, -, rfl⟩ | ⟨-, -, -, rfl⟩ | ⟨hframe, hin, hsum, -⟩
  case inr.inr.inr =>
    obtain ⟨-, -, hchecksum, -⟩ := ckchkRule (s.corrupt k v)
    refine hchecksum hframe hin ?_
    rw [← sum8_eq_frameSum]
    exact hsum ▸ sum8_corrupt_ne hv hlo hhi
  all_goals exact absurd hok (by simp)

theorem hdrchk_detects (h : exec .hdrchk s = .next t) (hok : t.status = 0x00) (hk : k < 8) :
    EndsInClass3 (exec .hdrchk (s.corrupt k v)) := by
  rcases execHdrchk_cases h with ⟨-, rfl⟩ | ⟨-, c, hc, rfl⟩ | ⟨hframe, hheader, -⟩
  · exact absurd hok (by simp)
  · exact absurd hok (ne_success_of_class3 (hdrCheck_failsInClass3 _ _ c hc)).1
  · exact exec_hdrchk_class3 hframe (hdrCheck_corrupt hv hheader hk)

theorem mrchk_detects (h : exec .mrchk s = .next t) (hok : t.status = 0x00) (hlo : s.cursor.toNat ≤ k)
    (hhi : k < t.cursor.toNat) : EndsInClass3 (exec .mrchk (s.corrupt k v)) := by
  rcases exec_mrchk_ends h with herror | ⟨hframe, hlimit, size, hrecord, rfl⟩
  · exact absurd hok herror.status_ne.1
  · obtain ⟨-, -, hcursor⟩ := takeRecord_toNat (mrCheck_inside hrecord)
    exact exec_mrchk_class3 hframe hlimit (mrCheck_corrupt hv hrecord hlo (hhi.trans_eq hcursor))

theorem arealookup_detects_in_area (h : exec .arealookup s = .next t) (hok : t.status = 0x00)
    (hlo : t.areaPtr.toNat ≤ k) (hhi : k < t.areaPtr.toNat + t.areaSize.toNat)
    (hsize : s.slot = 1 ∨ s.slot = 2 ∨ s.slot = 3 → k ≠ t.areaPtr.toNat + 1) :
    EndsInClass3 (exec .arealookup (s.corrupt k v)) := by
  rcases exec_arealookup_ends h with herror | ⟨-, -, rfl⟩ | ⟨b, size, harea, hcheck, -, rfl, rfl⟩
  · exact absurd hok herror.status_ne.1
  · exact absurd hok (by simp)
  · exact (harea.corrupt (harea.past_header.trans hlo)).exec_class3 (areaCheck_corrupt hv hcheck hlo hhi hsize)

theorem arealookup_detects_in_header (h : exec .arealookup s = .next t) (hok : t.status = 0x00 ∨ t.status = 0x01)
    (hk : k < 8) : EndsInClass3 (exec .arealookup (s.corrupt k v)) := by
  have hheader : headerValid s ∧ s.slot ≤ 4 := by
    rcases exec_arealookup_ends h with herror | ⟨hvalid, hslot, -⟩ | ⟨b, size, harea, -⟩
    · obtain ⟨hzero, hone⟩ := herror.status_ne
      exact (hok.elim hzero hone).elim
    · exact ⟨hvalid, hslot⟩
    · exact ⟨harea.header, harea.slot⟩
  obtain ⟨hvalid, hslot⟩ := hheader
  obtain ⟨hframe, hcheck⟩ := (headerValid_iff s).1 hvalid
  exact exec_arealookup_class3_of_header hframe hslot (hdrCheck_corrupt hv hcheck hk)

end

/-- Settles O60: the sum of a range detects the byte, and each command's check is of such a range. -/
theorem singleByteCorruptionIsDetected : Obligations.SingleByteCorruptionIsDetected := by
  unfold Obligations.SingleByteCorruptionIsDetected
  intro s k v hv
  refine ⟨fun a n ha hk hsum => hsum ▸ sum8_corrupt_ne hv ha hk, fun t => ckchk_detects hv, fun t => hdrchk_detects hv,
    fun t => mrchk_detects hv, fun t h hok _ hlo hhi hsize => ?_, fun t h hok hslot hlo hhi => ?_,
    fun t => arealookup_detects_in_header hv⟩
  · exact arealookup_detects_in_area hv h hok hlo hhi fun _ => hsize
  · exact arealookup_detects_in_area hv h hok hlo hhi fun hinfo => by omega

end Sys2Proof.Machine
end

section
/-! PROOF. The sequencer (43_sequencer.md): what a step does with a byte written to CMD, and that every command and
every step ends. -/

namespace Sys2Proof.Machine

/-! ## A byte written to CMD -/

/-- The step that performs a write to CMD stores the byte and runs a command. -/
theorem step_cmd_write {s : State} {b : Byte} {es : List HostEvent} (hp : s.pending = .write 0x000 b :: es) :
    step s = runCommand b ((s.setPending es).setCmd b) :=
  (step_cons hp).trans (hostWrite_cmd b _)

theorem runCommand_of_ok {b : Byte} {i : Instr} (h : decodeByte b = .ok i) (s : State) :
    runCommand b s = exec i s := by
  rw [runCommand, h]

theorem runCommand_of_error {b : Byte} {e : DecodeError} (h : decodeByte b = .error e) (s : State) :
    runCommand b s = .next (s.setStatus 0x11) := by
  rw [runCommand, h]
  rfl

/-- The bytes R363 calls illegal are refused by the decoder (30_encoding.md R152). -/
theorem decodeByte_of_illegal {v : Byte} (h : v.toNat / 16 ≠ 0 ∨ (v.toNat / 16 = 0 ∧ 0xC ≤ v.toNat % 16)) :
    ∃ e, decodeByte v = .error e := by
  rcases h with hrsv | ⟨hrsv, hopc⟩
  · exact ⟨_, decodeByte_reservedBits (by omega)⟩
  · exact ⟨_, decodeByte_reservedOpcode (by omega) (by omega)⟩

/-- Settles O4: the byte written to CMD selects the command. -/
theorem stepRunsDecodedCommand : Obligations.StepRunsDecodedCommand := by
  unfold Obligations.StepRunsDecodedCommand
  intro s b es i hp hd
  exact (step_cmd_write hp).trans (runCommand_of_ok hd _)

/-- Settles O5: the decoder refuses the byte, and the illegal command writes STATUS alone. -/
theorem illegalByteSetsBadCmd : Obligations.IllegalByteSetsBadCmd := by
  unfold Obligations.IllegalByteSetsBadCmd
  intro s v es hp hv
  obtain ⟨e, he⟩ := decodeByte_of_illegal hv
  exact (step_cmd_write hp).trans (runCommand_of_error he _)

/-! ## NOP -/

theorem exec_nop (s : State) : exec .nop s = .next (s.setStatus 0x00) :=
  rfl

/-- Settles O22: right after reset, CMD and STATUS hold already what the write of NOP's byte leaves in them. -/
theorem nopOnlySetsStatus : Obligations.NopOnlySetsStatus := by
  unfold Obligations.NopOnlySetsStatus
  refine ⟨exec_nop, ?_⟩
  rw [stepRunsDecodedCommand _ _ [] .nop rfl (decodeByte_encodeByte .nop), exec_nop]
  rfl

/-! ## Every command and every step ends -/

/-- What does not see the pending events ends in a next state, also with those it was given. -/
theorem IgnoresPending.total {f : State → Result} (hf : IgnoresPending f) (s : State) : ∃ t, f s = .next t := by
  obtain ⟨t, ht⟩ := hf s
  exact ⟨_, ht s.pending⟩

theorem step_total (s : State) : ∃ t, step s = .next t := by
  cases hp : s.pending with
  | nil =>
    obtain ⟨-, hidle⟩ := readsAndIdlingChangeNothing
    exact ⟨s, hidle s hp⟩
  | cons e es =>
    obtain ⟨t, ht⟩ := (hostEvent_ignoresPending e).total (s.setPending es)
    exact ⟨t, (step_cons hp).trans ht⟩

/-- Settles O15: a command ends in a next state, and `exec_ends` gives the code it leaves in STATUS. -/
theorem everyCommandEnds : Obligations.EveryCommandEnds := by
  unfold Obligations.EveryCommandEnds
  refine ⟨fun i s => ?_, step_total⟩
  obtain ⟨t, ht⟩ := (exec_ignoresPending i).total s
  obtain ⟨c, -, u, -, rfl⟩ := exec_ends ht
  exact ⟨_, ht, c, rfl⟩

end Sys2Proof.Machine
end

section
/-! PROOF. A command's outcome depends on its operands alone (43_sequencer.md R361, 30_encoding.md R156): two states
that agree on them take the same branch at every check, and what is then written is computed from them. -/

namespace Sys2Proof.Machine

/-! ## The same writes to two states -/

/-- `u` and `u'` come from `s` and `s'` by the same writes: every register and buffer byte is the same in both or was
touched in neither. With the same STATUS, it is `sameOutcome` (`sameOutcome_iff`). -/
structure SameWrites (s s' u u' : State) : Prop where
  reg8 : ∀ r, u.get8 r = u'.get8 r ∨ (u.get8 r = s.get8 r ∧ u'.get8 r = s'.get8 r)
  reg16 : ∀ r, u.get16 r = u'.get16 r ∨ (u.get16 r = s.get16 r ∧ u'.get16 r = s'.get16 r)
  buf : ∀ b k, (u.getBuf b).read k = (u'.getBuf b).read k ∨
    ((u.getBuf b).read k = (s.getBuf b).read k ∧ (u'.getBuf b).read k = (s'.getBuf b).read k)

theorem sameOutcome_iff {s s' t t' : State} :
    sameOutcome s s' t t' ↔ t.status = t'.status ∧ SameWrites s s' t t' :=
  ⟨fun ⟨hstatus, h8, h16, hbuf⟩ => ⟨hstatus, h8, h16, hbuf⟩,
    fun ⟨hstatus, h⟩ => ⟨hstatus, h.reg8, h.reg16, h.buf⟩⟩

namespace SameWrites
variable {s s' u u' : State}

theorem refl (s s' : State) : SameWrites s s' s s' :=
  ⟨fun _ => .inr ⟨rfl, rfl⟩, fun _ => .inr ⟨rfl, rfl⟩, fun _ _ => .inr ⟨rfl, rfl⟩⟩

theorem set8 (h : SameWrites s s' u u') (r : Reg8) (b : Byte) : SameWrites s s' (u.set8 r b) (u'.set8 r b) where
  reg8 q := by
    rw [get8_set8, get8_set8]
    split
    · exact .inl rfl
    · exact h.reg8 q
  reg16 q := by simpa using h.reg16 q
  buf k i := by simpa using h.buf k i

theorem set16 (h : SameWrites s s' u u') (r : Reg16) (v : Half) : SameWrites s s' (u.set16 r v) (u'.set16 r v) where
  reg8 q := by simpa using h.reg8 q
  reg16 q := by
    rw [get16_set16, get16_set16]
    split
    · exact .inl rfl
    · exact h.reg16 q
  buf k i := by simpa using h.buf k i

/-- A fill writes every byte of the buffer, and a read past its end is untouched. -/
theorem fillBuf (h : SameWrites s s' u u') (k : Buffer) {cap : Nat} {bs : List Byte} (hcap : bs.length ≤ cap) :
    SameWrites s s' (u.setBuf k ((u.getBuf k).fill cap bs)) (u'.setBuf k ((u'.getBuf k).fill cap bs)) where
  reg8 q := by simpa using h.reg8 q
  reg16 q := by simpa using h.reg16 q
  buf j i := by
    rw [getBuf_setBuf, getBuf_setBuf]
    split
    · next hj =>
      rw [hj, Memory.read_fill _ _ _ _ hcap, Memory.read_fill _ _ _ _ hcap]
      split
      · exact .inl rfl
      · exact h.buf k i
    · exact h.buf j i

/-! ## The named updates -/

theorem setTag (h : SameWrites s s' u u') (b : Byte) : SameWrites s s' (u.setTag b) (u'.setTag b) :=
  (((h.set8 .tagType (tagTypeOf b)).set8 .tagLen (tagLenOf b)).set8 .tagFlags (tagFlagsOf b)).set8
    .tagDlen (tagDlenOf b)

theorem setTagTl (h : SameWrites s s' u u') (b : Byte) : SameWrites s s' (u.setTagTl b) (u'.setTagTl b) :=
  (h.set8 .tagTl b).setTag b

theorem setField (h : SameWrites s s' u u') (b : Byte) {p : List Byte} (hp : p.length ≤ 64) :
    SameWrites s s' (u.setField b p) (u'.setField b p) :=
  (h.fillBuf .fieldBuf hp).set8 .fieldTl b

theorem setOut (h : SameWrites s s' u u') {d : List Byte} (hd : d.length ≤ 128) :
    SameWrites s s' (u.setOut d) (u'.setOut d) :=
  (h.fillBuf .outBuf hd).set8 .outLen (BitVec.ofNat 8 d.length)

theorem setCk (h : SameWrites s s' u u') (v : Nat) : SameWrites s s' (u.setCk v) (u'.setCk v) :=
  h.set8 .ckResult (BitVec.ofNat 8 v)

theorem setArea (h : SameWrites s s' u u') (b n : Nat) : SameWrites s s' (u.setArea b n) (u'.setArea b n) :=
  (h.set16 .areaPtr (BitVec.ofNat 16 b)).set16 .areaSize (BitVec.ofNat 16 n)

/-- The first two bytes of a record are written, so that they must be the same in both frames. -/
theorem setMr (h : SameWrites s s' u u') {b : Nat} (htype : u.frameByte b = u'.frameByte b)
    (hflags : u.frameByte (b + 1) = u'.frameByte (b + 1)) : SameWrites s s' (u.setMr b) (u'.setMr b) := by
  rw [State.setMr, State.setMr, htype, hflags]
  exact (h.set8 .mrType (u'.frameByte b)).set8 .mrFlags (u'.frameByte (b + 1))

theorem setCursor (h : SameWrites s s' u u') (c : Nat) : SameWrites s s' (u.setCursor c) (u'.setCursor c) :=
  h.set16 .cursor (BitVec.ofNat 16 c)

end SameWrites

/-! ## The same ending of two runs -/

/-- Two results are next states with the same outcome, in the sense of the statement. -/
def SameEnding (s s' : State) (r r' : Result) : Prop :=
  ∃ t t', r = .next t ∧ r' = .next t' ∧ sameOutcome s s' t t'

namespace SameEnding
variable {s s' u u' : State} {r r' q q' : Result}

theorem finished (c : StatusCode) (h : SameWrites s s' u u') : SameEnding s s' (finish c u) (finish c u') :=
  ⟨_, _, rfl, rfl, sameOutcome_iff.2 ⟨rfl, h.set8 .status c.toByte⟩⟩

theorem raised (c : StatusCode) : SameEnding s s' (raise c s) (raise c s') :=
  finished c (.refl s s')

theorem branch {p : Prop} [Decidable p] (hr : p → SameEnding s s' r r') (hq : ¬p → SameEnding s s' q q') :
    SameEnding s s' (if p then r else q) (if p then r' else q') := by
  split
  · next h => exact hr h
  · next h => exact hq h

/-- The checks of a range depend on FRAME_LEN, RANGE_OFF and RANGE_LEN alone. -/
theorem onRange (hlen : s.frameLen = s'.frameLen) (hoff : s.rangeOff = s'.rangeOff)
    (hrange : s.rangeLen = s'.rangeLen) (h : SameEnding s s' r r') :
    SameEnding s s' (s.onRange r) (s'.onRange r') := by
  unfold State.onRange
  rw [hlen, hoff, hrange]
  exact .branch (fun _ => .raised _) fun _ => .branch (fun _ => .raised _) fun _ => h

end SameEnding

/-! ## The field codec -/

section
variable {s s' : State}

theorem value_congr (h : sameValue s s') : s.value = s'.value := by
  obtain ⟨-, hlen, hbytes⟩ := h
  rw [State.value, State.value, ← hlen]
  exact Memory.readBytes_congr fun k _ hk => hbytes k (by omega)

/-- CLASSIFY and ENCODE plan from the mode, the policy and the value. -/
theorem plan_congr (h : sameValue s s') : s.plan = s'.plan := by
  have hvalue := value_congr h
  obtain ⟨hctrl, hlen, -⟩ := h
  have hmode : s.encMode = s'.encMode := by rw [encMode_eq, encMode_eq]; omega
  have hpolicy : s.policy = s'.policy := by rw [Bool.eq_iff_iff, policy_iff, policy_iff]; omega
  rw [State.plan, State.plan, hmode, hpolicy, hvalue, hlen]

theorem execClassify_sameEnding (h : sameValue s s') : SameEnding s s' (execClassify s) (execClassify s') := by
  rw [execClassify, execClassify, ← plan_congr h]
  cases s.plan with
  | error c => exact .raised c
  | ok g => exact .finished .ok ((SameWrites.refl s s').setTagTl _)

theorem execEncode_sameEnding (h : sameValue s s') : SameEnding s s' (execEncode s) (execEncode s') := by
  rw [execEncode, execEncode, ← plan_congr h, ← value_congr h]
  cases hplan : s.plan with
  | error c => exact .raised c
  | ok g => exact .finished .ok (((SameWrites.refl s s').setTagTl _).setField _ (pack_length_le hplan))

theorem execDecode_sameEnding (h : sameOperands .decode s s') : SameEnding s s' (execDecode s) (execDecode s') := by
  obtain ⟨hfieldTl, houtCap, hbytes⟩ := h
  have htag : s.fieldTag = s'.fieldTag := congrArg decodeTypelen hfieldTl
  have hpayload : s.fieldPayload = s'.fieldPayload := by
    rw [State.fieldPayload, State.fieldPayload, ← htag, State.fieldTag, decodeTypelen_len]
    exact Memory.readBytes_congr fun k _ hk => hbytes k (by omega)
  have hfits : (unpack s.fieldTag.type s.fieldPayload).length ≤ 128 :=
    (unpack_fieldPayload_length_le s).trans (by decide)
  rw [execDecode, execDecode, ← htag, ← hpayload, ← houtCap]
  exact .branch (fun _ => .raised _) fun _ => .finished .ok ((SameWrites.refl s s').setOut hfits)

/-! ## The tag parser -/

theorem exec_tagparse_sameEnding (h : s.tagTl = s'.tagTl) :
    SameEnding s s' (exec .tagparse s) (exec .tagparse s') := by
  rw [exec_tagparse, exec_tagparse, ← h]
  exact .finished .ok ((SameWrites.refl s s').setTag _)

theorem sameFrame.mono {a b c d : Nat} (h : sameFrame s s' a d) (hab : a ≤ b) (hcd : c ≤ d) :
    sameFrame s s' b c :=
  fun k hlo hhi => h k (hab.trans hlo) (hhi.trans_le hcd)

theorem execTlstep_sameEnding (h : sameOperands .tlstep s s') : SameEnding s s' (execTlstep s) (execTlstep s') := by
  obtain ⟨hlen, hlimit, hcursor, hframe⟩ := h
  have hbyte : s.frameByte s.cursor.toNat = s'.frameByte s.cursor.toNat :=
    hframe _ le_rfl (by unfold fieldEnd; omega)
  have hpayload : s.frameBytes (s.cursor.toNat + 1) (decodeTypelen (s.frameByte s.cursor.toNat)).len =
      s'.frameBytes (s.cursor.toNat + 1) (decodeTypelen (s.frameByte s.cursor.toNat)).len := by
    rw [decodeTypelen_len]
    exact Memory.readBytes_congr (hframe.mono (Nat.le_succ _) le_rfl)
  have hfits : (s.frameBytes (s.cursor.toNat + 1) (decodeTypelen (s.frameByte s.cursor.toNat)).len).length ≤ 64 := by
    rw [State.frameBytes, Memory.readBytes_length]
    exact (decodeTypelen_len_lt _).le
  simp only [execTlstep, ← hlen, ← hlimit, ← hcursor, ← hbyte, ← hpayload]
  have hwrites := (SameWrites.refl s s').setTagTl (s.frameByte s.cursor.toNat)
  exact .branch (fun _ => .raised _) fun _ => .branch (fun _ => .raised _) fun _ =>
    .branch (fun _ => .raised _) fun _ => .branch (fun _ => .finished .eof hwrites) fun _ =>
      .branch (fun _ => .raised _) fun _ => .finished .ok ((hwrites.setField _ hfits).setCursor _)

/-! ## The commands on a range -/

theorem exec_ckgen_sameEnding (h : sameOperands .ckgen s s') :
    SameEnding s s' (exec .ckgen s) (exec .ckgen s') := by
  obtain ⟨hlen, hoff, hrange, hframe⟩ := h
  have hsum : ck8 s' s'.rangeOff.toNat s'.rangeLen.toNat = ck8 s s.rangeOff.toNat s.rangeLen.toNat := by
    rw [ck8, ck8, ← hoff, ← hrange, sum8_congr hframe]
  rw [exec_ckgen, exec_ckgen, hsum]
  exact .onRange hlen hoff hrange (.finished .ok ((SameWrites.refl s s').setCk _))

theorem exec_ckchk_sameEnding (h : sameOperands .ckchk s s') :
    SameEnding s s' (exec .ckchk s) (exec .ckchk s') := by
  obtain ⟨hlen, hoff, hrange, hframe⟩ := h
  have hsum : sum8 s' s'.rangeOff.toNat s'.rangeLen.toNat = sum8 s s.rangeOff.toNat s.rangeLen.toNat := by
    rw [← hoff, ← hrange, sum8_congr hframe]
  rw [exec_ckchk, exec_ckchk, hsum]
  exact .onRange hlen hoff hrange
    (.branch (fun _ => .raised _) fun _ => .finished .ok ((SameWrites.refl s s').setCk _))

theorem exec_bounds_sameEnding (h : sameOperands .bounds s s') :
    SameEnding s s' (exec .bounds s) (exec .bounds s') := by
  obtain ⟨hlen, hoff, hrange⟩ := h
  exact .onRange hlen hoff hrange (.finished .ok (.refl s s'))

/-! ## The commands on structures in FRAME -/

theorem hdrCheck_of_sameFrame (h : sameFrame s s' 0 8) (fl : Nat) : hdrCheck s fl = hdrCheck s' fl :=
  hdrCheck_congr fun k hk _ => h k (Nat.zero_le k) hk

theorem mrCheck_of_sameFrame {c : Nat} (h : sameFrame s s' c (recordEnd s c)) (lim : Nat) :
    mrCheck s c lim = mrCheck s' c lim :=
  mrCheck_congr fun k hlo hhi _ => h k hlo hhi

theorem areaCheck_of_sameFrame {slot b : Nat} (h : sameFrame s s' b (areaEnd s slot b)) (fl : Nat) :
    areaCheck s slot b fl = areaCheck s' slot b fl :=
  areaCheck_congr fun k hlo hhi _ => h k hlo hhi

/-- The type and flags of a record that is the same in both frames. -/
theorem SameWrites.setMr_of_sameFrame {c : Nat} (h : sameFrame s s' c (recordEnd s c)) :
    SameWrites s s' (s.setMr c) (s'.setMr c) :=
  (SameWrites.refl s s').setMr (h c le_rfl (by unfold recordEnd; omega))
    (h (c + 1) (Nat.le_succ c) (by unfold recordEnd; omega))

theorem execHdrchk_sameEnding (h : sameOperands .hdrchk s s') : SameEnding s s' (execHdrchk s) (execHdrchk s') := by
  obtain ⟨hlen, hframe⟩ := h
  rw [execHdrchk, execHdrchk, ← hlen, ← hdrCheck_of_sameFrame hframe]
  refine .branch (fun _ => .raised _) fun _ => ?_
  cases hdrCheck s s.frameLen.toNat with
  | error c => exact .raised c
  | ok a => exact .finished .ok (.refl s s')

theorem execArealookup_sameEnding (h : sameOperands .arealookup s s') :
    SameEnding s s' (execArealookup s) (execArealookup s') := by
  obtain ⟨hlen, hctrl, hheader, harea⟩ := h
  have hslot : s.slot = s'.slot := by rw [slot_eq, slot_eq, hctrl]
  rw [execArealookup, execArealookup, ← hlen, ← hslot, ← hdrCheck_of_sameFrame hheader]
  refine .branch (fun _ => .raised _) fun _ => .branch (fun _ => .raised _) fun hbad => ?_
  have hfour : s.slot ≤ 4 := Nat.not_lt.1 hbad
  have hptr : s.frameByte (1 + s.slot) = s'.frameByte (1 + s.slot) := hheader _ (Nat.zero_le _) (by omega)
  cases hdrCheck s s.frameLen.toNat with
  | error c => exact .raised c
  | ok a =>
    simp only [← hptr]
    refine .branch (fun _ => .finished .absent ((SameWrites.refl s s').setArea 0 0)) fun hpresent => ?_
    have hbytes : sameFrame s s' (blocks (s.frameByte (1 + s.slot)))
        (areaEnd s s.slot (blocks (s.frameByte (1 + s.slot)))) := harea hfour hpresent
    rw [← areaCheck_of_sameFrame hbytes]
    cases areaCheck s s.slot (blocks (s.frameByte (1 + s.slot))) s.frameLen.toNat with
    | error c => exact .raised c
    | ok size =>
      refine .branch (fun hrecord => .finished .ok ?_) fun _ => .finished .ok ((SameWrites.refl s s').setArea _ _)
      rw [hrecord] at hbytes ⊢
      exact (SameWrites.setMr_of_sameFrame hbytes).setArea _ _

theorem execMrchk_sameEnding (h : sameOperands .mrchk s s') : SameEnding s s' (execMrchk s) (execMrchk s') := by
  obtain ⟨hlen, hlimit, hcursor, hframe⟩ := h
  rw [execMrchk, execMrchk, ← hlen, ← hlimit, ← hcursor, ← mrCheck_of_sameFrame hframe]
  refine .branch (fun _ => .raised _) fun _ => .branch (fun _ => .raised _) fun _ => ?_
  cases mrCheck s s.cursor.toNat s.limit.toNat with
  | error c => exact .raised c
  | ok size => exact .finished .ok (((SameWrites.setMr_of_sameFrame hframe).setArea _ _).setCursor _)

end

/-- Settles O20: command by command, the checks and the values written are the same for the same operands. -/
theorem outcomeDependsOnOperandsOnly : Obligations.OutcomeDependsOnOperandsOnly := by
  unfold Obligations.OutcomeDependsOnOperandsOnly
  intro i s s' h
  change SameEnding s s' (exec i s) (exec i s')
  cases i with
  | nop => exact .finished .ok (.refl s s')
  | classify => exact execClassify_sameEnding h
  | encode => exact execEncode_sameEnding h
  | decode => exact execDecode_sameEnding h
  | tagparse => exact exec_tagparse_sameEnding h
  | tlstep => exact execTlstep_sameEnding h
  | ckgen => exact exec_ckgen_sameEnding h
  | ckchk => exact exec_ckchk_sameEnding h
  | bounds => exact exec_bounds_sameEnding h
  | hdrchk => exact execHdrchk_sameEnding h
  | arealookup => exact execArealookup_sameEnding h
  | mrchk => exact execMrchk_sameEnding h

end Sys2Proof.Machine
end

section
/-! PROOF. How commands end (60_exceptions.md): each either fails, and then has written STATUS alone (R411), or ends with
a code of class 0; and the code is one that the status table lists for the command (R400). -/

namespace Sys2Proof.Machine

/-! ## A failure writes STATUS alone -/

/-- `t` is `s` with a failure in STATUS, or holds a code of class 0, whatever else was written (00_scope.md R14). -/
def FailsOrSucceeds (s t : State) : Prop :=
  EndsInError s t ∨ t.status.toNat / 16 = 0

namespace FailsOrSucceeds
variable {s t u : State} {code : Byte}

theorem failed (h : code.toNat / 16 ≠ 0) : FailsOrSucceeds s (s.setStatus code) :=
  .inl ⟨code, h, rfl⟩

theorem failed_class3 (h : code.toNat / 16 = 3) : FailsOrSucceeds s (s.setStatus code) :=
  .inl (.of_class3 h)

theorem succeeded (h : code.toNat / 16 = 0) : FailsOrSucceeds s (u.setStatus code) :=
  .inr h

/-- A state whose STATUS has a class other than 0 is the state before with that STATUS. -/
theorem eq_of_class_ne (h : FailsOrSucceeds s t) (hclass : t.status.toNat / 16 ≠ 0) : t = s.setStatus t.status := by
  rcases h with ⟨code, -, rfl⟩ | hsucc
  · rfl
  · exact absurd hsucc hclass

end FailsOrSucceeds

section
variable {s t : State}

/-- A value that cannot be planned ends its command with a code of class 1. -/
theorem failsOrSucceeds_of_plan_error {c : StatusCode} (h : s.plan = .error c) :
    FailsOrSucceeds s (s.setStatus c.toByte) := by
  rcases plan_error_code h with rfl | rfl | rfl <;> exact .failed (by decide)

theorem execClassify_failsOrSucceeds (h : execClassify s = .next t) : FailsOrSucceeds s t := by
  rcases execClassify_cases h with ⟨c, hc, rfl⟩ | ⟨g, -, rfl⟩
  · exact failsOrSucceeds_of_plan_error hc
  · exact .succeeded rfl

theorem execEncode_failsOrSucceeds (h : execEncode s = .next t) : FailsOrSucceeds s t := by
  rcases execEncode_cases h with ⟨c, hc, rfl⟩ | ⟨g, -, rfl⟩
  · exact failsOrSucceeds_of_plan_error hc
  · exact .succeeded rfl

theorem execDecode_failsOrSucceeds (h : execDecode s = .next t) : FailsOrSucceeds s t := by
  rcases execDecode_cases h with ⟨-, rfl⟩ | ⟨-, rfl⟩
  · exact .failed (by decide)
  · exact .succeeded rfl

theorem execTlstep_failsOrSucceeds (h : execTlstep s = .next t) : FailsOrSucceeds s t := by
  rcases execTlstep_cases h with ⟨-, rfl⟩ | ⟨-, rfl, -⟩ | ⟨-, -, -, -, rfl⟩ | ⟨-, -, -, -, rfl⟩
  · exact .failed (by decide)
  · exact .failed (by decide)
  · exact .succeeded rfl
  · exact .succeeded rfl

theorem execCkgen_failsOrSucceeds (h : execCkgen s = .next t) : FailsOrSucceeds s t := by
  rcases execCkgen_cases h with ⟨-, rfl⟩ | ⟨-, -, rfl⟩ | ⟨-, -, rfl⟩
  · exact .failed (by decide)
  · exact .failed (by decide)
  · exact .succeeded rfl

theorem execCkchk_failsOrSucceeds (h : execCkchk s = .next t) : FailsOrSucceeds s t := by
  rcases execCkchk_cases h with ⟨-, rfl⟩ | ⟨-, -, rfl⟩ | ⟨-, -, -, rfl⟩ | ⟨-, -, -, rfl⟩
  · exact .failed (by decide)
  · exact .failed (by decide)
  · exact .failed (by decide)
  · exact .succeeded rfl

theorem execBounds_failsOrSucceeds (h : execBounds s = .next t) : FailsOrSucceeds s t := by
  rcases execBounds_cases h with ⟨-, rfl⟩ | ⟨-, -, rfl⟩ | ⟨-, -, rfl⟩
  · exact .failed (by decide)
  · exact .failed (by decide)
  · exact .succeeded rfl

theorem execHdrchk_failsOrSucceeds (h : execHdrchk s = .next t) : FailsOrSucceeds s t := by
  rcases execHdrchk_cases h with ⟨-, rfl⟩ | ⟨-, c, hc, rfl⟩ | ⟨-, -, rfl⟩
  · exact .failed (by decide)
  · exact .failed_class3 (hdrCheck_failsInClass3 _ _ c hc)
  · exact .succeeded rfl

theorem exec_arealookup_failsOrSucceeds (h : exec .arealookup s = .next t) : FailsOrSucceeds s t := by
  rcases exec_arealookup_ends h with herror | ⟨-, -, rfl⟩ | ⟨_, _, -, -, hstatus, -⟩
  · exact .inl herror
  · exact .succeeded rfl
  · exact .inr (by rw [hstatus]; rfl)

theorem exec_mrchk_failsOrSucceeds (h : exec .mrchk s = .next t) : FailsOrSucceeds s t := by
  rcases exec_mrchk_ends h with herror | ⟨-, -, size, -, rfl⟩
  · exact .inl herror
  · exact .succeeded rfl

/-- Every command that has written more than STATUS ends with a code of class 0. -/
theorem exec_failsOrSucceeds {i : Instr} (h : exec i s = .next t) : FailsOrSucceeds s t := by
  cases i with
  | nop => exact execNop_cases h ▸ .succeeded rfl
  | classify => exact execClassify_failsOrSucceeds h
  | encode => exact execEncode_failsOrSucceeds h
  | decode => exact execDecode_failsOrSucceeds h
  | tagparse => exact execTagparse_cases h ▸ .succeeded rfl
  | tlstep => exact execTlstep_failsOrSucceeds h
  | ckgen => exact execCkgen_failsOrSucceeds h
  | ckchk => exact execCkchk_failsOrSucceeds h
  | bounds => exact execBounds_failsOrSucceeds h
  | hdrchk => exact execHdrchk_failsOrSucceeds h
  | arealookup => exact exec_arealookup_failsOrSucceeds h
  | mrchk => exact exec_mrchk_failsOrSucceeds h

end

/-- Settles O16: a command that does not end with a code of class 0 has written nothing but STATUS. -/
theorem failuresArePrecise : Obligations.FailuresArePrecise := by
  unfold Obligations.FailuresArePrecise
  intro i s t h hclass
  exact (exec_failsOrSucceeds h).eq_of_class_ne hclass

/-! ## The codes of each command -/

/-- Settles O17, from the code that `exec_ends` gives for the command. -/
theorem statusCodesPerCommand : Obligations.StatusCodesPerCommand := by
  unfold Obligations.StatusCodesPerCommand
  intro i s t h
  obtain ⟨c, hc, u, -, rfl⟩ := exec_ends h
  exact List.mem_map_of_mem hc

end Sys2Proof.Machine
end

section
/-! PROOF. The reset input, what the commands do with the reset values, and the one-byte Text value that encodes to the
EOF sentinel (70_reset_and_hazards.md). -/

namespace Sys2Proof.Machine

/-! ## The EOF-sentinel collision -/

theorem value_of_inLen_one {s : State} (h : s.inLen = 1) : s.value = [s.inBuf.read 0] := by
  rw [State.value, h]
  rfl

theorem autoType_singleton (b : Byte) : autoType [b] = cls b := by
  obtain ⟨c, hc, hcls⟩ := exists_cls_eq_autoType (List.cons_ne_nil b [])
  rw [← hcls, List.mem_singleton.1 hc]

/-- A one-byte value is Text when it is forced, when the policy says so, and in AUTO by the class of its byte. -/
theorem effType_oneByte_text {s : State} (hlen : s.inLen = 1)
    (h : s.encMode = 4 ∨ (s.encMode = 0 ∧ s.policy = true) ∨
      (s.encMode = 0 ∧ s.policy = false ∧ cls (s.inBuf.read 0) = .text)) :
    effType s.encMode s.policy s.value = .ok .text := by
  rcases h with hm | ⟨hm, hp⟩ | ⟨hm, hp, hcls⟩
  · rw [hm, effType_forceText]
  · rw [hm, hp, effType_policy]
  · rw [hm, hp, effType_auto, value_of_inLen_one hlen, autoType_singleton, hcls]

theorem plan_oneByte_text {s : State} (hlen : s.inLen = 1) (heff : effType s.encMode s.policy s.value = .ok .text) :
    s.plan = .ok ⟨.text, 1⟩ := by
  have hwire : plen .text s.inLen.toNat = 1 := by rw [hlen]; rfl
  rw [plan_of_effType heff (by omega), hwire]

/-- The tag of a one-byte Text value is the sentinel (30_encoding.md R155). -/
theorem encodeTypelen_oneByte_text : encodeTypelen ⟨.text, 1⟩ = 0xC1 :=
  (encodeTypelen_eq_eof ⟨.text, 1⟩ (by decide)).2 ⟨rfl, rfl⟩

theorem setField_read (s : State) (b : Byte) {bs : List Byte} {k : Nat} (hcap : bs.length ≤ 64) (hk : k < bs.length) :
    (s.setField b bs).fieldBuf.read k = bs[k] :=
  Memory.read_fill_string s.fieldBuf hcap hk

/-- Settles O38: the plan of a one-byte Text value has the sentinel for its tag, and the value for its payload. -/
theorem oneByteTextCollidesWithSentinel : Obligations.OneByteTextCollidesWithSentinel := by
  unfold Obligations.OneByteTextCollidesWithSentinel
  intro i s hi hlen hmode
  obtain ⟨-, -, -, htext⟩ := characterClasses (s.inBuf.read 0)
  rw [← htext] at hmode
  have hplan := plan_oneByte_text hlen (effType_oneByte_text hlen hmode)
  rcases hi with rfl | rfl
  · have hexec := exec_classify_of_plan hplan
    rw [encodeTypelen_oneByte_text] at hexec
    exact ⟨_, hexec, rfl, rfl, rfl, nofun⟩
  · have hexec := exec_encode_of_plan hplan
    rw [encodeTypelen_oneByte_text, value_of_inLen_one hlen] at hexec
    refine ⟨_, hexec, rfl, rfl, rfl, fun _ => ⟨rfl, ?_⟩⟩
    rw [State.setStatus_fieldBuf]
    exact setField_read _ 0xC1 (bs := [s.inBuf.read 0]) (Nat.le_add_left 1 63) Nat.zero_lt_one

/-! ## The reset input -/

/-- The reset state with the host's own lists (log entry 16). -/
def State.resetKeeping (es : List HostEvent) (reads : List Byte) : State :=
  { State.reset with pending := es, hostReads := reads }

theorem step_reset {s : State} {es : List HostEvent} (h : s.pending = .reset :: es) :
    step s = .next (State.resetKeeping es s.hostReads) :=
  step_cons h

section
variable (es : List HostEvent) (reads : List Byte)

theorem resetKeeping_get8 (r : Reg8) : (State.resetKeeping es reads).get8 r = 0x00 := by
  cases r <;> rfl

theorem resetKeeping_get16 (r : Reg16) : (State.resetKeeping es reads).get16 r = 0x0000 := by
  cases r <;> rfl

theorem resetKeeping_read (b : Buffer) (k : Nat) : ((State.resetKeeping es reads).getBuf b).read k = 0x00 := by
  cases b <;> rfl

end

/-- A window with 0 in every register and buffer byte reads 0x00 at every offset, the reserved ones too. -/
theorem mmioRead_eq_zero {t : State} (h8 : ∀ r, t.get8 r = 0x00) (h16 : ∀ r, t.get16 r = 0x0000)
    (hbuf : ∀ b k, (t.getBuf b).read k = 0x00) (off : Offset) : mmioRead t off = 0x00 := by
  unfold mmioRead
  cases placeAt off.toNat with
  | reg8 r => exact (congrArg (· &&& Reg8.mask r) (h8 r)).trans BitVec.zero_and
  | low r => exact congrArg lowByte (h16 r)
  | high r => exact congrArg highByte (h16 r)
  | buf b i => exact hbuf b i
  | reserved => rfl

/-- Settles O11: the step ends in the reset state, whose registers and buffers are what the window reads. -/
theorem resetClearsEverything : Obligations.ResetClearsEverything := by
  unfold Obligations.ResetClearsEverything
  intro s es hp
  have h8 := resetKeeping_get8 es s.hostReads
  have h16 := resetKeeping_get16 es s.hostReads
  have hbuf := resetKeeping_read es s.hostReads
  exact ⟨_, step_reset hp, rfl, rfl, h8, h16, hbuf, mmioRead_eq_zero h8 h16 hbuf⟩

/-- Settles O13: `inv_reset`, from which a reset step keeps the invariant. -/
theorem invariantAtReset : Obligations.InvariantAtReset :=
  inv_reset

/-! ## The commands on the reset values -/

/-- A cleared buffer filled with the empty string stays cleared. -/
theorem Memory.fill_nil_nil (cap : Nat) : Memory.fill [] cap [] = [] :=
  Memory.ext_of_wf (Memory.wf_fill [] cap [] Memory.wf_nil) Memory.wf_nil fun k => by
    rw [Memory.read_fill _ _ _ _ (Nat.zero_le cap)]
    exact ite_self 0x00

/-- The empty value is BCD+ of wire length 0 (40_field_codec.md R201, R215). -/
theorem plan_reset : State.reset.plan = .ok ⟨.bcdplus, 0⟩ :=
  plan_of_effType (effType_auto []) (Nat.zero_le 63)

theorem exec_classify_reset :
    exec .classify State.reset = .next { State.reset with tagTl := 0x40, tagType := 1, status := 0x00 } :=
  exec_classify_of_plan plan_reset

theorem exec_encode_reset : exec .encode State.reset =
    .next { State.reset with tagTl := 0x40, tagType := 1, fieldTl := 0x40, status := 0x00 } := by
  have hbuf : State.reset.fieldBuf.fill Config.fieldCap (pack .bcdplus State.reset.value) = [] :=
    Memory.fill_nil_nil 64
  rw [exec_encode_of_plan plan_reset, State.setField, State.setTagTl_fieldBuf, hbuf]
  rfl

/-- FIELD_TL 0x00 is an empty Binary field, for which no capacity is too small. -/
theorem exec_decode_reset :
    exec .decode State.reset = .next { State.reset with outLen := 0x00, status := 0x00 } := by
  have hbuf : State.reset.outBuf.fill Config.outCapMax
      (unpack State.reset.fieldTag.type State.reset.fieldPayload) = [] :=
    Memory.fill_nil_nil 128
  rw [exec_decode_of_fits (s := State.reset) (Nat.le_refl 0), State.setOut, hbuf]
  rfl

/-! ## The commands on an empty frame

With FRAME_LEN = 0 the bound checks fail whatever the other registers and FRAME hold; the reset state is one such. -/

section
variable {s : State} (hempty : s.frameLen = 0)
include hempty

theorem frameLen_toNat_of_empty : s.frameLen.toNat = 0 := by
  rw [hempty]
  rfl

theorem frameLen_le_of_empty : s.frameLen.toNat ≤ 4096 := by
  rw [frameLen_toNat_of_empty hempty]
  omega

theorem hdrCheck_of_emptyFrame : hdrCheck s s.frameLen.toNat = .error .errBounds := by
  rw [frameLen_toNat_of_empty hempty]
  rfl

theorem exec_hdrchk_of_emptyFrame : exec .hdrchk s = .next (s.setStatus 0x34) := by
  rw [exec_hdrchk_of_frame (frameLen_le_of_empty hempty), hdrCheck_of_emptyFrame hempty]
  rfl

theorem exec_arealookup_of_emptyFrame (hslot : s.slot ≤ 4) : exec .arealookup s = .next (s.setStatus 0x34) :=
  exec_arealookup_of_badHeader (frameLen_le_of_empty hempty) hslot (hdrCheck_of_emptyFrame hempty)

/-- LIMIT lies past the frame, or is 0 and leaves no room at CURSOR. -/
theorem exec_tlstep_of_emptyFrame : exec .tlstep s = .next (s.setStatus 0x34) := by
  have hlen := frameLen_toNat_of_empty hempty
  refine exec_tlstep_of_outOfBound (frameLen_le_of_empty hempty) ?_
  by_cases hlimit : s.frameLen.toNat < s.limit.toNat
  · exact .inl hlimit
  · exact .inr (.inl (by omega))

theorem exec_mrchk_of_emptyFrame : exec .mrchk s = .next (s.setStatus 0x34) := by
  have hlen := frameLen_toNat_of_empty hempty
  have hframe := frameLen_le_of_empty hempty
  by_cases hlimit : s.frameLen.toNat < s.limit.toNat
  · exact exec_mrchk_of_badLimit hframe hlimit
  · have hstatus : recordStatus s s.cursor.toNat s.limit.toNat = 0x34 := if_pos (by omega)
    have hbad := ne_ok_of_checkStatus ((checkStatus_mrCheck ..).trans hstatus) (by decide)
    rw [exec_mrchk_of_refused hframe (by omega) hbad, hstatus]

/-- The empty range at offset 0 is the one that ends inside an empty frame. -/
theorem exec_range_of_emptyFrame {i : Instr} (hi : i = .ckgen ∨ i = .ckchk ∨ i = .bounds)
    (hrange : ¬(s.rangeOff = 0 ∧ s.rangeLen = 0)) : exec i s = .next (s.setStatus 0x34) := by
  have hout : s.frameLen.toNat < s.rangeOff.toNat + s.rangeLen.toNat := by
    rw [← BitVec.toNat_inj, ← BitVec.toNat_inj] at hrange
    simp only [frameLen_toNat_of_empty hempty, BitVec.reduceToNat] at hrange ⊢
    omega
  have hrefused := fun r => onRange_of_outside (r := r) (frameLen_le_of_empty hempty) hout
  rcases hi with rfl | rfl | rfl
  · exact hrefused _
  · exact hrefused _
  · exact hrefused _

end

/-- The empty range sums to 0: CKGEN and CKCHK succeed on it and leave 0 in CK_RESULT. -/
theorem exec_range_reset {i : Instr} (hi : i = .ckgen ∨ i = .ckchk ∨ i = .bounds) :
    exec i State.reset = .next State.reset := by
  have hchecked := fun r => onRange_of_inside (s := State.reset) (r := r) (Nat.zero_le 4096) (Nat.le_refl 0)
  rcases hi with rfl | rfl | rfl
  · exact hchecked _
  · exact hchecked _
  · exact hchecked _

/-- Settles O12: the codec sees an empty value and an empty field, every other command an empty frame. -/
theorem commandsFromResetValues : Obligations.CommandsFromResetValues := by
  unfold Obligations.CommandsFromResetValues
  refine ⟨exec_classify_reset, exec_encode_reset, exec_decode_reset, exec_hdrchk_of_emptyFrame rfl,
    exec_arealookup_of_emptyFrame rfl (by decide), exec_tlstep_of_emptyFrame rfl, exec_mrchk_of_emptyFrame rfl,
    fun i a n hi => ?_⟩
  by_cases hzero : a = 0 ∧ n = 0
  · obtain ⟨rfl, rfl⟩ := hzero
    exact exec_range_reset hi
  · rw [if_neg hzero]
    exact exec_range_of_emptyFrame rfl hi hzero

end Sys2Proof.Machine
end
